-- ==== Sys2Proof/Word.lean ====
section
/-! DEFINITION. The word types of the spec's notation (00_scope.md R6). -/

namespace Sys2Proof

/-- `u8`: one register of the chip, one byte of a frame. -/
abbrev Byte := BitVec 8

/-- `u24`: an address of the chip's register space (20_memory.md R43). -/
abbrev Addr := BitVec 24

/-- `u16`. -/
abbrev U16 := BitVec 16

/-- `u32`. -/
abbrev U32 := BitVec 32

/-- `u64`: a time in whole milliseconds (60_exceptions.md R154). -/
abbrev U64 := BitVec 64

end Sys2Proof
end

