-- ==== Sys2Proof/Syntax.lean ====
section
/-! DEFINITION. The commands and micro-operations of DEMODCTL: every row of spec/opcode_table.json. -/

namespace Sys2Proof

/-- The rows of the opcode map (30_encoding.md R65) by name. -/
inductive Opcode where
  | init | sleep | setFrontend | getFrontend | readStatus | readSnr | readSignalStrength
  | readBer | readUcb | setPidFilter | setPidFilterEnabled | i2cGateCtrl
  | uopRegWrite | uopRegRead | uopRegWriteMasked | uopRegReadMasked | uopRegWriteTable | uopFpDivide
deriving DecidableEq, Repr

/-- A full-mask register table entry written as a pair (10_state.md R35). -/
structure RegValue where
  addr : Addr
  value : Byte
deriving DecidableEq, Repr

/-- A command or micro-operation with its operands. -/
inductive Instr where
  /-- R90 -/
  | init
  /-- R103 -/
  | sleep
  /-- R110: bandwidth and centre frequency, both in Hz -/
  | setFrontend (bw freq : U32)
  /-- R126 -/
  | getFrontend
  /-- R129 -/
  | readStatus
  /-- R130 -/
  | readSnr
  /-- R131 -/
  | readSignalStrength
  /-- R136 -/
  | readBer
  /-- R137 -/
  | readUcb
  /-- R138: filter entry, packet identifier, enable -/
  | setPidFilter (idx : Byte) (pid : U16) (en : Bool)
  /-- R139 -/
  | setPidFilterEnabled (en : Bool)
  /-- R140 -/
  | i2cGateCtrl (en : Bool)
  /-- R80 -/
  | uopRegWrite (addr : Addr) (bytes : List Byte)
  /-- R81 -/
  | uopRegRead (addr : Addr) (n : Nat)
  /-- R82 -/
  | uopRegWriteMasked (addr : Addr) (value mask : Byte)
  /-- R83 -/
  | uopRegReadMasked (addr : Addr) (mask : Byte)
  /-- R84: a list of full-mask entries, so no other entry can be written down -/
  | uopRegWriteTable (entries : List RegValue)
  /-- R86: dividend, divisor, number of fractional bits 0 to 31 -/
  | uopFpDivide (a b : U32) (x : BitVec 5)
deriving DecidableEq, Repr

end Sys2Proof
end

