-- ==== Sys2Proof/Config.lean ====
section
/-! DEFINITION. What is fixed for this hardware, what the implementation chooses (the parameters and ROM tables), and the free values. -/

namespace Sys2Proof

/-! ### The construction configuration (10_state.md R11 to R18) -/

/-- `ts_mode` (R14). The illegal encoding 3 is not a mode: construction refuses it. -/
inductive TsMode where
  | usb | parallel | serial
deriving DecidableEq, Repr

/-- `adc_mult` (R16). -/
inductive AdcMult where
  | x1 | x2
deriving DecidableEq, Repr

/-- `st.cfg` (R11). -/
structure Cfg where
  clockHz : U32
  tuner : Byte
  tsMode : TsMode
  specInv : Bool
  adcMult : AdcMult
  clkOut : Bool
  hasSetParams : Bool
  hasGetIf : Bool
deriving DecidableEq, Repr

/-- The construction arguments in the widths and encodings of the table of R11. -/
structure CfgArgs where
  clockHz : U32
  tuner : Byte
  tsMode : BitVec 2
  specInv : BitVec 1
  adcMult : BitVec 1
  clkOut : BitVec 1
  hasSetParams : BitVec 1
  hasGetIf : BitVec 1
deriving DecidableEq, Repr

/-! ### The implementation parameters (00_scope.md R5) -/

/-- `RegMap` (20_memory.md R44): the address of every register the rules name. Two may be equal (R45). -/
structure RegMap where
  clockCw : Addr
  adcCw : Addr
  clockOut : Addr
  activation : Addr
  coeff : Addr
  freqCw : Addr
  bw : Addr
  latchA : Addr
  latchB : Addr
  lockAcc : Addr
  band : Addr
  run : Addr
  stopReq : Addr
  sleepAck : Addr
  pwrGate : Addr
  rcs : Addr
  tpsLock : Addr
  fullLock : Addr
  tpsStatus : Addr
  stat : Addr
  snrValue : Addr
  snrMod : Addr
  strength : Addr
  pidCtrl : Addr
  pidValue : Addr
  pidOnoff : Addr
  pidIndex : Addr
  i2cGate : Addr
deriving DecidableEq, Repr

/-- A register table entry with its mask (10_state.md R35). -/
structure RegEntry where
  addr : Addr
  value : Byte
  mask : Byte
deriving DecidableEq, Repr

/-- Where the value of a baseline entry comes from (10_state.md R36): a fixed byte, or a field of the
configuration. DEDUCED, log 12. -/
inductive ByteSource where
  | lit (b : Byte)
  | tuner
  | tsParallel
  | tsSerial
  | adcMult
deriving DecidableEq, Repr

/-- One entry of the baseline table (10_state.md R36). -/
structure BaselineEntry where
  addr : Addr
  source : ByteSource
  mask : Byte
deriving DecidableEq, Repr

/-- A table of at least one row (10_state.md R30, R32, R34). DEDUCED, log 19. -/
structure Rows (α : Type) where
  first : α
  rest : List α
deriving DecidableEq, Repr

/-- A row of `CLOCK_ADC` (10_state.md R30). -/
structure ClockAdcRow where
  clock : U32
  adc : U32
deriving DecidableEq, Repr

/-- A row of `COEFF` (10_state.md R32). -/
structure CoeffRow where
  clock : U32
  bw : U32
  val : List Byte
deriving DecidableEq, Repr

/-- A row of an SNR curve (10_state.md R34). -/
structure SnrRow where
  val : U32
  snr : Byte
deriving DecidableEq, Repr

/-- A total function from the tuner byte to a list of full-mask entries (10_state.md R37):
the first case that names the byte, and `other` for a byte no case names. -/
structure ByteTable where
  cases : List (Byte × List RegValue)
  other : List RegValue
deriving DecidableEq, Repr

/-- `DIVIDER_VARIANT` (41_fixed_point.md R88). -/
inductive DividerVariant where
  | referenceLoop | exactFloor
deriving DecidableEq, Repr

/-- `ZERO_IF_TEST` (43_tuning.md R122). -/
inductive ZeroIfTest where
  | folded | raw
deriving DecidableEq, Repr

/-- Every parameter of R5 that is `OPEN` or has an alternative, and every ROM table of 10_state.md section 6.
It is an argument of the model; State carries it and no step writes it (log 2). -/
structure Params where
  supportedClockHz : U32
  /-- `N_COEFF` -/
  nCoeff : Nat
  regs : RegMap
  /-- R30 -/
  clockAdc : Rows ClockAdcRow
  /-- R32 -/
  coeff : Rows CoeffRow
  /-- R34 -/
  snrQpsk : Rows SnrRow
  snrQam16 : Rows SnrRow
  snrQam64 : Rows SnrRow
  /-- R36 -/
  baseline : List BaselineEntry
  /-- R37 -/
  ofsm : ByteTable
  /-- R38: the bytes it names are `SUPPORTED_TUNERS` -/
  tunerTables : List (Byte × List RegValue)
  /-- R39 -/
  tsUsbWrites : List RegEntry
  tsDirectWrites : List RegEntry
  serialWrites : List RegEntry
  leakWrites : List RegEntry
  /-- R40 -/
  activationTuners : List Byte
  dividerVariant : DividerVariant
  zeroIfTest : ZeroIfTest
  sleepLastPollOk : Bool
  stopReqValue : Byte
  runDisableValue : Byte
  runEnableValue : Byte
  activationValue : Byte
  clockOutValue : Byte
  pwrGateMask : Byte
  lockAccMask : Byte
  tpsLockMask : Byte
  fullLockMask : Byte
  snrScale : Nat
deriving DecidableEq, Repr

namespace Config

/-! ### Fixed values of R5 -/

/-- `MAX_BURST_PAYLOAD` -/
def maxBurstPayload : Nat := 64
/-- The number of registers of the register space, 2^24 (20_memory.md R43). -/
def registerSpace : Nat := 2 ^ 24
/-- `SLEEP_POLL_BUDGET` -/
def sleepPollBudget : Nat := 100
/-- The bounds of `SLEEP_POLL_DELAY_US`. -/
def sleepDelayLo : Nat := 200
def sleepDelayHi : Nat := 10000
/-- `STAT_THROTTLE_MS` -/
def statThrottleMs : Nat := 500
/-- `CLOCK_CW_DIVISOR` -/
def clockCwDivisor : U32 := 1000000#32
/-- `CLOCK_CW_FRAC` and `ADC_CW_FRAC` -/
def clockCwFrac : Nat := 19
def adcCwFrac : Nat := 19
/-- `FREQ_CW_FRAC` -/
def freqCwFrac : Nat := 23
/-- `FREQ_CW_MODULUS` -/
def freqCwModulus : U32 := 0x800000#32
/-- `BAND_THRESHOLD_HZ` -/
def bandThresholdHz : U32 := 230000000#32
/-- `BER_SATURATED` -/
def berSaturated : U32 := 0xFFFFFFFF#32
/-- `ABORT_CLAMP` -/
def abortClamp : U32 := 1000#32
/-- `PACKET_BITS_SCALE` -/
def packetBitsScale : U32 := 64#32
/-- `STAT_RAW_BYTES` and `STATUS_RAW_BYTES` -/
def statRawBytes : Nat := 7
def statusRawBytes : Nat := 8
/-- `RCS_HAS_SIGNAL` and `RCS_NO_SIGNAL` -/
def rcsHasSignal : Byte := 0x01#8
def rcsNoSignal : Byte := 0x02#8
/-- `SLEEP_ACK_VALUE` -/
def sleepAckValue : Byte := 0x00#8

/-! ### Free values (00_scope.md R9): what the environment supplies when State holds no answer of its own.
Each is applied to the draw counter of State, so two draws need not agree (log 4). -/

/-- Whether a bus transaction is reported complete. -/
opaque freeAck : Nat → Bool
/-- A byte a bus read returns. -/
opaque freeByte : Nat → Byte
/-- The IF frequency the tuner reports, an `s32`. -/
opaque freeIf : Nat → U32
/-- A sample of the time input, before it is held to the order of R154. -/
opaque freeTime : Nat → U64
/-- The length of a delay in microseconds, before it is held to the range of R155. -/
opaque freeDelay : Nat → Nat
/-- The opcode byte in the response to a frame that has no byte (DESIGN CHOICE, log 10). -/
opaque emptyFrameOpcode : Byte

/-! ### The test parameter set TP and configuration CFG-A (95_test_vectors.md section 0) -/

/-- TP's register addresses. -/
def tpRegs : RegMap where
  clockCw := 0x800025#24
  adcCw := 0x80F1CD#24
  clockOut := 0x80FBA8#24
  activation := 0x000000#24
  coeff := 0x800001#24
  freqCw := 0x800029#24
  bw := 0x80F904#24
  latchA := 0x800040#24
  latchB := 0x800047#24
  lockAcc := 0x80F999#24
  band := 0x80004B#24
  run := 0x800000#24
  stopReq := 0x80004C#24
  sleepAck := 0x80004C#24
  pwrGate := 0x80FB24#24
  rcs := 0x800047#24
  tpsLock := 0x80F5A9#24
  fullLock := 0x80F999#24
  tpsStatus := 0x80F900#24
  stat := 0x800032#24
  snrValue := 0x80002C#24
  snrMod := 0x80F903#24
  strength := 0x800048#24
  pidCtrl := 0x80F993#24
  pidValue := 0x80F996#24
  pidOnoff := 0x80F994#24
  pidIndex := 0x80F995#24
  i2cGate := 0x00FA04#24

/-- TP's one SNR curve. -/
def tpSnr : Rows SnrRow := ⟨⟨10#32, 1#8⟩, [⟨20#32, 2#8⟩, ⟨30#32, 3#8⟩]⟩

/-- TP. It gives no activation register and no activation value, since its activation set is empty;
both are 0 here and nothing reads them (log 2). -/
def tp : Params where
  supportedClockHz := 12000000#32
  nCoeff := 4
  regs := tpRegs
  clockAdc := ⟨⟨12000000#32, 20250000#32⟩, []⟩
  coeff := ⟨⟨12000000#32, 6000000#32, [0xA0#8, 0xA1#8, 0xA2#8, 0xA3#8]⟩,
    [⟨12000000#32, 7000000#32, [0xB0#8, 0xB1#8, 0xB2#8, 0xB3#8]⟩,
     ⟨12000000#32, 8000000#32, [0xC0#8, 0xC1#8, 0xC2#8, 0xC3#8]⟩]⟩
  snrQpsk := tpSnr
  snrQam16 := tpSnr
  snrQam64 := tpSnr
  baseline := [⟨0x00F641#24, .tuner, 0xFF#8⟩, ⟨0x80F985#24, .tsSerial, 0x01#8⟩,
    ⟨0x80F986#24, .tsParallel, 0x01#8⟩, ⟨0x800045#24, .adcMult, 0xFF#8⟩]
  ofsm := ⟨[], [⟨0x800100#24, 0x11#8⟩, ⟨0x800101#24, 0x22#8⟩, ⟨0x800103#24, 0x33#8⟩]⟩
  tunerTables := [(0x38#8, [⟨0x800200#24, 0x44#8⟩])]
  tsUsbWrites := [⟨0x80F9A5#24, 0x00#8, 0x01#8⟩]
  tsDirectWrites := [⟨0x80F990#24, 0x00#8, 0x01#8⟩]
  serialWrites := [⟨0x00D91C#24, 0x01#8, 0x01#8⟩, ⟨0x00D917#24, 0x00#8, 0x01#8⟩,
    ⟨0x00D916#24, 0x00#8, 0x01#8⟩]
  leakWrites := [⟨0x00D917#24, 0x00#8, 0x01#8⟩, ⟨0x00D916#24, 0x01#8, 0x01#8⟩]
  activationTuners := []
  dividerVariant := .referenceLoop
  zeroIfTest := .folded
  sleepLastPollOk := true
  stopReqValue := 0x01#8
  runDisableValue := 0x00#8
  runEnableValue := 0x00#8
  activationValue := 0x00#8
  clockOutValue := 0x00#8
  pwrGateMask := 0x08#8
  lockAccMask := 0x01#8
  tpsLockMask := 0x01#8
  fullLockMask := 0x01#8
  snrScale := 10

/-- CFG-A. -/
def cfgA : Cfg where
  clockHz := 12000000#32
  tuner := 0x38#8
  tsMode := .usb
  specInv := false
  adcMult := .x1
  clkOut := false
  hasSetParams := true
  hasGetIf := true

end Config

end Sys2Proof
end

