-- ==== Sys2Proof/WellFormed.lean ====
section
/-! DEFINITION. What the spec requires of an operand (beyond its width) and of the parameters. -/

namespace Sys2Proof

/-- An instruction whose operands are legal: the divisor of UOP_FP_DIVIDE is not 0 (41_fixed_point.md R86), and
the count of UOP_REG_READ fits the four bytes the model's issue record gives it (DESIGN CHOICE, log 7). Every other
operand is legal by its type; a frame whose `en` byte is not 0 or 1 does not decode (30_encoding.md R66). -/
def Instr.WellFormed : Instr → Bool
  | .init => true
  | .sleep => true
  | .setFrontend _ _ => true
  | .getFrontend => true
  | .readStatus => true
  | .readSnr => true
  | .readSignalStrength => true
  | .readBer => true
  | .readUcb => true
  | .setPidFilter _ _ _ => true
  | .setPidFilterEnabled _ => true
  | .i2cGateCtrl _ => true
  | .uopRegWrite _ _ => true
  | .uopRegRead _ n => decide (n < 2 ^ 32)
  | .uopRegWriteMasked _ _ _ => true
  | .uopRegReadMasked _ _ => true
  | .uopRegWriteTable _ => true
  | .uopFpDivide _ b _ => b != 0#32

/-- The rows of a table, first to last. -/
def Rows.toList {α : Type} (t : Rows α) : List α := t.first :: t.rest

/-- A mask of exactly one bit (20_memory.md, after R44). -/
def oneBitMask (m : Byte) : Bool :=
  [0x01#8, 0x02#8, 0x04#8, 0x08#8, 0x10#8, 0x20#8, 0x40#8, 0x80#8].contains m

/-- `val` strictly increasing along an SNR curve (10_state.md R34). -/
def snrIncreasing (t : Rows SnrRow) : Bool :=
  (t.toList.zip t.rest).all fun (a, b) => decide (a.val.toNat < b.val.toNat)

/-- A burst of `n` registers from `a` fits below 2^24 (20_memory.md R56). -/
def burstFits (a : Addr) (n : Nat) : Bool := decide (a.toNat + n ≤ Config.registerSpace)

/-- Every named burst of RegMap fits (20_memory.md R44, R56). -/
def RegMap.fits (r : RegMap) (nCoeff : Nat) : Bool :=
  burstFits r.clockCw 4 && burstFits r.adcCw 3 && burstFits r.coeff nCoeff && burstFits r.freqCw 3 &&
  burstFits r.tpsStatus 8 && burstFits r.stat 7 && burstFits r.snrValue 3 && burstFits r.pidValue 2

/-- The clock→ADC table is as 10_state.md R30 asks. -/
def clockAdcOk (clock : U32) (t : Rows ClockAdcRow) : Bool :=
  t.toList.all (fun r => decide (1 ≤ r.adc.toNat ∧ r.adc.toNat < 2 ^ 31)) && t.toList.any (fun r => r.clock == clock)

/-- The coefficient table is as 10_state.md R32 and 00_scope.md R5 (`N_COEFF`) ask. -/
def coeffOk (clock : U32) (n : Nat) (t : Rows CoeffRow) : Bool :=
  decide (1 ≤ n ∧ n ≤ Config.maxBurstPayload) && t.toList.all (fun r => r.val.length == n) &&
  [6000000#32, 7000000#32, 8000000#32].all fun bw => t.toList.any fun r => r.clock == clock && r.bw == bw

/-- The baseline table holds the entries 10_state.md R36 asks for. -/
def baselineOk (t : List BaselineEntry) : Bool :=
  [ByteSource.tuner, .tsParallel, .tsSerial, .adcMult].all fun src => t.any fun e => e.source == src

/-- Every constraint the spec puts on the parameters (00_scope.md R5, 10_state.md R29 to R39, 20_memory.md R56).
The model runs with parameters that break them too (log 11, 19). -/
def Params.Ok (p : Params) : Bool :=
  clockAdcOk p.supportedClockHz p.clockAdc && coeffOk p.supportedClockHz p.nCoeff p.coeff &&
  snrIncreasing p.snrQpsk && snrIncreasing p.snrQam16 && snrIncreasing p.snrQam64 &&
  baselineOk p.baseline && p.serialWrites.length == 3 && p.regs.fits p.nCoeff &&
  oneBitMask p.pwrGateMask && oneBitMask p.lockAccMask && oneBitMask p.tpsLockMask && oneBitMask p.fullLockMask

end Sys2Proof
end

