-- ==== Sys2Proof/Decode.lean ====
section
/-! DEFINITION. The opcode map, the decoder, the host port's check of a frame, and the encoder (30_encoding.md). -/

namespace Sys2Proof

/-! ### Byte order: every multi-byte operand is little-endian (R63, 20_memory.md R51) -/

/-- `{b1, b0}` -/
def le16 (b0 b1 : Byte) : U16 := b1 ++ b0

/-- `{b2, b1, b0}` -/
def le24 (b0 b1 b2 : Byte) : BitVec 24 := b2 ++ b1 ++ b0

/-- `{b3, b2, b1, b0}` -/
def le32 (b0 b1 b2 b3 : Byte) : U32 := b3 ++ b2 ++ b1 ++ b0

/-- Byte `i` of a word, `v[8i+7:8i]`, with byte 0 the least significant. -/
def byteAt {w : Nat} (i : Nat) (v : BitVec w) : Byte := v.extractLsb' (8 * i) 8

/-- The low `n` bytes of a word, least significant first. -/
def leBytes {w : Nat} (n : Nat) (v : BitVec w) : List Byte := (List.range n).map fun i => byteAt i v

/-! ### The opcode map (R65) -/

/-- The opcode byte of a row. -/
def opcodeByte : Opcode → Byte
  | .init => 0x01#8
  | .sleep => 0x02#8
  | .setFrontend => 0x03#8
  | .getFrontend => 0x04#8
  | .readStatus => 0x05#8
  | .readSnr => 0x06#8
  | .readSignalStrength => 0x07#8
  | .readBer => 0x08#8
  | .readUcb => 0x09#8
  | .setPidFilter => 0x0A#8
  | .setPidFilterEnabled => 0x0B#8
  | .i2cGateCtrl => 0x0C#8
  | .uopRegWrite => 0x80#8
  | .uopRegRead => 0x81#8
  | .uopRegWriteMasked => 0x82#8
  | .uopRegReadMasked => 0x83#8
  | .uopRegWriteTable => 0x84#8
  | .uopFpDivide => 0x85#8

/-- The rows of the map in its order. -/
def allOpcodes : List Opcode :=
  [.init, .sleep, .setFrontend, .getFrontend, .readStatus, .readSnr, .readSignalStrength, .readBer, .readUcb,
   .setPidFilter, .setPidFilterEnabled, .i2cGateCtrl, .uopRegWrite, .uopRegRead, .uopRegWriteMasked,
   .uopRegReadMasked, .uopRegWriteTable, .uopFpDivide]

/-- The row an opcode byte names; none for a reserved byte. -/
def opcodeOf (b : Byte) : Option Opcode := allOpcodes.find? fun o => opcodeByte o == b

/-- The `UOP` rows: micro-operations, which the host port never accepts (R65, R66). -/
def isMicroOp : Opcode → Bool
  | .init | .sleep | .setFrontend | .getFrontend | .readStatus | .readSnr | .readSignalStrength
  | .readBer | .readUcb | .setPidFilter | .setPidFilterEnabled | .i2cGateCtrl => false
  | .uopRegWrite | .uopRegRead | .uopRegWriteMasked | .uopRegReadMasked | .uopRegWriteTable | .uopFpDivide => true

/-- The row of an instruction. -/
def opcodeOfInstr : Instr → Opcode
  | .init => .init
  | .sleep => .sleep
  | .setFrontend _ _ => .setFrontend
  | .getFrontend => .getFrontend
  | .readStatus => .readStatus
  | .readSnr => .readSnr
  | .readSignalStrength => .readSignalStrength
  | .readBer => .readBer
  | .readUcb => .readUcb
  | .setPidFilter _ _ _ => .setPidFilter
  | .setPidFilterEnabled _ => .setPidFilterEnabled
  | .i2cGateCtrl _ => .i2cGateCtrl
  | .uopRegWrite _ _ => .uopRegWrite
  | .uopRegRead _ _ => .uopRegRead
  | .uopRegWriteMasked _ _ _ => .uopRegWriteMasked
  | .uopRegReadMasked _ _ => .uopRegReadMasked
  | .uopRegWriteTable _ => .uopRegWriteTable
  | .uopFpDivide _ _ _ => .uopFpDivide

/-! ### The decoder -/

/-- Why bytes are no instruction. -/
inductive DecodeError where
  /-- no byte at all -/
  | empty
  /-- the opcode is reserved, or on the host port a `UOP` opcode -/
  | opcode (b : Byte)
  /-- the length is not the format's -/
  | length (b : Byte)
  /-- an operand byte is not a legal value (`en` not 0 or 1) -/
  | operand (b : Byte)
deriving DecidableEq, Repr

/-- `en`: 0x00 false, 0x01 true, nothing else (R64, R66). -/
def enableOf (b : Byte) : Option Bool :=
  if b = 0x00#8 then some false else if b = 0x01#8 then some true else none

/-- The entries of a UOP_REG_WRITE_TABLE record, four bytes each (log 7). -/
def tableEntries : List Byte → Option (List RegValue)
  | [] => some []
  | a0 :: a1 :: a2 :: v :: rest => (tableEntries rest).map (⟨le24 a0 a1 a2, v⟩ :: ·)
  | _ => none

/-- Format F0 (R64): the opcode alone. -/
def decodeF0 (o : Opcode) (i : Instr) : List Byte → Except DecodeError Instr
  | [] => .ok i
  | _ :: _ => .error (.length (opcodeByte o))

/-- Format FT (R64): the bandwidth and the frequency, 4 bytes each. -/
def decodeFT : List Byte → Except DecodeError Instr
  | [w0, w1, w2, w3, f0, f1, f2, f3] => .ok (.setFrontend (le32 w0 w1 w2 w3) (le32 f0 f1 f2 f3))
  | _ => .error (.length (opcodeByte .setFrontend))

/-- Format FP (R64): the filter entry, the 2 bytes of the packet identifier, `en`. -/
def decodeFP : List Byte → Except DecodeError Instr
  | [idx, p0, p1, en] =>
    match enableOf en with
    | some e => .ok (.setPidFilter idx (le16 p0 p1) e)
    | none => .error (.operand (opcodeByte .setPidFilter))
  | _ => .error (.length (opcodeByte .setPidFilter))

/-- Format FB (R64): `en`. -/
def decodeFB (o : Opcode) (i : Bool → Instr) : List Byte → Except DecodeError Instr
  | [en] =>
    match enableOf en with
    | some e => .ok (i e)
    | none => .error (.operand (opcodeByte o))
  | _ => .error (.length (opcodeByte o))

/-- The record of UOP_REG_WRITE: the address, then the bytes of the burst (log 7). -/
def decodeRegWrite : List Byte → Except DecodeError Instr
  | a0 :: a1 :: a2 :: bytes => .ok (.uopRegWrite (le24 a0 a1 a2) bytes)
  | _ => .error (.length (opcodeByte .uopRegWrite))

/-- The record of UOP_REG_READ: the address, then the count in 4 bytes (log 7). -/
def decodeRegRead : List Byte → Except DecodeError Instr
  | [a0, a1, a2, n0, n1, n2, n3] => .ok (.uopRegRead (le24 a0 a1 a2) (le32 n0 n1 n2 n3).toNat)
  | _ => .error (.length (opcodeByte .uopRegRead))

/-- The record of UOP_REG_WRITE_MASKED: the address, the value, the mask (log 7). -/
def decodeRegWriteMasked : List Byte → Except DecodeError Instr
  | [a0, a1, a2, v, m] => .ok (.uopRegWriteMasked (le24 a0 a1 a2) v m)
  | _ => .error (.length (opcodeByte .uopRegWriteMasked))

/-- The record of UOP_REG_READ_MASKED: the address, the mask (log 7). -/
def decodeRegReadMasked : List Byte → Except DecodeError Instr
  | [a0, a1, a2, m] => .ok (.uopRegReadMasked (le24 a0 a1 a2) m)
  | _ => .error (.length (opcodeByte .uopRegReadMasked))

/-- The record of UOP_REG_WRITE_TABLE: its entries (log 7). -/
def decodeRegWriteTable (bytes : List Byte) : Except DecodeError Instr :=
  match tableEntries bytes with
  | some es => .ok (.uopRegWriteTable es)
  | none => .error (.length (opcodeByte .uopRegWriteTable))

/-- The record of UOP_FP_DIVIDE: the dividend, the divisor, the number of fractional bits in one byte (log 7). -/
def decodeFpDivide : List Byte → Except DecodeError Instr
  | [a0, a1, a2, a3, b0, b1, b2, b3, x] =>
    if x.toNat < 32 then .ok (.uopFpDivide (le32 a0 a1 a2 a3) (le32 b0 b1 b2 b3) (x.setWidth 5))
    else .error (.operand (opcodeByte .uopFpDivide))
  | _ => .error (.length (opcodeByte .uopFpDivide))

/-- The instruction of a row from the bytes after its opcode. Host formats: R64. The `UOP` records have no
bytes in the spec; theirs are the model's (DESIGN CHOICE, log 7). The length check comes before the `en` check
(60_exceptions.md R146). -/
def decodeOperands (o : Opcode) (ops : List Byte) : Except DecodeError Instr :=
  match o with
  | .init => decodeF0 .init .init ops
  | .sleep => decodeF0 .sleep .sleep ops
  | .setFrontend => decodeFT ops
  | .getFrontend => decodeF0 .getFrontend .getFrontend ops
  | .readStatus => decodeF0 .readStatus .readStatus ops
  | .readSnr => decodeF0 .readSnr .readSnr ops
  | .readSignalStrength => decodeF0 .readSignalStrength .readSignalStrength ops
  | .readBer => decodeF0 .readBer .readBer ops
  | .readUcb => decodeF0 .readUcb .readUcb ops
  | .setPidFilter => decodeFP ops
  | .setPidFilterEnabled => decodeFB .setPidFilterEnabled .setPidFilterEnabled ops
  | .i2cGateCtrl => decodeFB .i2cGateCtrl .i2cGateCtrl ops
  | .uopRegWrite => decodeRegWrite ops
  | .uopRegRead => decodeRegRead ops
  | .uopRegWriteMasked => decodeRegWriteMasked ops
  | .uopRegReadMasked => decodeRegReadMasked ops
  | .uopRegWriteTable => decodeRegWriteTable ops
  | .uopFpDivide => decodeFpDivide ops

/-- The instruction some bytes spell under the opcode map (R65), `UOP` rows included. Total. -/
def decode : List Byte → Except DecodeError Instr
  | [] => .error .empty
  | op :: ops =>
    match opcodeOf op with
    | none => .error (.opcode op)
    | some o => decodeOperands o ops

/-- What the host port makes of a frame: a command, or the reason it is illegal (R66). The opcode check comes
before the length check, which comes before the `en` check (60_exceptions.md R146). -/
def decodeFrame : List Byte → Except DecodeError Instr
  | [] => .error .empty
  | op :: ops =>
    match opcodeOf op with
    | none => .error (.opcode op)
    | some o => if isMicroOp o then .error (.opcode op) else decodeOperands o ops

/-! ### The encoder -/

/-- The byte of `en`. -/
def enableByte (en : Bool) : Byte := if en then 0x01#8 else 0x00#8

/-- The bytes after the opcode (R64; the `UOP` records: log 7). -/
def encodeOperands : Instr → List Byte
  | .init => []
  | .sleep => []
  | .setFrontend bw freq => leBytes 4 bw ++ leBytes 4 freq
  | .getFrontend => []
  | .readStatus => []
  | .readSnr => []
  | .readSignalStrength => []
  | .readBer => []
  | .readUcb => []
  | .setPidFilter idx pid en => idx :: leBytes 2 pid ++ [enableByte en]
  | .setPidFilterEnabled en => [enableByte en]
  | .i2cGateCtrl en => [enableByte en]
  | .uopRegWrite addr bytes => leBytes 3 addr ++ bytes
  | .uopRegRead addr n => leBytes 3 addr ++ leBytes 4 (BitVec.ofNat 32 n)
  | .uopRegWriteMasked addr value mask => leBytes 3 addr ++ [value, mask]
  | .uopRegReadMasked addr mask => leBytes 3 addr ++ [mask]
  | .uopRegWriteTable entries => entries.flatMap fun e => leBytes 3 e.addr ++ [e.value]
  | .uopFpDivide a b x => leBytes 4 a ++ leBytes 4 b ++ [x.setWidth 8]

/-- The bytes of an instruction: for a host command its frame (R63, R64). -/
def encode (i : Instr) : List Byte := opcodeByte (opcodeOfInstr i) :: encodeOperands i

/-! ### The host's numbering of an instruction's bits -/

/-- The least length of the bytes of a row: a host command's is fixed by byte 0 (R69). -/
def rowLength : Opcode → Nat
  | .setFrontend => 9
  | .setPidFilter => 5
  | .setPidFilterEnabled => 2
  | .i2cGateCtrl => 2
  | .uopRegWrite => 4
  | .uopRegRead => 8
  | .uopRegWriteMasked => 6
  | .uopRegReadMasked => 5
  | .uopFpDivide => 10
  | .init | .sleep | .getFrontend | .readStatus | .readSnr | .readSignalStrength | .readBer | .readUcb
  | .uopRegWriteTable => 1

/-- The length of a frame from its byte 0 alone, reserved opcodes included (R69). -/
def frameLength (op : Byte) : Nat :=
  match opcodeOf op with
  | some o => if isMicroOp o then 1 else rowLength o
  | none => 1

/-- The bytes of the instruction whose bits are `w`, `nbits` of them given: byte k is bits 8k+7 to 8k, and the
bytes beyond `nbits` that the row named by byte 0 takes are 0. -/
def tableBytes (nbits w : Nat) : List Byte :=
  let op : Byte := BitVec.ofNat 8 w
  let given := (nbits + 7) / 8
  let n := max given (match opcodeOf op with | some o => rowLength o | none => 1)
  let bits := w % 2 ^ nbits
  (List.range n).map fun k => BitVec.ofNat 8 (bits / 2 ^ (8 * k))

/-- The instruction the decoder reads from an instruction whose bits are `w`. -/
def decodeTableWord (nbits w : Nat) : Option Instr :=
  match decode (tableBytes nbits w) with
  | .ok i => some i
  | .error _ => none

end Sys2Proof
end

