-- ==== Sys2Proof/Machine/State.lean ====
section
/-! DEFINITION. The state of DEMODCTL (10_state.md) with the model's own fields for its parameters, ports and environment. -/

namespace Sys2Proof.Machine

/-- Why a step stops the machine. -/
inductive Fault where
  /-- UOP_FP_DIVIDE with divisor 0 (41_fixed_point.md R86, 93 U1), and a SET_FRONTEND that would divide by an ADC
  frequency of 0, which a table that breaks 10_state.md R30 can give (93 U3; log 11). Safe: the spec asks for it. -/
  | divideByZero
deriving DecidableEq, Repr

/-- Why a step has no meaning. -/
inductive Refusal where
  /-- An instruction whose arm of `exec` has no meaning yet. Safe. -/
  | notModelled (mnemonic : String)
  /-- The micro-operation issue record, a field of the model's own, holds bytes that are no micro-operation
  (log 7). No command puts a record there. Safe. -/
  | badIssueRecord
deriving DecidableEq, Repr

/-- `st.fsm` (R19). -/
inductive Fsm where
  | unconfigured | active | asleep
deriving DecidableEq, Repr

/-- `st.seq`, the sequencer pointer (R20): `IDLE`, or the step of the running command. -/
inductive Seq where
  | idle
  | running (op : Opcode) (step : Nat)
deriving DecidableEq, Repr

/-- An event of the trace (00_scope.md R8; 20_memory.md R47, R48; 60_exceptions.md R153 to R155). -/
inductive Event where
  /-- `W(addr, bytes, ok)` -/
  | write (addr : Addr) (bytes : List Byte) (ok : Bool)
  /-- `R(addr, n, bytes)`, or `R(addr, n, FAIL)` where the result is none -/
  | read (addr : Addr) (n : Nat) (result : Option (List Byte))
  /-- `TS()` -/
  | tunerSetParams
  /-- `TG(v)` -/
  | tunerGetIf (v : U32)
  /-- `T(t)` -/
  | time (t : U64)
  /-- `D(u)` -/
  | delay (us : Nat)
deriving DecidableEq, Repr

/-- What a micro-operation run by itself returned to its caller (log 9). -/
inductive UopResult where
  /-- none has run -/
  | none
  /-- it returned with no value -/
  | done
  /-- the bytes read -/
  | bytes (bs : List Byte)
  /-- the quotient -/
  | word (q : U32)
deriving DecidableEq, Repr

/-- What the environment supplies (00_scope.md R9): answers ready at each port, taken first to last; where a port has
none ready, the draw is the free value of Config at `fresh` (log 4). -/
structure Env where
  /-- reports of bus transactions -/
  acks : List Bool
  /-- bytes bus reads return -/
  bytes : List Byte
  /-- IF frequencies the tuner reports -/
  ifs : List U32
  /-- samples of the time input -/
  times : List U64
  /-- lengths of delays, in microseconds -/
  delays : List Nat
  /-- the number of free values drawn -/
  fresh : Nat
  /-- the greatest time sampled so far (R154; log 5) -/
  now : U64
deriving DecidableEq, Repr

/-- The state. `cfg` to `trace` are the record `st` of R10; the other fields are the model's. -/
structure State where
  /-- the parameters and ROM tables, an argument of the model (R10, 00_scope.md R5; log 2) -/
  params : Params
  /-- R11 -/
  cfg : Cfg
  /-- R19 -/
  fsm : Fsm
  /-- R20 -/
  seq : Seq
  /-- R22 -/
  cachedBw : U32
  /-- R23 -/
  tsParallel : Bool
  tsSerial : Bool
  /-- R24 -/
  ber : U32
  /-- R25 -/
  ucb : U32
  /-- R26 -/
  lastStat : Option U64
  /-- R10, 00_scope.md R8: oldest event first -/
  trace : List Event
  /-- frames waiting on the host port, the next first (30_encoding.md R63, 60_exceptions.md R158; log 14) -/
  frames : List (List Byte)
  /-- responses given, oldest first (30_encoding.md R67; log 16) -/
  responses : List (List Byte)
  /-- the micro-operation issue record (30_encoding.md R64; log 7) -/
  issue : Option (List Byte)
  /-- log 9 -/
  uopResult : UopResult
  /-- 00_scope.md R9; log 4 -/
  env : Env
deriving DecidableEq, Repr

/-- An environment with no answer ready. -/
def Env.start : Env where
  acks := []
  bytes := []
  ifs := []
  times := []
  delays := []
  fresh := 0
  now := 0#64

/-- The machine right after construction (10_state.md R42, 70_reset_and_hazards.md R161), for the parameter set TP and
the configuration CFG-A of 95_test_vectors.md (DESIGN CHOICE, log 2 and 3; `construct` takes any). -/
def State.reset : State where
  params := Config.tp
  cfg := Config.cfgA
  fsm := .unconfigured
  seq := .idle
  cachedBw := 0#32
  tsParallel := false
  tsSerial := false
  ber := 0#32
  ucb := 0#32
  lastStat := none
  trace := []
  frames := []
  responses := []
  issue := none
  uopResult := .none
  env := Env.start

end Sys2Proof.Machine
end

