-- ==== Sys2Proof/Machine/Ops.lean ====
section
/-! DEFINITION. The shared operations: draws, the bus and tuner and time ports, raising an error and returning, and the register access of 40_register_access.md. -/

namespace Sys2Proof.Machine

/-! ### Errors (60_exceptions.md R141) -/

/-- The error kinds. -/
inductive Status where
  | validation | transport | timeout | unsupportedDevice | illegalCommand
deriving DecidableEq, Repr

/-- The reasons. -/
inductive Reason where
  | burstSize | busWrite | busRead | bandwidth | notInitialized | clock | tsMode | sleepAck | tunerId | opcode | operand
deriving DecidableEq, Repr

/-- The status code of an error kind (R141). -/
def statusByte : Status → Byte
  | .validation => 0x01#8
  | .transport => 0x02#8
  | .timeout => 0x03#8
  | .unsupportedDevice => 0x04#8
  | .illegalCommand => 0x05#8

/-- The status code `OK` (R141). -/
def okByte : Byte := 0x00#8

/-- The reason code (R141). -/
def reasonByte : Reason → Byte
  | .burstSize => 0x01#8
  | .busWrite => 0x02#8
  | .busRead => 0x03#8
  | .bandwidth => 0x04#8
  | .notInitialized => 0x05#8
  | .clock => 0x06#8
  | .tsMode => 0x07#8
  | .sleepAck => 0x08#8
  | .tunerId => 0x09#8
  | .opcode => 0x0A#8
  | .operand => 0x0B#8

/-- The error kind a reason goes with (R141). -/
def statusOf : Reason → Status
  | .burstSize => .validation
  | .busWrite => .transport
  | .busRead => .transport
  | .bandwidth => .validation
  | .notInitialized => .validation
  | .clock => .validation
  | .tsMode => .validation
  | .sleepAck => .timeout
  | .tunerId => .unsupportedDevice
  | .opcode => .illegalCommand
  | .operand => .illegalCommand

/-- The encoding of the control state (10_state.md R19). -/
def fsmCode : Fsm → Nat
  | .unconfigured => 0
  | .active => 1
  | .asleep => 2

/-! ### Steps of a command: a state transformer that may raise, keeping the state at the raise (R145) -/

/-- A piece of a command. An error keeps the state it was raised in: there is no rollback (R145). -/
abbrev M (α : Type) := EStateM Reason State α

/-- `raise E(reason)` (00_scope.md R7): the command stops here; `takeError` does the rest. -/
def raise {α : Type} (r : Reason) : M α := throw r

/-- `seq <- (op, step)` (10_state.md R20). -/
def atStep (op : Opcode) (step : Nat) : M Unit := modify fun s => { s with seq := .running op step }

/-- A piece a command runs only under a condition. -/
def onlyWhen (b : Bool) (m : M Unit) : M Unit := if b then m else pure ()

/-! ### Draws (00_scope.md R9): the next ready answer, or a free value (log 4) -/

/-- The bus port's report of a transaction (20_memory.md R49). -/
def drawAck (e : Env) : Bool × Env :=
  match e.acks with
  | a :: rest => (a, { e with acks := rest })
  | [] => (Config.freeAck e.fresh, { e with fresh := e.fresh + 1 })

/-- One byte a read returns. -/
def drawByte (e : Env) : Byte × Env :=
  match e.bytes with
  | b :: rest => (b, { e with bytes := rest })
  | [] => (Config.freeByte e.fresh, { e with fresh := e.fresh + 1 })

/-- The `n` bytes a read returns, lowest address first. -/
def drawBytes : Nat → Env → List Byte × Env
  | 0, e => ([], e)
  | n + 1, e =>
    let d := drawByte e
    let ds := drawBytes n d.2
    (d.1 :: ds.1, ds.2)

/-- The IF frequency the tuner reports, an `s32` (60_exceptions.md R153). -/
def drawIf (e : Env) : U32 × Env :=
  match e.ifs with
  | v :: rest => (v, { e with ifs := rest })
  | [] => (Config.freeIf e.fresh, { e with fresh := e.fresh + 1 })

/-- A time sample, before R154's order is imposed. -/
def drawTime (e : Env) : U64 × Env :=
  match e.times with
  | t :: rest => (t, { e with times := rest })
  | [] => (Config.freeTime e.fresh, { e with fresh := e.fresh + 1 })

/-- A delay length, before R155's range is imposed. -/
def drawDelay (e : Env) : Nat × Env :=
  match e.delays with
  | u :: rest => (u, { e with delays := rest })
  | [] => (Config.freeDelay e.fresh, { e with fresh := e.fresh + 1 })

/-! ### The ports -/

/-- The trace with one more event, and the environment after the draw. -/
def State.log (s : State) (ev : Event) (e : Env) : State := { s with trace := s.trace ++ [ev], env := e }

/-- The length check of a write transaction (20_memory.md R47). -/
def writeFits (addr : Addr) (n : Nat) : Bool :=
  decide (1 ≤ n ∧ n ≤ Config.maxBurstPayload ∧ addr.toNat + n ≤ Config.registerSpace)

/-- The length check of a read transaction (20_memory.md R48). -/
def readFits (addr : Addr) (n : Nat) : Bool :=
  decide (1 ≤ n ∧ addr.toNat + n ≤ Config.registerSpace)

/-- `BusWrite(addr, bytes)` (20_memory.md R47): one write transaction. -/
def busWrite (addr : Addr) (bytes : List Byte) : M Unit := fun s =>
  if writeFits addr bytes.length then
    let d := drawAck s.env
    let s' := s.log (.write addr bytes d.1) d.2
    if d.1 then .ok () s' else .error .busWrite s'
  else .error .burstSize s

/-- `BusRead(addr, n)` (20_memory.md R48): one read transaction. A failed read returns no bytes (R50). -/
def busRead (addr : Addr) (n : Nat) : M (List Byte) := fun s =>
  if readFits addr n then
    let d := drawAck s.env
    if d.1 then
      let bs := drawBytes n d.2
      .ok bs.1 (s.log (.read addr n (some bs.1)) bs.2)
    else .error .busRead (s.log (.read addr n none) d.2)
  else .error .burstSize s

/-- A read of one register: `BusRead(addr, 1)[0]`. -/
def busReadByte (addr : Addr) : M Byte := do
  let bs ← busRead addr 1
  pure (bs.headD 0x00#8)

/-- `TunerSetParams()` (60_exceptions.md R153). -/
def tunerSetParams : M Unit := fun s => .ok () (s.log .tunerSetParams s.env)

/-- `TunerGetIf()` (60_exceptions.md R153). -/
def tunerGetIf : M U32 := fun s =>
  let d := drawIf s.env
  .ok d.1 (s.log (.tunerGetIf d.1) d.2)

/-- The later of two times. -/
def laterOf (a b : U64) : U64 := if a.toNat ≤ b.toNat then b else a

/-- `Now()` (60_exceptions.md R154): a draw that is never below an earlier sample (log 5). -/
def sampleTime : M U64 := fun s =>
  let d := drawTime s.env
  let t := laterOf s.env.now d.1
  .ok t (s.log (.time t) { d.2 with now := t })

/-- `Delay(lo, hi)` (60_exceptions.md R155): a draw held to the range (log 6). -/
def delayFor (lo hi : Nat) : M Unit := fun s =>
  let d := drawDelay s.env
  .ok () (s.log (.delay (max lo (min hi d.1))) d.2)

/-! ### Raising an error and returning (60_exceptions.md R143 to R149) -/

/-- The opcode and step an error record names (R143): those `seq` holds. With no command running, the opcode is the
one given and the step 0, as R143 has it for an illegal frame. -/
def errorPlace (seq : Seq) (op : Byte) : Byte × Nat :=
  match seq with
  | .running o k => (opcodeByte o, k)
  | .idle => (op, 0)

/-- The error record as a response (R143, 30_encoding.md R67): `[status, opcode, step, reason]`. -/
def errorFrame (place : Byte × Nat) (r : Reason) : List Byte :=
  [statusByte (statusOf r), place.1, BitVec.ofNat 8 place.2, reasonByte r]

/-- What an error does to the control state (R145): INIT and SLEEP leave `UNCONFIGURED`. -/
def fsmAfterError (seq : Seq) (fsm : Fsm) : Fsm :=
  match seq with
  | .running .init _ => .unconfigured
  | .running .sleep _ => .unconfigured
  | _ => fsm

/-- TAKING AN ERROR (R143, R145): the failure state change, `seq <- IDLE`, and the error response. Nothing else. -/
def takeError (op : Byte) (r : Reason) (s : State) : State :=
  { s with
    fsm := fsmAfterError s.seq s.fsm
    seq := .idle
    responses := s.responses ++ [errorFrame (errorPlace s.seq op) r] }

/-- THE RETURN of a command (00_scope.md R7, 10_state.md R20): status OK with the result bytes, `seq <- IDLE`. -/
def returnOk (result : List Byte) (s : State) : State :=
  { s with seq := .idle, responses := s.responses ++ [okByte :: result] }

/-- A command from its first step to its response (60_exceptions.md R158). -/
def command (op : Opcode) (body : M (List Byte)) (s : State) : State :=
  match body s with
  | .ok result s' => returnOk result s'
  | .error r s' => takeError (opcodeByte op) r s'

/-- A micro-operation run by itself, at the current step of whatever command is running (40_register_access.md R79): its
value goes to the caller, and an error ends the command (log 8, 9). -/
def microOp (op : Opcode) (body : M UopResult) (s : State) : State :=
  match body s with
  | .ok v s' => { s' with uopResult := v }
  | .error r s' => takeError (opcodeByte op) r s'

/-! ### Register access (40_register_access.md) -/

/-- The byte a masked write sends: the bits of `mask` from `value`, the others from the byte read (R82). -/
def mergeMasked (cur value mask : Byte) : Byte := (value &&& mask) ||| (cur &&& ~~~mask)

/-- The least `i` with `mask[i] == 1`; 0 for mask 0 (R83). -/
def lowestSetBit (mask : Byte) : Nat := ((List.range 8).find? fun i => mask.getLsbD i).getD 0

/-- The bits `mask` selects, right-justified at the mask's lowest set bit (R83). -/
def selectMasked (cur mask : Byte) : Byte := (cur &&& mask) >>> lowestSetBit mask

/-- `writeMasked(addr, value, mask)` (R82): no read when the mask is full. -/
def writeMasked (addr : Addr) (value mask : Byte) : M Unit :=
  if mask = 0xFF#8 then busWrite addr [value]
  else do
    let cur ← busReadByte addr
    busWrite addr [mergeMasked cur value mask]

/-- `readMasked(addr, mask)` (R83). -/
def readMasked (addr : Addr) (mask : Byte) : M Byte := do
  let cur ← busReadByte addr
  pure (selectMasked cur mask)

/-- The bursts of a table (R84): maximal runs of entries whose addresses each exceed the one before by exactly 1. -/
def tableBursts : List RegValue → List (Addr × List Byte)
  | [] => []
  | e :: es =>
    match tableBursts es with
    | (a, bs) :: gs =>
      if a.toNat = e.addr.toNat + 1 then (e.addr, e.value :: bs) :: gs
      else (e.addr, [e.value]) :: (a, bs) :: gs
    | [] => [(e.addr, [e.value])]

/-- One write transaction per burst, in order, up to the first error. -/
def writeBursts : List (Addr × List Byte) → M Unit
  | [] => pure ()
  | g :: gs => do
    busWrite g.1 g.2
    writeBursts gs

/-- `writeTable(entries)` (R84). -/
def writeTable (entries : List RegValue) : M Unit := writeBursts (tableBursts entries)

/-- `applyMasked(entries)` (R85): one masked write per entry, in order, up to the first error. -/
def applyMasked : List RegEntry → M Unit
  | [] => pure ()
  | e :: es => do
    writeMasked e.addr e.value e.mask
    applyMasked es

end Sys2Proof.Machine
end

