-- ==== Sys2Proof/Machine/Operands.lean ====
section
/-! DEFINITION. Values commands compute from the parameters and their operands: table lookups, the divider, the control words, the IF fold, codes and conversions. -/

namespace Sys2Proof.Machine

/-! ### ROM tables (10_state.md section 6) -/

/-- The first row that matches, and the last row when none does (R31, R33). -/
def rowOrLast {α : Type} (found : α → Bool) : α → List α → α
  | r, [] => r
  | r, r' :: rest => if found r then r else rowOrLast found r' rest

/-- `lookupAdc(clock)` (R31). -/
def lookupAdc (p : Params) (clock : U32) : U32 :=
  (rowOrLast (fun r : ClockAdcRow => r.clock == clock) p.clockAdc.first p.clockAdc.rest).adc

/-- `lookupCoeff(clock, bw)` (R33). -/
def lookupCoeff (p : Params) (clock bw : U32) : List Byte :=
  (rowOrLast (fun r : CoeffRow => r.clock == clock && r.bw == bw) p.coeff.first p.coeff.rest).val

/-- A flag as a byte. -/
def flagByte (b : Bool) : Byte := if b then 0x01#8 else 0x00#8

/-- The encoding of `adc_mult` (R16). -/
def adcMultByte : AdcMult → Byte
  | .x1 => 0x00#8
  | .x2 => 0x01#8

/-- The value a baseline entry's source has (R36). -/
def sourceByte (c : Cfg) (tsParallel tsSerial : Bool) : ByteSource → Byte
  | .lit b => b
  | .tuner => c.tuner
  | .tsParallel => flagByte tsParallel
  | .tsSerial => flagByte tsSerial
  | .adcMult => adcMultByte c.adcMult

/-- `BASELINE(cfg, ts_parallel, ts_serial)` (R36; log 12). -/
def baselineTable (p : Params) (c : Cfg) (tsParallel tsSerial : Bool) : List RegEntry :=
  p.baseline.map fun e => ⟨e.addr, sourceByte c tsParallel tsSerial e.source, e.mask⟩

/-- `OFSM_TABLE(tuner)` (R37). -/
def ofsmTable (p : Params) (tuner : Byte) : List RegValue :=
  match p.ofsm.cases.find? fun r => r.1 == tuner with
  | some r => r.2
  | none => p.ofsm.other

/-- `TUNER_TABLE(tuner)` (R38); none for a byte not in `SUPPORTED_TUNERS`. -/
def tunerTable (p : Params) (tuner : Byte) : Option (List RegValue) :=
  (p.tunerTables.find? fun r => r.1 == tuner).map (·.2)

/-- Whether a tuner byte is in `ACTIVATION_TUNERS` (R40). -/
def isActivationTuner (p : Params) (tuner : Byte) : Bool := p.activationTuners.contains tuner

/-- The transport-stream write list of INIT.6 (42_init_sleep.md R96). -/
def tsWrites (p : Params) : TsMode → List RegEntry
  | .usb => p.tsUsbWrites
  | .parallel => p.tsDirectWrites
  | .serial => p.tsDirectWrites

/-- `SNR_LUT[m]` for a modulation code (R34, 30_encoding.md R76); none for code 3. -/
def snrCurve (p : Params) (m : BitVec 2) : Option (Rows SnrRow) :=
  if m = 0#2 then some p.snrQpsk
  else if m = 1#2 then some p.snrQam16
  else if m = 2#2 then some p.snrQam64
  else none

/-! ### The divider (41_fixed_point.md) -/

/-- The `x` iterations of the loop of R86, test before shift; answers `r`. -/
def divideLoop (b : Nat) : Nat → Nat → Nat → Nat
  | 0, _, r => r
  | x + 1, a, r =>
    if b ≤ a then divideLoop b x ((a - b) * 2 % 2 ^ 32) ((r + 1) * 2 % 2 ^ 32)
    else divideLoop b x (a * 2 % 2 ^ 32) (r * 2 % 2 ^ 32)

/-- `divide` under `REFERENCE_LOOP` (R86). -/
def divideReference (a b x : Nat) : Nat :=
  let c := if b < a then a / b else 0
  let a' := if b < a then a - c * b else a
  (c * 2 ^ x + divideLoop b x a' 0) % 2 ^ 32

/-- `divide` under `EXACT_FLOOR` (R88). -/
def divideExact (a b x : Nat) : Nat := a * 2 ^ x / b % 2 ^ 32

/-- `divide(a, b, x)` for b ≥ 1 (R86, R88). Its callers never pass b = 0 (R86; log 11). -/
def divide (v : DividerVariant) (a b : U32) (x : Nat) : U32 :=
  match v with
  | .referenceLoop => BitVec.ofNat 32 (divideReference a.toNat b.toNat x)
  | .exactFloor => BitVec.ofNat 32 (divideExact a.toNat b.toNat x)

/-! ### Control words -/

/-- The clock control word (42_init_sleep.md R91). -/
def clockControlWord (p : Params) (c : Cfg) : U32 :=
  divide p.dividerVariant c.clockHz Config.clockCwDivisor Config.clockCwFrac

/-- The ADC control word (42_init_sleep.md R93). -/
def adcControlWord (p : Params) (adc : U32) : U32 :=
  divide p.dividerVariant adc Config.clockCwDivisor Config.adcCwFrac

/-- The bandwidth register code (30_encoding.md R71); none for a bandwidth that is refused (43_tuning.md R112). -/
def bandwidthCode (bw : U32) : Option Byte :=
  if bw = 6000000#32 then some 0x00#8
  else if bw = 7000000#32 then some 0x01#8
  else if bw = 8000000#32 then some 0x02#8
  else none

/-- The band-select byte (30_encoding.md R72): VHF 0x00 up to the threshold, UHF 0x01 above. -/
def bandByte (freq : U32) : Byte := if freq.toNat ≤ Config.bandThresholdHz.toNat then 0x00#8 else 0x01#8

/-- The fold of TUNE.7, at most `fuel` subtractions (43_tuning.md R118). -/
def foldLoop (adc : Nat) : Nat → Int → Int
  | 0, f => f
  | fuel + 1, f => if f > (adc / 2 : Nat) then foldLoop adc fuel (f - adc) else f

/-- TUNE.7: while f > adc div 2, f <- f - adc. `f div adc + 1` subtractions always suffice (93, after U17). -/
def foldIf (adc : U32) (f : Int) : Int := foldLoop adc.toNat (f.toNat / adc.toNat + 1) f

/-- Whether the control word is complemented, `inv == -1` at the end of TUNE.8 (43_tuning.md R119): the flag, flipped
once more for a non-negative folded IF. -/
def complementWord (specInv : Bool) (folded : Int) : Bool := if 0 ≤ folded then !specInv else specInv

/-- TUNE.8's |f| as the u32 the divider takes. -/
def ifMagnitude (folded : Int) : U32 := BitVec.ofNat 32 folded.natAbs

/-- TUNE.10: the word, or its complement modulo 2^32 where `inv == -1` (43_tuning.md R120). -/
def complementedWord (inverted : Bool) (w : U32) : U32 := if inverted then Config.freqCwModulus - w else w

/-- TUNE.11: the word, halved under the 2x multiplier (43_tuning.md R120, R121). -/
def halvedWord (m : AdcMult) (w : U32) : U32 :=
  match m with
  | .x1 => w
  | .x2 => w >>> 1

/-- The frequency control word of TUNE.8 to TUNE.11 (43_tuning.md R119 to R121). -/
def freqControlWord (p : Params) (c : Cfg) (adc : U32) (folded : Int) : U32 :=
  halvedWord c.adcMult
    (complementedWord (complementWord c.specInv folded) (divide p.dividerVariant (ifMagnitude folded) adc Config.freqCwFrac))

/-- Whether the zero-IF override applies (43_tuning.md R122). -/
def zeroIf (t : ZeroIfTest) (raw folded : Int) : Bool :=
  match t with
  | .folded => folded == 0
  | .raw => raw == 0

/-- The three bytes of TUNE.12 (43_tuning.md R120, R122). -/
def controlBytes (t : ZeroIfTest) (raw folded : Int) (w : U32) : List Byte :=
  [byteAt 0 w, byteAt 1 w, if zeroIf t raw folded then 0x00#8 else byteAt 2 w]

/-- What TUNE.7 to TUNE.12 make of the IF frequency (43_tuning.md R118 to R122). -/
def freqControlBytes (p : Params) (c : Cfg) (adc : U32) (raw : Int) : List Byte :=
  controlBytes p.zeroIfTest raw (foldIf adc raw) (freqControlWord p c adc (foldIf adc raw))

/-! ### Read results -/

/-- The u24 raw SNR value (30_encoding.md R76). -/
def snrRaw (bs : List Byte) : BitVec 24 := le24 (bs.getD 0 0) (bs.getD 1 0) (bs.getD 2 0)

/-- The curve walk of SNR.3 (44_status.md R130): the first row whose `val` is greater, or the last row. -/
def snrOfCurve (raw : BitVec 24) (t : Rows SnrRow) : Byte :=
  (rowOrLast (fun r : SnrRow => decide (raw.toNat < r.val.toNat)) t.first t.rest).snr

/-- The SNR value returned (44_status.md R130): scaled, modulo 2^16. -/
def snrScaled (snr : Byte) (scale : Nat) : U16 := BitVec.ofNat 16 (snr.toNat * scale)

/-- The signal strength (44_status.md R131). -/
def strengthScaled (pct : Byte) : U16 := BitVec.ofNat 16 (pct.toNat * 0xFFFF / 100)

/-- The three counts of a statistics sample (30_encoding.md R75). -/
structure Counts where
  abort : U16
  err : BitVec 24
  total : U16
deriving DecidableEq, Repr

/-- The counts in the 7 statistics bytes t0 to t6 (30_encoding.md R75). -/
def countsOf (t : List Byte) : Counts where
  abort := le16 (t.getD 0 0) (t.getD 1 0)
  err := le24 (t.getD 2 0) (t.getD 3 0) (t.getD 4 0)
  total := le16 (t.getD 5 0) (t.getD 6 0)

/-- The abort count a refresh accumulates: clamped for an inconsistent sample (45_statistics.md R133). -/
def abortOf (k : Counts) : U32 :=
  if k.total.toNat < k.abort.toNat then Config.abortClamp else k.abort.setWidth 32

/-- The bit-error rate of a sample, every intermediate value a u32 (45_statistics.md R133, R134). -/
def berOf (k : Counts) : U32 :=
  if k.total.toNat < k.abort.toNat then Config.berSaturated
  else
    let rem : U32 := k.total.setWidth 32 - k.abort.setWidth 32
    if rem = 0#32 then Config.berSaturated
    else
      let e := k.err.setWidth 32 - k.abort.setWidth 32 * Config.packetBitsScale
      e * (Config.berSaturated / (rem * Config.packetBitsScale))

/-- Whether a statistics command refreshes (45_statistics.md R132): no refresh yet, or at least 500 ms since the last.
The difference is of integers (00_scope.md R6; log 18). -/
def refreshDue (lastStat : Option U64) (now : U64) : Bool :=
  match lastStat with
  | none => true
  | some t => decide (t.toNat + Config.statThrottleMs ≤ now.toNat)

end Sys2Proof.Machine
end

