-- ==== Sys2Proof/Machine/Flags.lean ====
section
/-! DEFINITION. The flag-like results: the lock flag set (10_state.md R27) and the bit-field status decoder (44_status.md R127). -/

namespace Sys2Proof.Machine

/-! ### Lock flags (10_state.md R27) -/

def lockSignal : Byte := 0x01#8
def lockCarrier : Byte := 0x02#8
def lockViterbi : Byte := 0x04#8
def lockSync : Byte := 0x08#8
def lockLock : Byte := 0x10#8

/-- `HAS_SIGNAL_FLAGS` (00_scope.md R5) -/
def hasSignalFlags : Byte := lockSignal
/-- `TPS_LOCK_FLAGS` (00_scope.md R5) -/
def tpsLockFlags : Byte := lockSignal ||| lockCarrier ||| lockViterbi
/-- All five flags: what full lock sets (44_status.md R129). -/
def fullLockFlags : Byte := lockSignal ||| lockCarrier ||| lockViterbi ||| lockSync ||| lockLock

/-- The flags after the radio channel status byte (44_status.md R129, RST.1). -/
def flagsOfRcs (rcs : Byte) : Byte := if rcs = Config.rcsHasSignal then hasSignalFlags else 0x00#8

/-- The flags with a lock bit's flags added when the bit read is not 0 (RST.2, RST.3): flags only accumulate. -/
def addFlags (flags bit more : Byte) : Byte := if bit ≠ 0x00#8 then flags ||| more else flags

/-! ### Channel status (10_state.md R28) -/

inductive TxMode where
  | mode2k | mode8k
deriving DecidableEq, Repr

inductive Guard where
  | g1_32 | g1_16 | g1_8 | g1_4
deriving DecidableEq, Repr

inductive Hierarchy where
  | none | alpha1 | alpha2 | alpha4
deriving DecidableEq, Repr

inductive Modulation where
  | qpsk | qam16 | qam64
deriving DecidableEq, Repr

inductive ChannelBw where
  | mhz6 | mhz7 | mhz8
deriving DecidableEq, Repr

inductive CodeRate where
  | r1_2 | r2_3 | r3_4 | r5_6 | r7_8 | none
deriving DecidableEq, Repr

/-- The channel status: `Option.none` is the spec's `ABSENT` (R28). -/
structure ChannelStatus where
  txMode : Option TxMode
  guard : Option Guard
  hierarchy : Option Hierarchy
  modulation : Option Modulation
  bandwidth : Option ChannelBw
  crHp : Option CodeRate
  crLp : Option CodeRate
deriving DecidableEq, Repr

/-! The code of a field is the index of its value in the row of 30_encoding.md R74; a code past the row is `ABSENT`. -/

def txModes : List TxMode := [.mode2k, .mode8k]
def guards : List Guard := [.g1_32, .g1_16, .g1_8, .g1_4]
def hierarchies : List Hierarchy := [.none, .alpha1, .alpha2, .alpha4]
def modulations : List Modulation := [.qpsk, .qam16, .qam64]
def channelBws : List ChannelBw := [.mhz6, .mhz7, .mhz8]
def codeRates : List CodeRate := [.r1_2, .r2_3, .r3_4, .r5_6, .r7_8, .none]

/-- The low `k` bits of status byte `i`, as a code. -/
def statusField (s : List Byte) (i k : Nat) : Nat := (s.getD i 0x00#8).toNat % 2 ^ k

/-- `decodeStatus(s)` (44_status.md R127, 30_encoding.md R74). -/
def decodeStatus (s : List Byte) : ChannelStatus where
  txMode := txModes[statusField s 0 2]?
  guard := guards[statusField s 1 2]?
  hierarchy := hierarchies[statusField s 2 3]?
  modulation := modulations[statusField s 3 2]?
  bandwidth := channelBws[statusField s 4 2]?
  crHp := codeRates[statusField s 6 3]?
  crLp := codeRates[statusField s 7 3]?

/-- The result byte of a field: its code, 0xFF for `ABSENT` (30_encoding.md R67). -/
def fieldByte {α : Type} [DecidableEq α] (codes : List α) : Option α → Byte
  | some v => BitVec.ofNat 8 (codes.idxOf v)
  | none => 0xFF#8

/-- `encodeChannelStatus(cs)`: the 7 result bytes of GET_FRONTEND (30_encoding.md R67). -/
def encodeChannelStatus (cs : ChannelStatus) : List Byte :=
  [fieldByte txModes cs.txMode, fieldByte guards cs.guard, fieldByte hierarchies cs.hierarchy,
   fieldByte modulations cs.modulation, fieldByte channelBws cs.bandwidth, fieldByte codeRates cs.crHp,
   fieldByte codeRates cs.crLp]

end Sys2Proof.Machine
end

