-- ==== Sys2Proof/Machine/InitSleep.lean ====
section
/-! DEFINITION. INIT and SLEEP, the commands of the control FSM (42_init_sleep.md). -/

namespace Sys2Proof.Machine

/-- INIT.8 (R98): the tuner check, before any transaction of the step, then the tuner table. -/
def loadTunerTable (p : Params) (tuner : Byte) : M Unit :=
  match tunerTable p tuner with
  | none => raise .tunerId
  | some es => writeTable es

/-- INIT.1 to INIT.6 (R91 to R96). -/
def initChip (p : Params) (c : Cfg) (tsParallel tsSerial : Bool) : M Unit := do
  atStep .init 1
  busWrite p.regs.clockCw (leBytes 4 (clockControlWord p c))
  atStep .init 2
  let adc := lookupAdc p c.clockHz
  atStep .init 3
  busWrite p.regs.adcCw (leBytes 3 (adcControlWord p adc))
  atStep .init 4
  applyMasked (baselineTable p c tsParallel tsSerial)
  atStep .init 5
  onlyWhen c.clkOut (busWrite p.regs.clockOut [p.clockOutValue])
  atStep .init 6
  applyMasked (tsWrites p c.tsMode)

/-- INIT.7 to INIT.10 (R97 to R100). -/
def initTuner (p : Params) (c : Cfg) (tsSerial : Bool) : M Unit := do
  atStep .init 7
  writeTable (ofsmTable p c.tuner)
  atStep .init 8
  loadTunerTable p c.tuner
  atStep .init 9
  onlyWhen tsSerial (applyMasked p.serialWrites)
  atStep .init 10
  onlyWhen (isActivationTuner p c.tuner) (busWrite p.regs.activation [p.activationValue])

/-- INIT.11 (R101). -/
def initDone : M (List Byte) := do
  atStep .init 11
  modify fun s => { s with cachedBw := 0#32, fsm := .active }
  pure []

/-- The eleven steps of INIT (R90). -/
def initSteps (p : Params) (c : Cfg) (tsParallel tsSerial : Bool) : M (List Byte) := do
  initChip p c tsParallel tsSerial
  initTuner p c tsSerial
  initDone

/-- INIT (R90, R102). -/
def execInit (s : State) : Host.Outcome State Fault Refusal :=
  .next (command .init (initSteps s.params s.cfg s.tsParallel s.tsSerial) s)

/-- The polls of SLEEP.3 with `left` still allowed (R105): whether one acknowledged. -/
def pollAck (p : Params) : Nat → M Bool
  | 0 => pure false
  | left + 1 => do
    let v ← busReadByte p.regs.sleepAck
    if v = Config.sleepAckValue then pure (left != 0 || p.sleepLastPollOk)
    else if left = 0 then pure false
    else do
      delayFor Config.sleepDelayLo Config.sleepDelayHi
      pollAck p left

/-- SLEEP.1 to SLEEP.3 (R104, R105). -/
def sleepStop (p : Params) : M Unit := do
  atStep .sleep 1
  busWrite p.regs.stopReq [p.stopReqValue]
  atStep .sleep 2
  busWrite p.regs.run [p.runDisableValue]
  atStep .sleep 3
  let acked ← pollAck p Config.sleepPollBudget
  if acked then pure () else raise .sleepAck

/-- SLEEP.4 and SLEEP.5 (R106, R107). The control state becomes `ASLEEP` whatever it was, `UNCONFIGURED` included, as R107,
the table of R109 and R19 have it; R108 says that only a new INIT leaves `UNCONFIGURED` (DESIGN CHOICE, log 22). -/
def sleepGate (p : Params) (tsSerial : Bool) : M (List Byte) := do
  atStep .sleep 4
  writeMasked p.regs.pwrGate p.pwrGateMask p.pwrGateMask
  atStep .sleep 5
  onlyWhen tsSerial (applyMasked p.leakWrites)
  modify fun s => { s with fsm := .asleep }
  pure []

/-- The five steps of SLEEP (R103). -/
def sleepSteps (p : Params) (tsSerial : Bool) : M (List Byte) := do
  sleepStop p
  sleepGate p tsSerial

/-- SLEEP (R103, R108). -/
def execSleep (s : State) : Host.Outcome State Fault Refusal :=
  .next (command .sleep (sleepSteps s.params s.tsSerial) s)

end Sys2Proof.Machine
end

