-- ==== Sys2Proof/Machine/PidGate.lean ====
section
/-! DEFINITION. SET_PID_FILTER, SET_PID_FILTER_ENABLED and I2C_GATE_CTRL (46_aux.md). -/

namespace Sys2Proof.Machine

/-- PID.2 to PID.4 (R138). -/
def programPid (p : Params) (idx : Byte) (pid : U16) (en : Bool) : M (List Byte) := do
  atStep .setPidFilter 2
  busWrite p.regs.pidValue (leBytes 2 pid)
  atStep .setPidFilter 3
  busWrite p.regs.pidOnoff [enableByte en]
  atStep .setPidFilter 4
  busWrite p.regs.pidIndex [idx]
  pure []

/-- The steps of SET_PID_FILTER (R138): a value above 13 bits is no PID and has no effect. -/
def setPidFilterSteps (p : Params) (idx : Byte) (pid : U16) (en : Bool) : M (List Byte) := do
  atStep .setPidFilter 1
  if pid.toNat > 0x1FFF then pure [] else programPid p idx pid en

/-- SET_PID_FILTER (R138). -/
def execSetPidFilter (idx : Byte) (pid : U16) (en : Bool) (s : State) : Host.Outcome State Fault Refusal :=
  .next (command .setPidFilter (setPidFilterSteps s.params idx pid en) s)

/-- The step of SET_PID_FILTER_ENABLED (R139): bit 0 of the register. -/
def setPidFilterEnabledSteps (p : Params) (en : Bool) : M (List Byte) := do
  atStep .setPidFilterEnabled 1
  writeMasked p.regs.pidCtrl (enableByte en) 0x01#8
  pure []

/-- SET_PID_FILTER_ENABLED (R139). -/
def execSetPidFilterEnabled (en : Bool) (s : State) : Host.Outcome State Fault Refusal :=
  .next (command .setPidFilterEnabled (setPidFilterEnabledSteps s.params en) s)

/-- The step of I2C_GATE_CTRL (R140): bit 0 of the register. -/
def i2cGateCtrlSteps (p : Params) (en : Bool) : M (List Byte) := do
  atStep .i2cGateCtrl 1
  writeMasked p.regs.i2cGate (enableByte en) 0x01#8
  pure []

/-- I2C_GATE_CTRL (R140). -/
def execI2cGateCtrl (en : Bool) (s : State) : Host.Outcome State Fault Refusal :=
  .next (command .i2cGateCtrl (i2cGateCtrlSteps s.params en) s)

end Sys2Proof.Machine
end

