-- ==== Sys2Proof/Machine/RegAccess.lean ====
section
/-! DEFINITION. The micro-operations run by themselves: register access (40_register_access.md) and the divider (41_fixed_point.md). -/

namespace Sys2Proof.Machine

/-- UOP_REG_WRITE (R80). -/
def execUopRegWrite (addr : Addr) (bytes : List Byte) (s : State) : Host.Outcome State Fault Refusal :=
  .next (microOp .uopRegWrite (do busWrite addr bytes; pure .done) s)

/-- UOP_REG_READ (R81). -/
def execUopRegRead (addr : Addr) (n : Nat) (s : State) : Host.Outcome State Fault Refusal :=
  .next (microOp .uopRegRead (do let bs ← busRead addr n; pure (.bytes bs)) s)

/-- UOP_REG_WRITE_MASKED (R82). -/
def execUopRegWriteMasked (addr : Addr) (value mask : Byte) (s : State) : Host.Outcome State Fault Refusal :=
  .next (microOp .uopRegWriteMasked (do writeMasked addr value mask; pure .done) s)

/-- UOP_REG_READ_MASKED (R83). -/
def execUopRegReadMasked (addr : Addr) (mask : Byte) (s : State) : Host.Outcome State Fault Refusal :=
  .next (microOp .uopRegReadMasked (do let b ← readMasked addr mask; pure (.bytes [b])) s)

/-- UOP_REG_WRITE_TABLE (R84). -/
def execUopRegWriteTable (entries : List RegValue) (s : State) : Host.Outcome State Fault Refusal :=
  .next (microOp .uopRegWriteTable (do writeTable entries; pure .done) s)

/-- UOP_FP_DIVIDE (R86, R88): no transaction and no error; the divisor 0 is outside its contract and faults (93 U1). -/
def execUopFpDivide (a b : U32) (x : BitVec 5) (s : State) : Host.Outcome State Fault Refusal :=
  if b = 0#32 then .fault .divideByZero
  else .next (microOp .uopFpDivide (pure (.word (divide s.params.dividerVariant a b x.toNat))) s)

end Sys2Proof.Machine
end

