-- ==== Sys2Proof/Machine/Statistics.lean ====
section
/-! DEFINITION. READ_BER and READ_UCB: the statistics engine and its throttle (45_statistics.md). -/

namespace Sys2Proof.Machine

/-- The three writes of STAT.3, made together (R133). -/
def recordCounts (k : Counts) (now : U64) (s : State) : State :=
  { s with ber := berOf k, ucb := s.ucb + abortOf k, lastStat := some now }

/-- `refresh(now)`: STAT.2 and STAT.3 (R133). A failed read writes nothing. -/
def refresh (op : Opcode) (p : Params) (now : U64) : M Unit := do
  atStep op 2
  let t ← busRead p.regs.stat Config.statRawBytes
  atStep op 3
  modify (recordCounts (countsOf t) now)

/-- STAT.1 (R132): one time sample, and the refresh when it is due. -/
def throttledRefresh (op : Opcode) (p : Params) : M Unit := do
  atStep op 1
  let now ← sampleTime
  let s ← get
  onlyWhen (refreshDue s.lastStat now) (refresh op p now)

/-- The steps of READ_BER (R136). -/
def readBerSteps (p : Params) : M (List Byte) := do
  throttledRefresh .readBer p
  atStep .readBer 4
  let s ← get
  pure (leBytes 4 s.ber)

/-- READ_BER (R136). -/
def execReadBer (s : State) : Host.Outcome State Fault Refusal :=
  .next (command .readBer (readBerSteps s.params) s)

/-- The steps of READ_UCB (R137). -/
def readUcbSteps (p : Params) : M (List Byte) := do
  throttledRefresh .readUcb p
  atStep .readUcb 4
  let s ← get
  pure (leBytes 4 s.ucb)

/-- READ_UCB (R137). -/
def execReadUcb (s : State) : Host.Outcome State Fault Refusal :=
  .next (command .readUcb (readUcbSteps s.params) s)

end Sys2Proof.Machine
end

