-- ==== Sys2Proof/Machine/Status.lean ====
section
/-! DEFINITION. GET_FRONTEND, READ_STATUS, READ_SNR and READ_SIGNAL_STRENGTH (44_status.md). -/

namespace Sys2Proof.Machine

/-- The steps of GET_FRONTEND (R126). -/
def getFrontendSteps (p : Params) : M (List Byte) := do
  atStep .getFrontend 1
  let s ← busRead p.regs.tpsStatus Config.statusRawBytes
  atStep .getFrontend 2
  pure (encodeChannelStatus (decodeStatus s))

/-- GET_FRONTEND (R126). -/
def execGetFrontend (s : State) : Host.Outcome State Fault Refusal :=
  .next (command .getFrontend (getFrontendSteps s.params) s)

/-- RST.2 and RST.3 (R129), with the flags RST.1 left. -/
def readLockBits (p : Params) (flags : Byte) : M (List Byte) := do
  atStep .readStatus 2
  let t ← readMasked p.regs.tpsLock p.tpsLockMask
  let flags2 := addFlags flags t tpsLockFlags
  atStep .readStatus 3
  let l ← readMasked p.regs.fullLock p.fullLockMask
  pure [addFlags flags2 l fullLockFlags]

/-- The steps of READ_STATUS (R129). -/
def readStatusSteps (p : Params) : M (List Byte) := do
  atStep .readStatus 1
  let rcs ← busReadByte p.regs.rcs
  if rcs = Config.rcsNoSignal then pure [flagsOfRcs rcs]
  else readLockBits p (flagsOfRcs rcs)

/-- READ_STATUS (R129). -/
def execReadStatus (s : State) : Host.Outcome State Fault Refusal :=
  .next (command .readStatus (readStatusSteps s.params) s)

/-- The result bytes of READ_SNR with no value (R130, 30_encoding.md R67). -/
def snrNotPresent : List Byte := 0x00#8 :: leBytes 2 (0#16)

/-- The result bytes of READ_SNR from the raw value and a curve (R130, 30_encoding.md R67). -/
def snrPresent (p : Params) (raw : BitVec 24) (t : Rows SnrRow) : List Byte :=
  0x01#8 :: leBytes 2 (snrScaled (snrOfCurve raw t) p.snrScale)

/-- The end of READ_SNR (R130): modulation code 3 returns at SNR.2, any other code walks its curve at SNR.3. -/
def snrAnswer (p : Params) (raw : BitVec 24) (m : BitVec 2) : M (List Byte) :=
  match snrCurve p m with
  | none => pure snrNotPresent
  | some t => do
    atStep .readSnr 3
    pure (snrPresent p raw t)

/-- The steps of READ_SNR (R130). -/
def readSnrSteps (p : Params) : M (List Byte) := do
  atStep .readSnr 1
  let b ← busRead p.regs.snrValue 3
  atStep .readSnr 2
  let m ← busReadByte p.regs.snrMod
  snrAnswer p (snrRaw b) (m.setWidth 2)

/-- READ_SNR (R130). -/
def execReadSnr (s : State) : Host.Outcome State Fault Refusal :=
  .next (command .readSnr (readSnrSteps s.params) s)

/-- The step of READ_SIGNAL_STRENGTH (R131). -/
def readSignalStrengthSteps (p : Params) : M (List Byte) := do
  atStep .readSignalStrength 1
  let pct ← busReadByte p.regs.strength
  pure (leBytes 2 (strengthScaled pct))

/-- READ_SIGNAL_STRENGTH (R131). -/
def execReadSignalStrength (s : State) : Host.Outcome State Fault Refusal :=
  .next (command .readSignalStrength (readSignalStrengthSteps s.params) s)

end Sys2Proof.Machine
end

