-- ==== Sys2Proof/Machine/Tuning.lean ====
section
/-! DEFINITION. SET_FRONTEND, the tuning engine (43_tuning.md). -/

namespace Sys2Proof.Machine

/-- TUNE.0 (R111): the state gate. -/
def tuneGate : M Unit := do
  atStep .setFrontend 0
  let s ← get
  if s.fsm = .active then pure () else raise .notInitialized

/-- TUNE.1 (R112): the bandwidth check, which gives the register code. -/
def tuneBandwidth (bw : U32) : M Byte := do
  atStep .setFrontend 1
  match bandwidthCode bw with
  | some code => pure code
  | none => raise .bandwidth

/-- TUNE.2 (R113). -/
def tuneSetParams (c : Cfg) : M Unit := do
  atStep .setFrontend 2
  onlyWhen c.hasSetParams tunerSetParams

/-- TUNE.6 (R117): the IF frequency, 0 when the tuner does not report one. -/
def tuneIf (c : Cfg) : M U32 :=
  if c.hasGetIf then tunerGetIf else pure 0#32

/-- TUNE.7 to TUNE.12 (R118 to R122): the control bytes of an IF frequency. These steps have no event and cannot fail. -/
def tuneControl (p : Params) (c : Cfg) (adc : U32) (raw : Int) : M (List Byte) := do
  atStep .setFrontend 7
  let folded := foldIf adc raw
  atStep .setFrontend 8
  let inverted := complementWord c.specInv folded
  let magnitude := ifMagnitude folded
  atStep .setFrontend 9
  let quotient := divide p.dividerVariant magnitude adc Config.freqCwFrac
  atStep .setFrontend 10
  let complemented := complementedWord inverted quotient
  atStep .setFrontend 11
  let w := halvedWord c.adcMult complemented
  atStep .setFrontend 12
  pure (controlBytes p.zeroIfTest raw folded w)

/-- TUNE.4 to TUNE.14 (R115 to R122), the bandwidth-dependent branch. -/
def tuneBranch (p : Params) (c : Cfg) (bw : U32) : M Unit := do
  atStep .setFrontend 4
  busWrite p.regs.coeff (lookupCoeff p c.clockHz bw)
  atStep .setFrontend 5
  let adc := lookupAdc p c.clockHz
  atStep .setFrontend 6
  let f ← tuneIf c
  let bytes ← tuneControl p c adc f.toInt
  atStep .setFrontend 13
  busWrite p.regs.freqCw bytes
  atStep .setFrontend 14
  modify fun s => { s with cachedBw := bw }

/-- TUNE.15 to TUNE.20 (R123), the bandwidth-independent writes. -/
def tuneTail (p : Params) (code : Byte) (freq : U32) : M (List Byte) := do
  atStep .setFrontend 15
  writeMasked p.regs.bw code 0x03#8
  atStep .setFrontend 16
  busWrite p.regs.latchA [0x00#8]
  atStep .setFrontend 17
  busWrite p.regs.latchB [0x00#8]
  atStep .setFrontend 18
  writeMasked p.regs.lockAcc 0x00#8 p.lockAccMask
  atStep .setFrontend 19
  busWrite p.regs.band [bandByte freq]
  atStep .setFrontend 20
  busWrite p.regs.run [p.runEnableValue]
  pure []

/-- TUNE.3 (R114): the branch is taken exactly when the bandwidth is not the cached one. -/
def tuneReprogram (p : Params) (c : Cfg) (bw : U32) : M Unit := do
  atStep .setFrontend 3
  let s ← get
  if bw = s.cachedBw then pure () else tuneBranch p c bw

/-- The steps of SET_FRONTEND (R110). -/
def tuneSteps (p : Params) (c : Cfg) (bw freq : U32) : M (List Byte) := do
  tuneGate
  let code ← tuneBandwidth bw
  tuneSetParams c
  tuneReprogram p c bw
  tuneTail p code freq

/-- Whether a SET_FRONTEND passes its checks and takes the branch (R110 to R114), so that it divides by the ADC frequency. -/
def tuneDivides (s : State) (bw : U32) : Bool :=
  s.fsm == .active && (bandwidthCode bw).isSome && bw != s.cachedBw

/-- SET_FRONTEND (R110). An ADC frequency of 0, which no legal table gives (10_state.md R30), stops it before its first
event where the branch would divide by it (93 U1, U3; log 11). -/
def execSetFrontend (bw freq : U32) (s : State) : Host.Outcome State Fault Refusal :=
  if tuneDivides s bw && lookupAdc s.params s.cfg.clockHz == 0#32 then .fault .divideByZero
  else .next (command .setFrontend (tuneSteps s.params s.cfg bw freq) s)

end Sys2Proof.Machine
end

