-- ==== Sys2Proof/Machine/Dispatch.lean ====
section
/-! DEFINITION. The meaning of every instruction: one arm per constructor. -/

namespace Sys2Proof.Machine

def exec (i : Instr) (s : State) : Host.Outcome State Fault Refusal :=
  match i with
  | .init => Sys2Proof.Machine.execInit s
  | .sleep => Sys2Proof.Machine.execSleep s
  | .setFrontend bw freq => Sys2Proof.Machine.execSetFrontend bw freq s
  | .getFrontend => Sys2Proof.Machine.execGetFrontend s
  | .readStatus => Sys2Proof.Machine.execReadStatus s
  | .readSnr => Sys2Proof.Machine.execReadSnr s
  | .readSignalStrength => Sys2Proof.Machine.execReadSignalStrength s
  | .readBer => Sys2Proof.Machine.execReadBer s
  | .readUcb => Sys2Proof.Machine.execReadUcb s
  | .setPidFilter idx pid en => Sys2Proof.Machine.execSetPidFilter idx pid en s
  | .setPidFilterEnabled en => Sys2Proof.Machine.execSetPidFilterEnabled en s
  | .i2cGateCtrl en => Sys2Proof.Machine.execI2cGateCtrl en s
  | .uopRegWrite addr bytes => Sys2Proof.Machine.execUopRegWrite addr bytes s
  | .uopRegRead addr n => Sys2Proof.Machine.execUopRegRead addr n s
  | .uopRegWriteMasked addr value mask => Sys2Proof.Machine.execUopRegWriteMasked addr value mask s
  | .uopRegReadMasked addr mask => Sys2Proof.Machine.execUopRegReadMasked addr mask s
  | .uopRegWriteTable entries => Sys2Proof.Machine.execUopRegWriteTable entries s
  | .uopFpDivide a b x => Sys2Proof.Machine.execUopFpDivide a b x s

end Sys2Proof.Machine
end

