-- ==== Sys2Proof/Machine/Fetch.lean ====
section
/-! DEFINITION. How the block takes its next instruction: a frame from the host port, or a micro-operation issue record. -/

namespace Sys2Proof.Machine

/-- The reason of an illegal frame (30_encoding.md R66; the empty frame: log 10). -/
def illegalReason : DecodeError → Reason
  | .empty => .operand
  | .opcode _ => .opcode
  | .length _ => .operand
  | .operand _ => .operand

/-- The opcode byte in the response to an illegal frame (30_encoding.md R67): byte 0; free for a frame without one. -/
def frameOpcode (f : List Byte) : Byte := f.headD Config.emptyFrameOpcode

/-- A frame taken from the host port: a legal one runs, an illegal one gets IllegalCommandError and changes nothing
else (30_encoding.md R66). -/
def serveFrame (f : List Byte) (s : State) : Host.Outcome State Fault Refusal :=
  match decodeFrame f with
  | .ok i => exec i s
  | .error e => .next (takeError (frameOpcode f) (illegalReason e) s)

/-- A micro-operation taken from the issue record (log 7). -/
def serveRecord (r : List Byte) (s : State) : Host.Outcome State Fault Refusal :=
  match decode r with
  | .ok i => if isMicroOp (opcodeOfInstr i) then exec i s else .refused .badIssueRecord
  | .error _ => .refused .badIssueRecord

/-- One step: the issue record if there is one; else, between commands, the next frame (60_exceptions.md R158, 70 R163).
With nothing to take, and while a command runs, the block stays as it is (log 15). -/
def fetchAndRun (s : State) : Host.Outcome State Fault Refusal :=
  match s.issue, s.seq, s.frames with
  | some r, _, _ => serveRecord r { s with issue := none }
  | none, .idle, f :: rest => serveFrame f { s with frames := rest }
  | none, .idle, [] => .next s
  | none, .running _ _, _ => .next s

/-- The state with the bytes of an instruction where the next step takes it: a micro-operation's in the issue record, any
other at the head of the frames, with the block between commands (log 14). -/
def placeBytes (bytes : List Byte) (s : State) : State :=
  if (opcodeOf (bytes.headD 0x00#8)).any isMicroOp then { s with issue := some bytes }
  else { s with frames := bytes :: s.frames, issue := none, seq := .idle }

end Sys2Proof.Machine
end

