-- ==== Sys2Proof/Machine/Assembler.lean ====
section
/-! DEFINITION. The textual form of a command (30_encoding.md R68): one line of text, as characters, to its frame. -/

namespace Sys2Proof.Machine

/-- What a line of a command program is. -/
inductive AsmLine where
  /-- nothing but spaces or a comment -/
  | blank
  /-- a command's frame -/
  | frame (bytes : List Byte)
  /-- refused: no mnemonic, a wrong number of operands, or an operand that does not fit its field -/
  | refused
deriving DecidableEq, Repr

/-- The mnemonic of a host command; the `UOP` mnemonics have no textual form (R68). -/
def mnemonicText : Opcode → Option (List Char)
  | .init => some ['I','N','I','T']
  | .sleep => some ['S','L','E','E','P']
  | .setFrontend => some ['S','E','T','_','F','R','O','N','T','E','N','D']
  | .getFrontend => some ['G','E','T','_','F','R','O','N','T','E','N','D']
  | .readStatus => some ['R','E','A','D','_','S','T','A','T','U','S']
  | .readSnr => some ['R','E','A','D','_','S','N','R']
  | .readSignalStrength =>
    some ['R','E','A','D','_','S','I','G','N','A','L','_','S','T','R','E','N','G','T','H']
  | .readBer => some ['R','E','A','D','_','B','E','R']
  | .readUcb => some ['R','E','A','D','_','U','C','B']
  | .setPidFilter => some ['S','E','T','_','P','I','D','_','F','I','L','T','E','R']
  | .setPidFilterEnabled =>
    some ['S','E','T','_','P','I','D','_','F','I','L','T','E','R','_','E','N','A','B','L','E','D']
  | .i2cGateCtrl => some ['I','2','C','_','G','A','T','E','_','C','T','R','L']
  | .uopRegWrite => none
  | .uopRegRead => none
  | .uopRegWriteMasked => none
  | .uopRegReadMasked => none
  | .uopRegWriteTable => none
  | .uopFpDivide => none

/-- A space or tab (DESIGN CHOICE, log 20). -/
def isBlank (c : Char) : Bool := c = ' ' || c = '\t'

/-- The text without blanks at its ends. -/
def trimText (t : List Char) : List Char :=
  ((t.dropWhile isBlank).reverse.dropWhile isBlank).reverse

/-- A decimal or hexadecimal digit's value. -/
def digitValue (c : Char) : Option Nat :=
  let n := c.toNat
  if 48 ≤ n ∧ n ≤ 57 then some (n - 48)
  else if 65 ≤ n ∧ n ≤ 70 then some (n - 55)
  else if 97 ≤ n ∧ n ≤ 102 then some (n - 87)
  else none

/-- Digits of a base, most significant first, onto the value so far. -/
def digitsValue (base : Nat) : Nat → List Char → Option Nat
  | acc, [] => some acc
  | acc, c :: cs =>
    match digitValue c with
    | some d => if d < base then digitsValue base (acc * base + d) cs else none
    | none => none

/-- A number: hexadecimal after `0x`, else decimal, at least one digit (R68). -/
def numberValue (t : List Char) : Option Nat :=
  match t with
  | '0' :: 'x' :: c :: cs => digitsValue 16 0 (c :: cs)
  | c :: cs => digitsValue 10 0 (c :: cs)
  | [] => none

/-- The pieces of a text between separators; a text with no separator is one piece. -/
def splitText (sep : Char) : List Char → List (List Char)
  | [] => [[]]
  | c :: cs =>
    if c = sep then [] :: splitText sep cs
    else
      match splitText sep cs with
      | p :: ps => (c :: p) :: ps
      | [] => [[c]]

/-- The operands of a line, none if one is no number. -/
def operandValues (t : List Char) : Option (List Nat) :=
  match trimText t with
  | [] => some []
  | u => (splitText ',' u).mapM fun piece => numberValue (trimText piece)

/-- `en` as an operand: 0 or 1. -/
def enableValue (n : Nat) : Option Bool :=
  if n = 0 then some false else if n = 1 then some true else none

/-- The command of a mnemonic and its operands in frame order; none where an operand does not fit its field (R68). -/
def assembleOperands (o : Opcode) (ns : List Nat) : Option Instr :=
  match o, ns with
  | .init, [] => some .init
  | .sleep, [] => some .sleep
  | .setFrontend, [bw, freq] =>
    if bw < 2 ^ 32 ∧ freq < 2 ^ 32 then some (.setFrontend (BitVec.ofNat 32 bw) (BitVec.ofNat 32 freq)) else none
  | .getFrontend, [] => some .getFrontend
  | .readStatus, [] => some .readStatus
  | .readSnr, [] => some .readSnr
  | .readSignalStrength, [] => some .readSignalStrength
  | .readBer, [] => some .readBer
  | .readUcb, [] => some .readUcb
  | .setPidFilter, [idx, pid, en] =>
    if idx < 2 ^ 8 ∧ pid < 2 ^ 16 then
      (enableValue en).map fun e => .setPidFilter (BitVec.ofNat 8 idx) (BitVec.ofNat 16 pid) e
    else none
  | .setPidFilterEnabled, [en] => (enableValue en).map .setPidFilterEnabled
  | .i2cGateCtrl, [en] => (enableValue en).map .i2cGateCtrl
  | _, _ => none

/-- The row a mnemonic names. -/
def mnemonicOpcode (t : List Char) : Option Opcode := allOpcodes.find? fun o => mnemonicText o == some t

/-- One line of a command program (R68): the mnemonic, its operands separated by commas, a comment after `;`. -/
def assembleLine (line : List Char) : AsmLine :=
  match trimText (line.takeWhile (· ≠ ';')) with
  | [] => .blank
  | t =>
    match mnemonicOpcode (t.takeWhile (fun c => !isBlank c)), operandValues (t.dropWhile (fun c => !isBlank c)) with
    | some o, some ns =>
      match assembleOperands o ns with
      | some i => .frame (encode i)
      | none => .refused
    | _, _ => .refused

end Sys2Proof.Machine
end

