-- ==== Sys2Proof/Machine/Construct.lean ====
section
/-! DEFINITION. Construction: the block from its parameters and construction arguments (70_reset_and_hazards.md R161). -/

namespace Sys2Proof.Machine

/-- The mode of a `ts_mode` encoding (10_state.md R14); none for the illegal 3. -/
def tsModeOf (b : BitVec 2) : Option TsMode :=
  if b = 0#2 then some .usb
  else if b = 1#2 then some .parallel
  else if b = 2#2 then some .serial
  else none

/-- The configuration the arguments give, for a legal mode (10_state.md R11). -/
def cfgOf (a : CfgArgs) (m : TsMode) : Cfg where
  clockHz := a.clockHz
  tuner := a.tuner
  tsMode := m
  specInv := a.specInv == 1#1
  adcMult := if a.adcMult = 1#1 then .x2 else .x1
  clkOut := a.clkOut == 1#1
  hasSetParams := a.hasSetParams == 1#1
  hasGetIf := a.hasGetIf == 1#1

/-- The state after construction (10_state.md R42), for any parameters, configuration and environment. -/
def constructed (p : Params) (c : Cfg) (e : Env) : State where
  params := p
  cfg := c
  fsm := .unconfigured
  seq := .idle
  cachedBw := 0#32
  tsParallel := c.tsMode == .parallel
  tsSerial := c.tsMode == .serial
  ber := 0#32
  ucb := 0#32
  lastStat := none
  trace := []
  frames := []
  responses := []
  issue := none
  uopResult := .none
  env := e

/-- `construct(c)` (R161): the clock check, then the mode check; a refused construction creates no block (log 17). -/
def construct (p : Params) (a : CfgArgs) (e : Env) : Except Reason State :=
  if a.clockHz ≠ p.supportedClockHz then .error .clock
  else
    match tsModeOf a.tsMode with
    | none => .error .tsMode
    | some m => .ok (constructed p (cfgOf a m) e)

end Sys2Proof.Machine
end

