-- ==== Sys2Proof/Safety.lean ====
section
/-! DEFINITION. The words claims are stated in: what a trace says, the writes a command plans, the machine's invariants. -/

namespace Sys2Proof.Machine

/-! ### What a trace says -/

/-- A write transaction of `n` bytes that the length check lets pass (20_memory.md R47). -/
abbrev BurstLegal (addr : Addr) (n : Nat) : Prop := 1 ≤ n ∧ n ≤ 64 ∧ addr.toNat + n ≤ 2 ^ 24

/-- A read transaction of `n` bytes that the length check lets pass (20_memory.md R48). -/
abbrev ReadLegal (addr : Addr) (n : Nat) : Prop := 1 ≤ n ∧ addr.toNat + n ≤ 2 ^ 24

/-- A legal event: a write transaction of 1 to 64 bytes inside the register space, a read inside it that returned as many
bytes as asked (20_memory.md R47, R48), a delay within its bounds (60_exceptions.md R155). -/
def EventOk : Event → Prop
  | .write addr bytes _ => BurstLegal addr bytes.length
  | .read addr n none => ReadLegal addr n
  | .read addr n (some bs) => ReadLegal addr n ∧ bs.length = n
  | .tunerSetParams => True
  | .tunerGetIf _ => True
  | .time _ => True
  | .delay us => Config.sleepDelayLo ≤ us ∧ us ≤ Config.sleepDelayHi

/-- A transaction the bus reported failed (60_exceptions.md R144). -/
def eventFailed : Event → Bool
  | .write _ _ ok => !ok
  | .read _ _ none => true
  | .read _ _ (some _) => false
  | .tunerSetParams => false
  | .tunerGetIf _ => false
  | .time _ => false
  | .delay _ => false

/-- A bus transaction, as against a tuner call, a time sample or a delay (00_scope.md R8). -/
def isTransaction : Event → Bool
  | .write _ _ _ => true
  | .read _ _ _ => true
  | .tunerSetParams => false
  | .tunerGetIf _ => false
  | .time _ => false
  | .delay _ => false

/-- The time samples of a trace, oldest first (60_exceptions.md R154). -/
def timesOf (tr : List Event) : List U64 :=
  tr.filterMap fun
    | .time t => some t
    | _ => none

/-- The byte an event delivers to a register: of a write that succeeded, and of nothing else (20_memory.md R47, R50). -/
def delivered (a : Nat) : Event → Option Byte
  | .write addr bytes true => if addr.toNat ≤ a then bytes[a - addr.toNat]? else none
  | _ => none

/-- The last byte the block delivered to register `a`; none if it delivered none. It is not the register's value, which
the chip may change at any time (20_memory.md R46; log 13). -/
def lastWritten (tr : List Event) (a : Nat) : Option Byte := tr.reverse.findSome? (delivered a)

/-! ### Values as the rules state them, apart from the functions of the machine that compute them -/

/-- The low `n` bytes of a number, least significant first (20_memory.md R51). -/
def lowBytes (n v : Nat) : List Byte := (List.range n).map fun k => BitVec.ofNat 8 (v / 2 ^ (8 * k))

/-- The first row of a table that matches, and the last row where none does. -/
def firstOrLast {α : Type} (found : α → Bool) (t : Rows α) : α :=
  (t.toList.find? found).getD (t.toList.getLastD t.first)

/-- The ADC frequency of a clock (10_state.md R31). -/
def adcFor (p : Params) (clock : U32) : U32 := (firstOrLast (fun r => r.clock == clock) p.clockAdc).adc

/-- The coefficient bytes of a clock and a bandwidth (10_state.md R33). -/
def coeffFor (p : Params) (clock bw : U32) : List Byte :=
  (firstOrLast (fun r => r.clock == clock && r.bw == bw) p.coeff).val

/-- The OFSM table of a tuner byte: the first that names it, and the rest's table for a byte none names (10_state.md R37). -/
def ofsmFor (p : Params) (tuner : Byte) : List RegValue :=
  ((p.ofsm.cases.find? fun r => r.1 == tuner).map (·.2)).getD p.ofsm.other

/-- The table of a tuner byte, none for an unrecognized one (10_state.md R38). -/
def tunerTableFor (p : Params) (tuner : Byte) : Option (List RegValue) :=
  (p.tunerTables.find? fun r => r.1 == tuner).map (·.2)

/-- A space or a tab, which part the words of a line (log 20). -/
def isSpaceOrTab (c : Char) : Bool := c = ' ' || c = '\t'

/-- The first word of a line of a command program, before any comment (30_encoding.md R68). -/
def firstWord (line : List Char) : List Char :=
  ((line.takeWhile (· ≠ ';')).dropWhile isSpaceOrTab).takeWhile fun c => !isSpaceOrTab c

/-- The value of a baseline entry: a fixed byte, the tuner byte, a transport-stream flag as 0 or 1, or the ADC multiplier
as 0 for 1x and 1 for 2x (10_state.md R16, R36). -/
def baselineValue (s : State) : ByteSource → Byte
  | .lit b => b
  | .tuner => s.cfg.tuner
  | .tsParallel => if s.tsParallel then 0x01#8 else 0x00#8
  | .tsSerial => if s.tsSerial then 0x01#8 else 0x00#8
  | .adcMult => if s.cfg.adcMult = .x2 then 0x01#8 else 0x00#8

/-! ### Planned writes: the register writes a sequence makes, before the bytes its masked writes read are known -/

/-- One planned write: a burst, or a masked write (40_register_access.md R80, R82). -/
inductive Planned where
  | burst (addr : Addr) (bytes : List Byte)
  | masked (addr : Addr) (value mask : Byte)
deriving DecidableEq, Repr

/-- The masked write of a table entry (40_register_access.md R85). -/
def plannedEntry (e : RegEntry) : Planned := .masked e.addr e.value e.mask

/-- A burst of a table (40_register_access.md R84). -/
def plannedBurst (g : Addr × List Byte) : Planned := .burst g.1 g.2

/-- The number of transactions a planned write issues. -/
def plannedCount : Planned → Nat
  | .burst _ _ => 1
  | .masked _ _ mask => if mask = 0xFF#8 then 1 else 2

/-- The number of transactions of a plan. -/
def planCount (plan : List Planned) : Nat := (plan.map plannedCount).sum

/-- A planned write passes the length check. -/
def plannedFits : Planned → Bool
  | .burst addr bytes => decide (BurstLegal addr bytes.length)
  | .masked _ _ _ => true

/-- The events of a plan whose transactions all succeed, the masked writes reading the bytes given, one each, in order. -/
def plannedEvents : List Planned → List Byte → List Event
  | [], _ => []
  | .burst addr bytes :: rest, reads => .write addr bytes true :: plannedEvents rest reads
  | .masked addr value mask :: rest, reads =>
    if mask = 0xFF#8 then .write addr [value] true :: plannedEvents rest reads
    else
      match reads with
      | cur :: reads' =>
        .read addr 1 (some [cur]) :: .write addr [mergeMasked cur value mask] true :: plannedEvents rest reads'
      | [] => []

/-- The number of bytes the masked writes of a plan read. -/
def planReads (plan : List Planned) : Nat :=
  (plan.map fun w => plannedCount w - 1).sum

/-- The writes of INIT.1 to INIT.7 (42_init_sleep.md R90 to R97). The control words of INIT.1 and INIT.3 are the quotients of
the clock and of its ADC frequency by 1000000 with 19 fractional bits, four bytes and three (R91, R93). -/
def initPlanChip (s : State) : List Planned :=
  let word (a : U32) : Nat := (divide s.params.dividerVariant a 1000000#32 19).toNat
  [.burst s.params.regs.clockCw (lowBytes 4 (word s.cfg.clockHz)),
   .burst s.params.regs.adcCw (lowBytes 3 (word (adcFor s.params s.cfg.clockHz)))] ++
  (s.params.baseline.map fun e => .masked e.addr (baselineValue s e.source) e.mask) ++
  (if s.cfg.clkOut then [.burst s.params.regs.clockOut [s.params.clockOutValue]] else []) ++
  (if s.cfg.tsMode = .usb then s.params.tsUsbWrites else s.params.tsDirectWrites).map plannedEntry ++
  (tableBursts (ofsmFor s.params s.cfg.tuner)).map plannedBurst

/-- The writes of INIT, in the order of R90, for a tuner whose table is `tt`. -/
def initPlan (s : State) (tt : List RegValue) : List Planned :=
  initPlanChip s ++ (tableBursts tt).map plannedBurst ++
  (if s.tsSerial then s.params.serialWrites.map plannedEntry else []) ++
  (if s.cfg.tuner ∈ s.params.activationTuners then [.burst s.params.regs.activation [s.params.activationValue]] else [])

/-- The writes of SLEEP.4 and SLEEP.5 (42_init_sleep.md R106, R107). -/
def sleepGatePlan (s : State) : List Planned :=
  .masked s.params.regs.pwrGate s.params.pwrGateMask s.params.pwrGateMask ::
  (if s.tsSerial then s.params.leakWrites.map plannedEntry else [])

/-- The bandwidth-independent writes of SET_FRONTEND (43_tuning.md R123). The band byte is 0x00 up to 230000000 Hz and 0x01
above (30_encoding.md R72). -/
def tunePlan (p : Params) (code : Byte) (freq : U32) : List Planned :=
  [.masked p.regs.bw code 0x03#8, .burst p.regs.latchA [0x00#8], .burst p.regs.latchB [0x00#8],
   .masked p.regs.lockAcc 0x00#8 p.lockAccMask,
   .burst p.regs.band [if freq.toNat ≤ 230000000 then 0x00#8 else 0x01#8],
   .burst p.regs.run [p.runEnableValue]]

/-- The events of polls that did not acknowledge, each followed by its delay (42_init_sleep.md R105). -/
def pollEvents (addr : Addr) : List Byte → List Nat → List Event
  | v :: vs, d :: ds => .read addr 1 (some [v]) :: .delay d :: pollEvents addr vs ds
  | _, _ => []

/-- The next `n` bus reports the environment has ready are all "complete". -/
def AcksReady (s : State) (n : Nat) : Prop := s.env.acks.take n = List.replicate n true

/-! ### Invariants -/

/-- Between commands: no command runs and no micro-operation waits (10_state.md R20, R41). -/
def Idle (s : State) : Prop := s.seq = .idle ∧ s.issue = none

/-- The transport-stream booleans are those of the configuration (10_state.md R23). -/
def TsFlagsOk (s : State) : Prop :=
  s.tsParallel = (s.cfg.tsMode == .parallel) ∧ s.tsSerial = (s.cfg.tsMode == .serial)

/-- `cached_bw` is the sentinel or an accepted bandwidth (10_state.md R22). -/
def CachedBwOk (s : State) : Prop := s.cachedBw = 0#32 ∨ (bandwidthCode s.cachedBw).isSome = true

/-- The time samples never decrease, the latest is `env.now` at most, and the statistics timestamp is one of them
(60_exceptions.md R154, 10_state.md R26). -/
def TimesOk (s : State) : Prop :=
  (timesOf s.trace).Pairwise (fun a b => a.toNat ≤ b.toNat) ∧
  (∀ t ∈ timesOf s.trace, t.toNat ≤ s.env.now.toNat) ∧
  (∀ t, s.lastStat = some t → t ∈ timesOf s.trace)

/-- Every event of the trace is legal (20_memory.md R47, R48, 60_exceptions.md R155). -/
def TraceOk (s : State) : Prop := ∀ e ∈ s.trace, EventOk e

/-- What holds in every state between commands. -/
structure BlockInv (s : State) : Prop where
  idle : Idle s
  tsFlags : TsFlagsOk s
  cachedBw : CachedBwOk s
  times : TimesOk s
  trace : TraceOk s

/-- The statistics registers of the state (10_state.md R24 to R26). -/
def statsOf (s : State) : U32 × U32 × Option U64 := (s.ber, s.ucb, s.lastStat)

/-- The fields no command writes (10_state.md R11, R23, R29) and those only the fetch and a micro-operation run by itself
write. -/
def Fixed (s t : State) : Prop :=
  t.params = s.params ∧ t.cfg = s.cfg ∧ t.tsParallel = s.tsParallel ∧ t.tsSerial = s.tsSerial

/-- The errors a host command can raise, as status and reason codes (60_exceptions.md R142). -/
def allowedErrors : Instr → List (Byte × Byte)
  | .init => [(0x01#8, 0x01#8), (0x02#8, 0x02#8), (0x02#8, 0x03#8), (0x04#8, 0x09#8)]
  | .sleep => [(0x02#8, 0x02#8), (0x02#8, 0x03#8), (0x03#8, 0x08#8)]
  | .setFrontend _ _ =>
    [(0x01#8, 0x05#8), (0x01#8, 0x04#8), (0x01#8, 0x01#8), (0x02#8, 0x02#8), (0x02#8, 0x03#8)]
  | .getFrontend => [(0x02#8, 0x03#8)]
  | .readStatus => [(0x02#8, 0x03#8)]
  | .readSnr => [(0x02#8, 0x03#8)]
  | .readSignalStrength => [(0x02#8, 0x03#8)]
  | .readBer => [(0x02#8, 0x03#8)]
  | .readUcb => [(0x02#8, 0x03#8)]
  | .setPidFilter _ _ _ => [(0x02#8, 0x02#8)]
  | .setPidFilterEnabled _ => [(0x02#8, 0x03#8), (0x02#8, 0x02#8)]
  | .i2cGateCtrl _ => [(0x02#8, 0x03#8), (0x02#8, 0x02#8)]
  | .uopRegWrite _ _ => [(0x01#8, 0x01#8), (0x02#8, 0x02#8)]
  | .uopRegRead _ _ => [(0x01#8, 0x01#8), (0x02#8, 0x03#8)]
  | .uopRegWriteMasked _ _ _ => [(0x02#8, 0x03#8), (0x02#8, 0x02#8)]
  | .uopRegReadMasked _ _ => [(0x02#8, 0x03#8)]
  | .uopRegWriteTable _ => [(0x01#8, 0x01#8), (0x02#8, 0x02#8)]
  | .uopFpDivide _ _ _ => []

end Sys2Proof.Machine
end

