-- ==== Sys2Proof/Certificates/Slice0/Obligations.lean ====
section
/-! DEFINITION. The statements for the provers. Rule numbers are those of spec/; "log n" is notes/assumptions/n.md. -/

open Sys2Proof Sys2Proof.Machine

/-! ### Encoding -/

/-- R63, R64, R65: every well-formed instruction decodes from its own bytes, and a host command's bytes are a legal frame.
The bytes of the `UOP` rows are the model's choice (log 7). -/
def Obligations.DecodeOfEncode : Prop :=
  ∀ i : Instr, i.WellFormed = true →
    decode (encode i) = .ok i ∧ (isMicroOp (opcodeOfInstr i) = false → decodeFrame (encode i) = .ok i)

/-- R69: a frame the port accepts is exactly the bytes of its command, is no micro-operation, and has the length its first
byte fixes: 9, 5, 2, 2 or 1. -/
def Obligations.AcceptedFrameIsItsCommand : Prop :=
  (∀ (f : List Byte) (i : Instr), decodeFrame f = .ok i →
    encode i = f ∧ isMicroOp (opcodeOfInstr i) = false ∧ f.length = frameLength (f.headD 0x00#8)) ∧
  (∀ op : Byte, frameLength op =
    if op = 0x03#8 then 9 else if op = 0x0A#8 then 5 else if op = 0x0B#8 ∨ op = 0x0C#8 then 2 else 1)

/-- Sanity: words written out from R64, R65 and the example of R68 decode to what they stand for. -/
def Obligations.SampleFramesDecode : Prop :=
  decodeFrame [0x01#8] = .ok .init ∧
  decodeFrame [0x03#8, 0x00#8, 0x12#8, 0x7A#8, 0x00#8, 0x80#8, 0x94#8, 0x73#8, 0x22#8] =
    .ok (.setFrontend 8000000#32 578000000#32) ∧
  decodeFrame [0x08#8] = .ok .readBer ∧
  decodeFrame [0x0A#8, 0x03#8, 0x00#8, 0x01#8, 0x01#8] = .ok (.setPidFilter 3#8 0x0100#16 true) ∧
  decodeFrame [0x0C#8, 0x00#8] = .ok (.i2cGateCtrl false)

/-- R66, R146: which frames are illegal, with which reason, and that one gets its response and nothing else; every
other frame is a command. -/
def Obligations.IllegalFramesOnlyAnswered : Prop :=
  ∀ (s : State) (op : Byte) (ops : List Byte) (rest : List (List Byte)),
    Idle s → s.frames = (op :: ops) :: rest →
    if op = 0x00#8 ∨ 0x0D#8 ≤ op then
      step s = .next { s with frames := rest, responses := s.responses ++ [[0x05#8, op, 0x00#8, 0x0A#8]] }
    else if ops.length + 1 ≠ frameLength op ∨
        ((op = 0x0A#8 ∨ op = 0x0B#8 ∨ op = 0x0C#8) ∧ 0x01#8 < ops.getLastD 0x00#8) then
      step s = .next { s with frames := rest, responses := s.responses ++ [[0x05#8, op, 0x00#8, 0x0B#8]] }
    else ∃ i, decodeFrame (op :: ops) = .ok i

/-- R68, R65: a line the assembler spells is a legal frame, the frame of its command, and that command is the one the line's
first word names; the example of R68 is spelled as R68 says, numbers may be hexadecimal, operands keep their order, and one
that does not fit its field is refused. What parts the words of a line is the model's choice (log 20). -/
def Obligations.AssembledLineIsLegalFrame : Prop :=
  (∀ (line : List Char) (f : List Byte), assembleLine line = .frame f →
    ∃ i, decodeFrame f = .ok i ∧ encode i = f ∧ (firstWord line, opcodeOfInstr i) ∈
      [(['I','N','I','T'], Opcode.init), (['S','L','E','E','P'], .sleep),
       (['S','E','T','_','F','R','O','N','T','E','N','D'], .setFrontend),
       (['G','E','T','_','F','R','O','N','T','E','N','D'], .getFrontend),
       (['R','E','A','D','_','S','T','A','T','U','S'], .readStatus), (['R','E','A','D','_','S','N','R'], .readSnr),
       (['R','E','A','D','_','S','I','G','N','A','L','_','S','T','R','E','N','G','T','H'], .readSignalStrength),
       (['R','E','A','D','_','B','E','R'], .readBer), (['R','E','A','D','_','U','C','B'], .readUcb),
       (['S','E','T','_','P','I','D','_','F','I','L','T','E','R'], .setPidFilter),
       (['S','E','T','_','P','I','D','_','F','I','L','T','E','R','_','E','N','A','B','L','E','D'], .setPidFilterEnabled),
       (['I','2','C','_','G','A','T','E','_','C','T','R','L'], .i2cGateCtrl)]) ∧
  assembleLine ['S','E','T','_','F','R','O','N','T','E','N','D',' ','8','0','0','0','0','0','0',',',' ',
      '5','7','8','0','0','0','0','0','0'] =
    .frame [0x03#8, 0x00#8, 0x12#8, 0x7A#8, 0x00#8, 0x80#8, 0x94#8, 0x73#8, 0x22#8] ∧
  assembleLine ['S','E','T','_','P','I','D','_','F','I','L','T','E','R',' ','2','5','5',',','0','x','1','0','0',',','1'] =
    .frame [0x0A#8, 0xFF#8, 0x00#8, 0x01#8, 0x01#8] ∧
  assembleLine ['S','E','T','_','P','I','D','_','F','I','L','T','E','R',' ','2','5','6',',','0','x','1','0','0',',','1'] =
    .refused

/-! ### The step -/

/-- A step between commands runs the command of the next frame; a step with a micro-operation record runs it (log 7). -/
def Obligations.StepRunsDecoded : Prop :=
  (∀ (s : State) (f : List Byte) (rest : List (List Byte)) (i : Instr),
    Idle s → s.frames = f :: rest → decodeFrame f = .ok i → step s = exec i { s with frames := rest }) ∧
  (∀ (s : State) (r : List Byte) (i : Instr),
    s.issue = some r → decode r = .ok i → isMicroOp (opcodeOfInstr i) = true → step s = exec i { s with issue := none })

/-- R158, R163: with no frame the block waits, and a frame waits while a command runs (log 15). -/
def Obligations.BlockWaits : Prop :=
  (∀ s : State, Idle s → s.frames = [] → step s = .next s) ∧
  (∀ (s : State) (op : Opcode) (k : Nat), s.issue = none → s.seq = .running op k → step s = .next s)

/-! ### Construction -/

/-- R161, R42: construction refuses an unsupported clock, then an illegal mode, and otherwise leaves exactly the state of
R42. What the environment has ready is any (log 4). -/
def Obligations.ConstructionChecksThenState : Prop :=
  ∀ (p : Params) (a : CfgArgs) (e : Env),
    (a.clockHz ≠ p.supportedClockHz → construct p a e = .error .clock) ∧
    (a.clockHz = p.supportedClockHz → a.tsMode = 3#2 → construct p a e = .error .tsMode) ∧
    (a.clockHz = p.supportedClockHz → a.tsMode ≠ 3#2 → ∃ s, construct p a e = .ok s ∧
      s.params = p ∧ s.env = e ∧
      s.cfg.clockHz = a.clockHz ∧ s.cfg.tuner = a.tuner ∧
      (s.cfg.tsMode = .usb ↔ a.tsMode = 0#2) ∧ (s.cfg.tsMode = .parallel ↔ a.tsMode = 1#2) ∧
      (s.cfg.tsMode = .serial ↔ a.tsMode = 2#2) ∧
      (s.cfg.specInv = true ↔ a.specInv = 1#1) ∧ (s.cfg.adcMult = .x2 ↔ a.adcMult = 1#1) ∧
      (s.cfg.clkOut = true ↔ a.clkOut = 1#1) ∧ (s.cfg.hasSetParams = true ↔ a.hasSetParams = 1#1) ∧
      (s.cfg.hasGetIf = true ↔ a.hasGetIf = 1#1) ∧
      s.fsm = .unconfigured ∧ s.seq = .idle ∧ s.cachedBw = 0#32 ∧
      (s.tsParallel = true ↔ a.tsMode = 1#2) ∧ (s.tsSerial = true ↔ a.tsMode = 2#2) ∧
      s.ber = 0#32 ∧ s.ucb = 0#32 ∧ s.lastStat = none ∧ s.trace = [])

/-- The reset state is construction with the parameter set TP and CFG-A of 95_test_vectors.md. That these two are taken is
the model's choice (log 2, 3). -/
def Obligations.ResetIsConstructed : Prop :=
  construct Config.tp ⟨12000000#32, 0x38#8, 0#2, 0#1, 0#1, 0#1, 1#1, 1#1⟩ Env.start = .ok State.reset

/-! ### Invariants -/

/-- What construction gives, and the reset state, meet the invariant. -/
def Obligations.ConstructionEstablishesInv : Prop :=
  (∀ (p : Params) (a : CfgArgs) (e : Env) (s : State), construct p a e = .ok s → BlockInv s) ∧ BlockInv State.reset

/-- R20, R22, R23, R26, R47, R48, R154, R155: every step keeps the invariant: between commands the pointer is IDLE, the
transport-stream flags are the configuration's, the cached bandwidth is the sentinel or a legal one, time samples never
decrease and the statistics timestamp is one of them, and every event is legal. -/
def Obligations.StepKeepsInv : Prop :=
  ∀ s t : State, BlockInv s → step s = .next t → BlockInv t

/-- R11, R23, R29: no instruction writes the configuration, the transport-stream flags or the parameters. -/
def Obligations.ConfigurationNeverWritten : Prop :=
  ∀ (i : Instr) (s t : State), exec i s = .next t → Fixed s t

/-- R24, R25, R26, R22: only the statistics commands write the statistics, and only INIT and SET_FRONTEND the cached
bandwidth. -/
def Obligations.OnlyTheirCommandsWrite : Prop :=
  ∀ (i : Instr) (s t : State), exec i s = .next t →
    (opcodeOfInstr i ≠ .readBer → opcodeOfInstr i ≠ .readUcb → statsOf t = statsOf s) ∧
    (opcodeOfInstr i ≠ .init → opcodeOfInstr i ≠ .setFrontend → t.cachedBw = s.cachedBw)

/-- R135: an instruction leaves the uncorrected-block count or adds one refresh's abort count to it, modulo 2^32; none
resets it. -/
def Obligations.UcbAccumulates : Prop :=
  ∀ (i : Instr) (s t : State), exec i s = .next t →
    t.ucb = s.ucb ∨ ∃ n : Nat, n < 2 ^ 16 ∧ t.ucb = s.ucb + BitVec.ofNat 32 n

/-- The table of R109, which the spec marks as derived from R90, R102, R103, R108 and R151: the control state changes only
so. That a successful SLEEP leaves UNCONFIGURED, as the table says and a sentence of R108 does not, is the model's choice
(log 22). -/
def Obligations.ControlStateTable : Prop :=
  (∀ (i : Instr) (s t : State), isMicroOp (opcodeOfInstr i) = false → exec i s = .next t →
    ∃ r : List Byte, t.responses = s.responses ++ [r] ∧
      (i = .init → t.fsm = if r.head? = some 0x00#8 then .active else .unconfigured) ∧
      (i = .sleep → t.fsm = if r.head? = some 0x00#8 then .asleep else .unconfigured) ∧
      (i ≠ .init → i ≠ .sleep → t.fsm = s.fsm) ∧
      (opcodeOfInstr i = .setFrontend → s.fsm ≠ .active → r = [0x01#8, 0x03#8, 0x00#8, 0x05#8])) ∧
  (∀ (s t : State) (f : List Byte) (rest : List (List Byte)) (e : DecodeError),
    Idle s → s.frames = f :: rest → decodeFrame f = .error e → step s = .next t → t.fsm = s.fsm)

/-- R8, R20, R67, R145: a host command leaves the pointer IDLE, gives exactly one response, keeps every event that was
there, and touches no waiting frame. -/
def Obligations.CommandAnswersOnce : Prop :=
  ∀ (i : Instr) (s t : State), isMicroOp (opcodeOfInstr i) = false → exec i s = .next t →
    t.seq = .idle ∧ (∃ r, t.responses = s.responses ++ [r]) ∧ s.trace <+: t.trace ∧
    t.frames = s.frames ∧ t.issue = s.issue ∧ t.uopResult = s.uopResult

/-- The table of R142, which the spec marks as derived from the command rules: the response of a host command is status OK,
or names an error the command can raise, with the command's own opcode (R143); where every named burst fits below 2^24
(R56). -/
def Obligations.ErrorsOfEachCommand : Prop :=
  ∀ (i : Instr) (s t : State), isMicroOp (opcodeOfInstr i) = false → s.params.regs.fits s.params.nCoeff = true →
    exec i s = .next t →
    ∃ r, t.responses = s.responses ++ [r] ∧
      (r.head? = some 0x00#8 ∨ ∃ st k re, r = [st, opcodeByte (opcodeOfInstr i), k, re] ∧ (st, re) ∈ allowedErrors i)

/-- R144, R147: a host command's response has status TRANSPORT exactly when the last event it appended is a failed
transaction, and no event before the last is one: nothing is retried and nothing follows a failure. -/
def Obligations.FailedTransactionIsLast : Prop :=
  ∀ (i : Instr) (s t : State), isMicroOp (opcodeOfInstr i) = false → exec i s = .next t →
    ∃ es r, t.trace = s.trace ++ es ∧ t.responses = s.responses ++ [r] ∧
      (∀ e ∈ es.dropLast, eventFailed e = false) ∧
      (r.head? = some 0x02#8 ↔ ∃ e, es.getLast? = some e ∧ eventFailed e = true)

/-- R143, R145: raising an error while a command runs. -/
def Obligations.RaisingAnError : Prop :=
  ∀ (s : State) (o : Opcode) (k : Nat) (op : Byte) (r : Reason), s.seq = .running o k →
    takeError op r s =
      { s with
        fsm := if o = .init ∨ o = .sleep then .unconfigured else s.fsm
        seq := .idle
        responses := s.responses ++ [[statusByte (statusOf r), opcodeByte o, BitVec.ofNat 8 k, reasonByte r]] }

/-! ### INIT and SLEEP -/

/-- R90 to R101, R31, R36 to R40: INIT of a supported tuner, with every burst legal and every transaction reported complete,
makes the writes of `initPlan` in order (the control words and the table choices are written out there), invalidates the cached bandwidth and leaves ACTIVE; nothing else of the state changes. -/
def Obligations.InitCompletes : Prop :=
  ∀ (s : State) (tt : List RegValue), tunerTableFor s.params s.cfg.tuner = some tt →
    (∀ w ∈ initPlan s tt, plannedFits w = true) → AcksReady s (planCount (initPlan s tt)) →
    ∃ reads e, reads.length = planReads (initPlan s tt) ∧
      exec .init s = .next { s with
        fsm := .active, seq := .idle, cachedBw := 0#32, env := e
        trace := s.trace ++ plannedEvents (initPlan s tt) reads
        responses := s.responses ++ [[0x00#8]] }

/-- R97, R98: INIT of an unrecognized tuner makes the writes of INIT.1 to INIT.7 and no other, and answers
UnsupportedDeviceError at step 8. -/
def Obligations.InitUnsupportedTuner : Prop :=
  ∀ s : State, (∀ r ∈ s.params.tunerTables, r.1 ≠ s.cfg.tuner) →
    (∀ w ∈ initPlanChip s, plannedFits w = true) → AcksReady s (planCount (initPlanChip s)) →
    ∃ reads e, reads.length = planReads (initPlanChip s) ∧
      exec .init s = .next { s with
        fsm := .unconfigured, seq := .idle, env := e
        trace := s.trace ++ plannedEvents (initPlanChip s) reads
        responses := s.responses ++ [[0x04#8, 0x01#8, 0x08#8, 0x09#8]] }

/-- R102, R108: an INIT or SLEEP that raises leaves UNCONFIGURED and IDLE, and the cached bandwidth as it was. -/
def Obligations.FailedInitOrSleepUnconfigures : Prop :=
  ∀ (i : Instr) (s t : State) (r : List Byte), i = .init ∨ i = .sleep → exec i s = .next t →
    t.responses = s.responses ++ [r] → r.head? ≠ some 0x00#8 →
    t.fsm = .unconfigured ∧ t.seq = .idle ∧ t.cachedBw = s.cachedBw ∧ r.length = 4

/-- R103 to R107: SLEEP acknowledged on poll n + 1 after n polls that were not: n + 1 reads with n delays between them,
then the power-gating bit and the leakage writes; ASLEEP from every control state (from UNCONFIGURED: the model's choice,
log 22), and nothing else of the state changes. -/
def Obligations.SleepCompletes : Prop :=
  ∀ (s : State) (vs rest : List Byte), vs.length < 100 →
    (vs.length + 1 < 100 ∨ s.params.sleepLastPollOk = true) → (∀ v ∈ vs, v ≠ 0x00#8) →
    s.env.bytes = vs ++ 0x00#8 :: rest → AcksReady s (3 + vs.length + planCount (sleepGatePlan s)) →
    ∃ ds reads e, ds.length = vs.length ∧ (∀ d ∈ ds, 200 ≤ d ∧ d ≤ 10000) ∧
      reads.length = planReads (sleepGatePlan s) ∧
      exec .sleep s = .next { s with
        fsm := .asleep, seq := .idle, env := e
        trace := s.trace ++
          [.write s.params.regs.stopReq [s.params.stopReqValue] true,
           .write s.params.regs.run [s.params.runDisableValue] true] ++
          pollEvents s.params.regs.sleepAck vs ds ++ [.read s.params.regs.sleepAck 1 (some [0x00#8])] ++
          plannedEvents (sleepGatePlan s) reads
        responses := s.responses ++ [[0x00#8]] }

/-- R105, R108: 100 polls with no acknowledgment, or one on poll 100 where SLEEP_LAST_POLL_OK is false (R103): 100 reads with 99 delays between them, no power-gating write, and
TimeoutError at step 3. -/
def Obligations.SleepTimesOut : Prop :=
  ∀ (s : State) (vs rest : List Byte) (v : Byte), vs.length = 99 → (∀ u ∈ vs, u ≠ 0x00#8) →
    (v ≠ 0x00#8 ∨ s.params.sleepLastPollOk = false) →
    s.env.bytes = vs ++ v :: rest → AcksReady s 102 →
    ∃ ds e, ds.length = 99 ∧ (∀ d ∈ ds, 200 ≤ d ∧ d ≤ 10000) ∧
      exec .sleep s = .next { s with
        fsm := .unconfigured, seq := .idle, env := e
        trace := s.trace ++
          [.write s.params.regs.stopReq [s.params.stopReqValue] true,
           .write s.params.regs.run [s.params.runDisableValue] true] ++
          pollEvents s.params.regs.sleepAck vs ds ++ [.read s.params.regs.sleepAck 1 (some [v])]
        responses := s.responses ++ [[0x03#8, 0x02#8, 0x03#8, 0x08#8]] }

/-! ### SET_FRONTEND -/

/-- R111: not ACTIVE. -/
def Obligations.TuneRefusedUnlessActive : Prop :=
  ∀ (s : State) (bw freq : U32), s.fsm ≠ .active →
    exec (.setFrontend bw freq) s =
      .next { s with seq := .idle, responses := s.responses ++ [[0x01#8, 0x03#8, 0x00#8, 0x05#8]] }

/-- R112: every bandwidth but the three. -/
def Obligations.TuneRefusesOtherBandwidths : Prop :=
  ∀ (s : State) (bw freq : U32), s.fsm = .active → bw ≠ 6000000#32 → bw ≠ 7000000#32 → bw ≠ 8000000#32 →
    exec (.setFrontend bw freq) s =
      .next { s with seq := .idle, responses := s.responses ++ [[0x01#8, 0x03#8, 0x01#8, 0x04#8]] }

/-- R113, R114, R123: at the cached bandwidth, the tuner call and the tail of bandwidth-independent writes (`tunePlan`, with the
band byte of R72 written out), and no other event or state change. -/
def Obligations.TuneAtCachedBandwidth : Prop :=
  ∀ (s : State) (bw freq : U32) (code : Byte), s.fsm = .active → bw = s.cachedBw →
    (bw, code) ∈ [(6000000#32, 0x00#8), (7000000#32, 0x01#8), (8000000#32, 0x02#8)] →
    AcksReady s (planCount (tunePlan s.params code freq)) →
    ∃ reads e, reads.length = planReads (tunePlan s.params code freq) ∧
      exec (.setFrontend bw freq) s = .next { s with
        seq := .idle, env := e
        trace := s.trace ++ (if s.cfg.hasSetParams then [.tunerSetParams] else []) ++
          plannedEvents (tunePlan s.params code freq) reads
        responses := s.responses ++ [[0x00#8]] }

/-- R110, R113 to R123, R31, R33: at another bandwidth, the coefficients and the frequency control word are written first, the
coefficients and the ADC frequency are those of the first row that matches or of the last row, the IF frequency is the
tuner's or 0, and the cached bandwidth becomes the requested one; nothing else changes. -/
def Obligations.TuneAtNewBandwidth : Prop :=
  ∀ (s : State) (bw freq : U32) (code : Byte), s.fsm = .active → bw ≠ s.cachedBw →
    (bw, code) ∈ [(6000000#32, 0x00#8), (7000000#32, 0x01#8), (8000000#32, 0x02#8)] →
    adcFor s.params s.cfg.clockHz ≠ 0#32 →
    BurstLegal s.params.regs.coeff (coeffFor s.params s.cfg.clockHz bw).length →
    BurstLegal s.params.regs.freqCw 3 →
    AcksReady s (2 + planCount (tunePlan s.params code freq)) →
    ∃ reads e, reads.length = planReads (tunePlan s.params code freq) ∧
      exec (.setFrontend bw freq) s = .next { s with
        seq := .idle, env := e, cachedBw := bw
        trace := s.trace ++ (if s.cfg.hasSetParams then [.tunerSetParams] else []) ++
          [.write s.params.regs.coeff (coeffFor s.params s.cfg.clockHz bw) true] ++
          (if s.cfg.hasGetIf then [.tunerGetIf (drawIf s.env).1] else []) ++
          [.write s.params.regs.freqCw
            (freqControlBytes s.params s.cfg (adcFor s.params s.cfg.clockHz)
              (if s.cfg.hasGetIf then (drawIf s.env).1.toInt else 0)) true] ++
          plannedEvents (tunePlan s.params code freq) reads
        responses := s.responses ++ [[0x00#8]] }

/-- R120, R124: where a SET_FRONTEND raises says what the cached bandwidth is after it: as it was up to TUNE.13, the
requested one from TUNE.15 on. It stays ACTIVE. -/
def Obligations.FailedTuneCachedBandwidth : Prop :=
  ∀ (s t : State) (bw freq : U32) (st op k re : Byte), s.fsm = .active → exec (.setFrontend bw freq) s = .next t →
    t.responses = s.responses ++ [[st, op, k, re]] →
    t.fsm = .active ∧ (k ≤ 13#8 → t.cachedBw = s.cachedBw) ∧ (15#8 ≤ k → t.cachedBw = bw)

/-- The counts of R125, which the spec marks as derived from R110: the events of an accepted SET_FRONTEND with no error. -/
def Obligations.TuneEventCounts : Prop :=
  ∀ (s t : State) (bw freq : U32), s.fsm = .active → exec (.setFrontend bw freq) s = .next t →
    t.responses = s.responses ++ [[0x00#8]] →
    ∃ es, t.trace = s.trace ++ es ∧
      (es.filter isTransaction).length =
        7 + (if s.params.lockAccMask = 0xFF#8 then 0 else 1) + (if bw = s.cachedBw then 0 else 2) ∧
      es.count .tunerSetParams = (if s.cfg.hasSetParams then 1 else 0) ∧
      (es.filter fun e => match e with | .tunerGetIf _ => true | _ => false).length =
        (if bw ≠ s.cachedBw ∧ s.cfg.hasGetIf = true then 1 else 0)

/-- An ADC frequency of 0, which R30 forbids, stops a SET_FRONTEND that would divide by it, and nothing else does. That it
stops before its first event is the model's choice (log 11). -/
def Obligations.TuneStopsOnlyOnZeroAdc : Prop :=
  ∀ (s : State) (bw freq : U32),
    (s.fsm = .active → bw ∈ [6000000#32, 7000000#32, 8000000#32] → bw ≠ s.cachedBw →
      adcFor s.params s.cfg.clockHz = 0#32 → exec (.setFrontend bw freq) s = .fault .divideByZero) ∧
    (adcFor s.params s.cfg.clockHz ≠ 0#32 → ∃ t, exec (.setFrontend bw freq) s = .next t)

/-- R118: the fold. -/
def Obligations.FoldedIf : Prop :=
  ∀ (adc : U32) (f : Int), adc ≠ 0#32 →
    foldIf adc f ≤ ((adc.toNat / 2 : Nat) : Int) ∧
    (f ≤ ((adc.toNat / 2 : Nat) : Int) → foldIf adc f = f) ∧
    (((adc.toNat / 2 : Nat) : Int) < f → ((adc.toNat / 2 : Nat) : Int) - adc.toNat < foldIf adc f) ∧
    (∃ k : Nat, foldIf adc f = f - k * adc.toNat)

/-- R119 to R122: the three bytes of the frequency control word, from the folded IF g, for every s32 the tuner can report. -/
def Obligations.FrequencyControlBytes : Prop :=
  ∀ (p : Params) (c : Cfg) (adc : U32) (f g : Int), adc ≠ 0#32 → -2 ^ 31 ≤ f → f < 2 ^ 31 → g = foldIf adc f →
    ∃ w : U32,
      w = (let q := divide p.dividerVariant (BitVec.ofNat 32 g.natAbs) adc 23
           let v := if (c.specInv ^^ decide (0 ≤ g)) = true then 0x800000#32 - q else q
           if c.adcMult = .x2 then BitVec.ofNat 32 (v.toNat / 2) else v) ∧
      freqControlBytes p c adc f =
        [BitVec.ofNat 8 w.toNat, BitVec.ofNat 8 (w.toNat / 2 ^ 8),
         if p.zeroIfTest = .folded ∧ g = 0 ∨ p.zeroIfTest = .raw ∧ f = 0 then 0x00#8 else BitVec.ofNat 8 (w.toNat / 2 ^ 16)]

/-- R122: the folded IF is 0 exactly for a non-negative multiple of the ADC frequency. -/
def Obligations.FoldedIfZero : Prop :=
  ∀ (adc : U32) (f : Int), adc ≠ 0#32 → (foldIf adc f = 0 ↔ 0 ≤ f ∧ (adc.toNat : Int) ∣ f)

/-! ### The divider -/

/-- The closed form of R87, which the spec marks as derived from R86: the reference loop's result, and how far below the exact
floor it lies. -/
def Obligations.DividerClosedForm : Prop :=
  ∀ (a b : U32) (x : Nat), a.toNat < 2 ^ 31 → 0 < b.toNat → b.toNat < 2 ^ 31 → x ≤ 31 →
    let c := if b.toNat < a.toNat then a.toNat / b.toNat else 0
    let a' := a.toNat - c * b.toNat
    (divide .referenceLoop a b x).toNat =
      (if x = 0 then c % 2 ^ 32 else (c * 2 ^ x + 2 * (a' * 2 ^ (x - 1) / b.toNat)) % 2 ^ 32) ∧
    (1 ≤ x → a.toNat * 2 ^ x / b.toNat < 2 ^ 32 →
      (divide .referenceLoop a b x).toNat ≤ a.toNat * 2 ^ x / b.toNat ∧
      a.toNat * 2 ^ x / b.toNat ≤ (divide .referenceLoop a b x).toNat + 1)

/-- R86, R88: UOP_FP_DIVIDE faults on the divisor 0; on every other it returns the quotient of the variant and changes
nothing else (where the value goes: log 9). -/
def Obligations.FpDivideCompletes : Prop :=
  ∀ (s : State) (a b : U32) (x : BitVec 5),
    (b = 0#32 → exec (.uopFpDivide a b x) s = .fault .divideByZero) ∧
    (b ≠ 0#32 → exec (.uopFpDivide a b x) s =
      .next { s with uopResult := .word (divide s.params.dividerVariant a b x.toNat) }) ∧
    (b ≠ 0#32 → divide .exactFloor a b x.toNat = BitVec.ofNat 32 (a.toNat * 2 ^ x.toNat / b.toNat))

/-! ### Status reads -/

/-- R126: GET_FRONTEND reads the eight status bytes in one burst and returns their decode. -/
def Obligations.GetFrontendCompletes : Prop :=
  ∀ s : State, ReadLegal s.params.regs.tpsStatus 8 → (drawAck s.env).1 = true →
    exec .getFrontend s = .next { s with
      seq := .idle, env := (drawBytes 8 (drawAck s.env).2).2
      trace := s.trace ++ [.read s.params.regs.tpsStatus 8 (some (drawBytes 8 (drawAck s.env).2).1)]
      responses := s.responses ++
        [0x00#8 :: encodeChannelStatus (decodeStatus (drawBytes 8 (drawAck s.env).2).1)] }

/-- R67, R74, R127: each result byte of GET_FRONTEND is the field's bits, or 0xFF where they have no code. -/
def Obligations.ChannelStatusBytes : Prop :=
  ∀ s0 s1 s2 s3 s4 s5 s6 s7 : Byte,
    encodeChannelStatus (decodeStatus [s0, s1, s2, s3, s4, s5, s6, s7]) =
      [if s0 &&& 0x03#8 < 2#8 then s0 &&& 0x03#8 else 0xFF#8,
       s1 &&& 0x03#8,
       if s2 &&& 0x07#8 < 4#8 then s2 &&& 0x07#8 else 0xFF#8,
       if s3 &&& 0x03#8 < 3#8 then s3 &&& 0x03#8 else 0xFF#8,
       if s4 &&& 0x03#8 < 3#8 then s4 &&& 0x03#8 else 0xFF#8,
       if s6 &&& 0x07#8 < 6#8 then s6 &&& 0x07#8 else 0xFF#8,
       if s7 &&& 0x07#8 < 6#8 then s7 &&& 0x07#8 else 0xFF#8]

/-- R129, R27: READ_STATUS. "No signal" ends after one read with no flag; otherwise both lock bits are read, and full lock
gives all five flags, else TPS lock the lower three, else "has signal" the first. -/
def Obligations.ReadStatusCompletes : Prop :=
  (∀ (s : State) (rest : List Byte), s.env.bytes = 0x02#8 :: rest → AcksReady s 1 →
    ∃ e, exec .readStatus s = .next { s with
      seq := .idle, env := e
      trace := s.trace ++ [.read s.params.regs.rcs 1 (some [0x02#8])]
      responses := s.responses ++ [[0x00#8, 0x00#8]] }) ∧
  (∀ (s : State) (rcs t l : Byte) (rest : List Byte), rcs ≠ 0x02#8 → s.env.bytes = rcs :: t :: l :: rest →
    AcksReady s 3 →
    ∃ e, exec .readStatus s = .next { s with
      seq := .idle, env := e
      trace := s.trace ++ [.read s.params.regs.rcs 1 (some [rcs]), .read s.params.regs.tpsLock 1 (some [t]),
        .read s.params.regs.fullLock 1 (some [l])]
      responses := s.responses ++
        [[0x00#8,
          if l &&& s.params.fullLockMask ≠ 0x00#8 then 0x1F#8
          else if t &&& s.params.tpsLockMask ≠ 0x00#8 then 0x07#8
          else if rcs = 0x01#8 then 0x01#8 else 0x00#8]] })

/-- R130, R76: READ_SNR. Modulation code 3 gives "not present"; any other the `snr` of the curve's first row above the raw
value, or of its last row, scaled, modulo 2^16. -/
def Obligations.ReadSnrCompletes : Prop :=
  ∀ (s : State) (b0 b1 b2 m : Byte) (rest : List Byte), ReadLegal s.params.regs.snrValue 3 →
    s.env.bytes = b0 :: b1 :: b2 :: m :: rest → AcksReady s 2 →
    ∃ e, exec .readSnr s = .next { s with
      seq := .idle, env := e
      trace := s.trace ++ [.read s.params.regs.snrValue 3 (some [b0, b1, b2]), .read s.params.regs.snrMod 1 (some [m])]
      responses := s.responses ++
        [0x00#8 ::
          (let raw := b0.toNat + 256 * b1.toNat + 65536 * b2.toNat
           let snr := fun t : Rows SnrRow =>
             ((t.toList.find? fun r => decide (raw < r.val.toNat)).getD (t.toList.getLastD t.first)).snr
           if m &&& 0x03#8 = 0x03#8 then [0x00#8, 0x00#8, 0x00#8]
           else
             let t := if m &&& 0x03#8 = 0x00#8 then s.params.snrQpsk
               else if m &&& 0x03#8 = 0x01#8 then s.params.snrQam16 else s.params.snrQam64
             0x01#8 :: lowBytes 2 ((snr t).toNat * s.params.snrScale))] }

/-- R131: READ_SIGNAL_STRENGTH. -/
def Obligations.ReadSignalStrengthCompletes : Prop :=
  ∀ (s : State) (p : Byte) (rest : List Byte), s.env.bytes = p :: rest → AcksReady s 1 →
    ∃ e, exec .readSignalStrength s = .next { s with
      seq := .idle, env := e
      trace := s.trace ++ [.read s.params.regs.strength 1 (some [p])]
      responses := s.responses ++
        [[0x00#8, BitVec.ofNat 8 (p.toNat * 0xFFFF / 100 % 256), BitVec.ofNat 8 (p.toNat * 0xFFFF / 100 / 256 % 256)]] }

/-- R126, R129, R130, R131, R143: the four status reads when their first read fails: TransportError at step 1, one event,
no result and no state change. -/
def Obligations.StatusReadFails : Prop :=
  ∀ (s : State) (i : Instr) (addr : Addr) (n : Nat),
    (i, addr, n) ∈ [(Instr.getFrontend, s.params.regs.tpsStatus, 8), (Instr.readStatus, s.params.regs.rcs, 1),
      (Instr.readSnr, s.params.regs.snrValue, 3), (Instr.readSignalStrength, s.params.regs.strength, 1)] →
    ReadLegal addr n → (drawAck s.env).1 = false →
    exec i s = .next { s with
      seq := .idle, env := (drawAck s.env).2
      trace := s.trace ++ [.read addr n none]
      responses := s.responses ++ [[0x02#8, opcodeByte (opcodeOfInstr i), 0x01#8, 0x03#8]] }

/-! ### Statistics -/

/-- R133, R134: the bit-error rate of a sample, every intermediate value modulo 2^32, and the abort count it adds. -/
def Obligations.BerArithmetic : Prop :=
  ∀ k : Counts,
    ((berOf k).toNat =
      if k.total.toNat ≤ k.abort.toNat then 0xFFFFFFFF
      else
        let bits := (k.total.toNat - k.abort.toNat) * 64
        ((k.err.toNat + 2 ^ 32 - k.abort.toNat * 64) % 2 ^ 32 * (0xFFFFFFFF / bits)) % 2 ^ 32) ∧
    (abortOf k).toNat = (if k.total.toNat < k.abort.toNat then 1000 else k.abort.toNat)

/-- R132, R133, R136, R137: a statistics command with no earlier refresh, or at least 500 ms after it, reads the seven
counter bytes in one burst and updates all three statistics from them; READ_BER returns the one, READ_UCB the other. -/
def Obligations.StatisticsRefresh : Prop :=
  ∀ (s : State) (t : U64) (t0 t1 t2 t3 t4 t5 t6 : Byte) (rest : List Byte),
    t = laterOf s.env.now (drawTime s.env).1 →
    (s.lastStat = none ∨ ∃ t', s.lastStat = some t' ∧ t'.toNat + 500 ≤ t.toNat) →
    ReadLegal s.params.regs.stat 7 → AcksReady s 1 →
    s.env.bytes = t0 :: t1 :: t2 :: t3 :: t4 :: t5 :: t6 :: rest →
    let k : Counts := ⟨t1 ++ t0, t4 ++ t3 ++ t2, t6 ++ t5⟩
    (∃ e, exec .readBer s = .next { s with
      seq := .idle, env := e, ber := berOf k, ucb := s.ucb + abortOf k, lastStat := some t
      trace := s.trace ++ [.time t, .read s.params.regs.stat 7 (some [t0, t1, t2, t3, t4, t5, t6])]
      responses := s.responses ++ [0x00#8 :: lowBytes 4 (berOf k).toNat] }) ∧
    (∃ e, exec .readUcb s = .next { s with
      seq := .idle, env := e, ber := berOf k, ucb := s.ucb + abortOf k, lastStat := some t
      trace := s.trace ++ [.time t, .read s.params.regs.stat 7 (some [t0, t1, t2, t3, t4, t5, t6])]
      responses := s.responses ++ [0x00#8 :: lowBytes 4 (s.ucb + abortOf k).toNat] })

/-- R132: less than 500 ms after the last refresh the stored value is returned, with one time sample and no bus
transaction, and nothing else changes. -/
def Obligations.StatisticsThrottled : Prop :=
  ∀ (s : State) (t t' : U64), t = laterOf s.env.now (drawTime s.env).1 →
    s.lastStat = some t' → t.toNat < t'.toNat + 500 →
    (∃ e, exec .readBer s = .next { s with
      seq := .idle, env := e
      trace := s.trace ++ [.time t]
      responses := s.responses ++ [0x00#8 :: lowBytes 4 s.ber.toNat] }) ∧
    (∃ e, exec .readUcb s = .next { s with
      seq := .idle, env := e
      trace := s.trace ++ [.time t]
      responses := s.responses ++ [0x00#8 :: lowBytes 4 s.ucb.toNat] })

/-- R133: a refresh whose read fails writes none of the three statistics. -/
def Obligations.FailedRefreshWritesNothing : Prop :=
  ∀ (i : Instr) (s t : State) (r : List Byte), i = .readBer ∨ i = .readUcb → exec i s = .next t →
    t.responses = s.responses ++ [r] → r.head? ≠ some 0x00#8 → statsOf t = statsOf s

/-! ### PID filter and I2C gate -/

/-- R138: SET_PID_FILTER. Above 13 bits nothing is issued; else the value, the on/off byte and the index, in that
order. -/
def Obligations.SetPidFilterCompletes : Prop :=
  ∀ (s : State) (idx : Byte) (pid : U16) (en : Bool),
    (0x1FFF < pid.toNat → exec (.setPidFilter idx pid en) s =
      .next { s with seq := .idle, responses := s.responses ++ [[0x00#8]] }) ∧
    (pid.toNat ≤ 0x1FFF → BurstLegal s.params.regs.pidValue 2 → AcksReady s 3 →
      ∃ e, exec (.setPidFilter idx pid en) s = .next { s with
        seq := .idle, env := e
        trace := s.trace ++
          [.write s.params.regs.pidValue [BitVec.ofNat 8 (pid.toNat % 256), BitVec.ofNat 8 (pid.toNat / 256)] true,
           .write s.params.regs.pidOnoff [if en then 0x01#8 else 0x00#8] true,
           .write s.params.regs.pidIndex [idx] true]
        responses := s.responses ++ [[0x00#8]] })

/-- R139, R140: SET_PID_FILTER_ENABLED and I2C_GATE_CTRL replace bit 0 of their register and write the other seven back as
read. -/
def Obligations.EnableBitCompletes : Prop :=
  ∀ (s : State) (en : Bool) (b : Byte) (rest : List Byte) (i : Instr) (addr : Addr),
    (i, addr) ∈ [(Instr.setPidFilterEnabled en, s.params.regs.pidCtrl), (Instr.i2cGateCtrl en, s.params.regs.i2cGate)] →
    s.env.bytes = b :: rest → AcksReady s 2 →
    ∃ e, exec i s = .next { s with
      seq := .idle, env := e
      trace := s.trace ++ [.read addr 1 (some [b]),
        .write addr [if en then b ||| 0x01#8 else b &&& 0xFE#8] true]
      responses := s.responses ++ [[0x00#8]] }

/-! ### Micro-operations -/

/-- R80, R47, R50: UOP_REG_WRITE of a legal burst that the bus completes: one write, register addr + i receives bytes[i],
and no other register of the chip is written. -/
def Obligations.RegWriteCompletes : Prop :=
  ∀ (s : State) (addr : Addr) (bytes : List Byte), BurstLegal addr bytes.length → (drawAck s.env).1 = true →
    exec (.uopRegWrite addr bytes) s = .next { s with
      uopResult := .done, env := (drawAck s.env).2, trace := s.trace ++ [.write addr bytes true] } ∧
    (∀ a : Nat, lastWritten (s.trace ++ [.write addr bytes true]) a =
      if addr.toNat ≤ a ∧ a < addr.toNat + bytes.length then bytes[a - addr.toNat]? else lastWritten s.trace a)

/-- R81, R48: UOP_REG_READ of a legal range that the bus completes returns the n bytes drawn, lowest address first. -/
def Obligations.RegReadCompletes : Prop :=
  ∀ (s : State) (addr : Addr) (n : Nat), ReadLegal addr n → (drawAck s.env).1 = true →
    exec (.uopRegRead addr n) s = .next { s with
      uopResult := .bytes (drawBytes n (drawAck s.env).2).1, env := (drawBytes n (drawAck s.env).2).2
      trace := s.trace ++ [.read addr n (some (drawBytes n (drawAck s.env).2).1)] } ∧
    (∀ bs rest : List Byte, s.env.bytes = bs ++ rest → bs.length = n → (drawBytes n (drawAck s.env).2).1 = bs)

/-- R82: UOP_REG_WRITE_MASKED. A full mask writes without a read; any other reads and then writes the byte read with the
mask's bits replaced, bit by bit. -/
def Obligations.RegWriteMaskedCompletes : Prop :=
  ∀ (s : State) (addr : Addr) (value mask : Byte),
    (mask = 0xFF#8 → AcksReady s 1 → ∃ e, exec (.uopRegWriteMasked addr value mask) s = .next { s with
      uopResult := .done, env := e, trace := s.trace ++ [.write addr [value] true] }) ∧
    (∀ (cur : Byte) (rest : List Byte), mask ≠ 0xFF#8 → s.env.bytes = cur :: rest → AcksReady s 2 →
      ∃ e merged, exec (.uopRegWriteMasked addr value mask) s = .next { s with
        uopResult := .done, env := e
        trace := s.trace ++ [.read addr 1 (some [cur]), .write addr [merged] true] } ∧
        ∀ i < 8, merged.getLsbD i = if mask.getLsbD i then value.getLsbD i else cur.getLsbD i)

/-- R83: UOP_REG_READ_MASKED returns the bits the mask selects shifted down by the mask's lowest set bit, and 0 for mask
0. -/
def Obligations.RegReadMaskedCompletes : Prop :=
  ∀ (s : State) (addr : Addr) (mask cur : Byte) (rest : List Byte), s.env.bytes = cur :: rest → AcksReady s 1 →
    ∃ e v, exec (.uopRegReadMasked addr mask) s = .next { s with
        uopResult := .bytes [v], env := e, trace := s.trace ++ [.read addr 1 (some [cur])] } ∧
      (mask = 0x00#8 → v = 0x00#8) ∧
      (∀ k < 8, mask.getLsbD k = true → (∀ j < k, mask.getLsbD j = false) →
        v.toNat = (cur &&& mask).toNat / 2 ^ k)

/-- R84: UOP_REG_WRITE_TABLE with no group above 64 bytes and every transaction complete writes one burst per group. -/
def Obligations.RegWriteTableCompletes : Prop :=
  ∀ (s : State) (es : List RegValue), (∀ g ∈ tableBursts es, g.2.length ≤ 64) →
    AcksReady s (tableBursts es).length →
    ∃ e, exec (.uopRegWriteTable es) s = .next { s with
      uopResult := .done, env := e
      trace := s.trace ++ (tableBursts es).map fun g => .write g.1 g.2 true }

/-- R84: the groups are the table cut into its maximal runs of consecutive addresses: put together they are the entries in
order, none is empty or passes the last register, and no group continues the one before it. -/
def Obligations.TableBurstsAreMaximalRuns : Prop :=
  ∀ es : List RegValue,
    ((tableBursts es).flatMap fun g => g.2.mapIdx fun k v => (g.1.toNat + k, v)) = es.map (fun e => (e.addr.toNat, e.value)) ∧
    (∀ g ∈ tableBursts es, g.2 ≠ [] ∧ g.1.toNat + g.2.length ≤ 2 ^ 24) ∧
    (tableBursts es).IsChain (fun g h => h.1.toNat ≠ g.1.toNat + g.2.length)

/-- R82, R83: a masked micro-operation whose read fails writes nothing: one event, and the error ends the command. -/
def Obligations.MaskedReadFailureWritesNothing : Prop :=
  ∀ (s : State) (o : Opcode) (k : Nat) (addr : Addr) (value mask : Byte), s.seq = .running o k →
    (drawAck s.env).1 = false →
    let t : State := { s with
      seq := .idle, fsm := if o = .init ∨ o = .sleep then .unconfigured else s.fsm
      env := (drawAck s.env).2, trace := s.trace ++ [.read addr 1 none]
      responses := s.responses ++ [[0x02#8, opcodeByte o, BitVec.ofNat 8 k, 0x03#8]] }
    (mask ≠ 0xFF#8 → exec (.uopRegWriteMasked addr value mask) s = .next t) ∧
    exec (.uopRegReadMasked addr mask) s = .next t

/-- R84, R143: UOP_REG_WRITE_TABLE stops at the first group that fails: the groups before it are written and stay, no later
one is issued. A group above 64 bytes is refused before its own transaction; any other fails with its write. (No group passes
the last register: `TableBurstsAreMaximalRuns`.) -/
def Obligations.TableStopsAtFailedBurst : Prop :=
  ∀ (s : State) (o : Opcode) (k : Nat) (es : List RegValue) (before after : List (Addr × List Byte)) (g : Addr × List Byte),
    s.seq = .running o k → tableBursts es = before ++ g :: after →
    (∀ h ∈ before, h.2.length ≤ 64) →
    (g.2.length ≤ 64 → s.env.acks.take (before.length + 1) = List.replicate before.length true ++ [false] →
      ∃ e, exec (.uopRegWriteTable es) s = .next { s with
        seq := .idle, fsm := if o = .init ∨ o = .sleep then .unconfigured else s.fsm, env := e
        trace := s.trace ++ before.map (fun h => .write h.1 h.2 true) ++ [.write g.1 g.2 false]
        responses := s.responses ++ [[0x02#8, opcodeByte o, BitVec.ofNat 8 k, 0x02#8]] }) ∧
    (64 < g.2.length → AcksReady s before.length →
      ∃ e, exec (.uopRegWriteTable es) s = .next { s with
        seq := .idle, fsm := if o = .init ∨ o = .sleep then .unconfigured else s.fsm, env := e
        trace := s.trace ++ before.map (fun h => .write h.1 h.2 true)
        responses := s.responses ++ [[0x01#8, opcodeByte o, BitVec.ofNat 8 k, 0x01#8]] })

/-- R79, R80, R81, R143: a bus micro-operation that fails inside a command ends that command: the error names the
command's opcode and step, and a length the bus would not take appends no event. -/
def Obligations.MicroOpErrorEndsCommand : Prop :=
  ∀ (s : State) (o : Opcode) (k : Nat) (addr : Addr) (bytes : List Byte) (n : Nat), s.seq = .running o k →
    (¬BurstLegal addr bytes.length → exec (.uopRegWrite addr bytes) s = .next { s with
      seq := .idle, fsm := if o = .init ∨ o = .sleep then .unconfigured else s.fsm
      responses := s.responses ++ [[0x01#8, opcodeByte o, BitVec.ofNat 8 k, 0x01#8]] }) ∧
    (BurstLegal addr bytes.length → (drawAck s.env).1 = false →
      exec (.uopRegWrite addr bytes) s = .next { s with
        seq := .idle, fsm := if o = .init ∨ o = .sleep then .unconfigured else s.fsm
        env := (drawAck s.env).2, trace := s.trace ++ [.write addr bytes false]
        responses := s.responses ++ [[0x02#8, opcodeByte o, BitVec.ofNat 8 k, 0x02#8]] }) ∧
    (¬ReadLegal addr n → exec (.uopRegRead addr n) s = .next { s with
      seq := .idle, fsm := if o = .init ∨ o = .sleep then .unconfigured else s.fsm
      responses := s.responses ++ [[0x01#8, opcodeByte o, BitVec.ofNat 8 k, 0x01#8]] }) ∧
    (ReadLegal addr n → (drawAck s.env).1 = false →
      exec (.uopRegRead addr n) s = .next { s with
        seq := .idle, fsm := if o = .init ∨ o = .sleep then .unconfigured else s.fsm
        env := (drawAck s.env).2, trace := s.trace ++ [.read addr n none]
        responses := s.responses ++ [[0x02#8, opcodeByte o, BitVec.ofNat 8 k, 0x03#8]] })
end

