-- ==== Sys2Proof/Laws/Decode.lean ====
section
/-! SUPPORT. Byte order, the opcode map and the fields of a frame. -/

namespace Sys2Proof

/-! ### Little-endian words and their bytes -/

theorem leBytes_2 {w : Nat} (v : BitVec w) : leBytes 2 v = [byteAt 0 v, byteAt 1 v] := rfl
theorem leBytes_3 {w : Nat} (v : BitVec w) : leBytes 3 v = [byteAt 0 v, byteAt 1 v, byteAt 2 v] := rfl
theorem leBytes_4 {w : Nat} (v : BitVec w) : leBytes 4 v = [byteAt 0 v, byteAt 1 v, byteAt 2 v, byteAt 3 v] := rfl

@[simp] theorem leBytes_length {w : Nat} (n : Nat) (v : BitVec w) : (leBytes n v).length = n := by simp [leBytes]

@[simp] theorem le16_byteAt (v : U16) : le16 (byteAt 0 v) (byteAt 1 v) = v := by
  apply BitVec.eq_of_getLsbD_eq
  intro i hi
  simp only [le16, byteAt, BitVec.getLsbD_append, BitVec.getLsbD_extractLsb']
  split
  · simp [*]
  · have : i - 8 < 8 := by omega
    simp [this, show 8 + (i - 8) = i by omega]

@[simp] theorem le24_byteAt (v : BitVec 24) : le24 (byteAt 0 v) (byteAt 1 v) (byteAt 2 v) = v := by
  apply BitVec.eq_of_getLsbD_eq
  intro i hi
  simp only [le24, byteAt, BitVec.getLsbD_append, BitVec.getLsbD_extractLsb']
  split
  · simp [*]
  · split
    · simp [*, show 8 + (i - 8) = i by omega]
    · have : i - 8 - 8 < 8 := by omega
      simp [this, show 16 + (i - 8 - 8) = i by omega]

@[simp] theorem le32_byteAt (v : U32) : le32 (byteAt 0 v) (byteAt 1 v) (byteAt 2 v) (byteAt 3 v) = v := by
  apply BitVec.eq_of_getLsbD_eq
  intro i hi
  simp only [le32, byteAt, BitVec.getLsbD_append, BitVec.getLsbD_extractLsb']
  split
  · simp [*]
  · split
    · simp [*, show 8 + (i - 8) = i by omega]
    · split
      · simp [*, show 16 + (i - 8 - 8) = i by omega]
      · have : i - 8 - 8 - 8 < 8 := by omega
        simp [this, show 24 + (i - 8 - 8 - 8) = i by omega]

/-! The bits of a word put together from bytes. -/

theorem le16_getLsbD (a b : Byte) (i : Nat) :
    (le16 a b).getLsbD i = if i < 8 then a.getLsbD i else b.getLsbD (i - 8) := by
  simp only [le16, BitVec.getLsbD_append]

theorem le24_getLsbD (a b c : Byte) (i : Nat) :
    (le24 a b c).getLsbD i =
      if i < 8 then a.getLsbD i else if i - 8 < 8 then b.getLsbD (i - 8) else c.getLsbD (i - 8 - 8) := by
  simp only [le24, BitVec.getLsbD_append]

theorem le32_getLsbD (a b c d : Byte) (i : Nat) :
    (le32 a b c d).getLsbD i =
      if i < 8 then a.getLsbD i else if i - 8 < 8 then b.getLsbD (i - 8)
      else if i - 8 - 8 < 8 then c.getLsbD (i - 8 - 8) else d.getLsbD (i - 8 - 8 - 8) := by
  simp only [le32, BitVec.getLsbD_append]

/-- A byte of a word, by its bits. -/
theorem byteAt_eq {w : Nat} {v : BitVec w} {k : Nat} {b : Byte}
    (h : ∀ i, i < 8 → v.getLsbD (8 * k + i) = b.getLsbD i) : byteAt k v = b := by
  apply BitVec.eq_of_getLsbD_eq
  intro i hi
  simp only [byteAt, BitVec.getLsbD_extractLsb', hi, decide_true, Bool.true_and]
  exact h i hi

/-- The bytes of a word put together are its bytes. -/
theorem leBytes_le16 (a b : Byte) : leBytes 2 (le16 a b) = [a, b] := by
  rw [leBytes_2, byteAt_eq (b := a), byteAt_eq (b := b)] <;> intro i hi <;> rw [le16_getLsbD]
  · rw [if_neg (by omega)]; congr 1; omega
  · rw [if_pos (by omega)]; congr 1; omega

theorem leBytes_le24 (a b c : Byte) : leBytes 3 (le24 a b c) = [a, b, c] := by
  rw [leBytes_3, byteAt_eq (b := a), byteAt_eq (b := b), byteAt_eq (b := c)] <;> intro i hi <;> rw [le24_getLsbD]
  · rw [if_neg (by omega), if_neg (by omega)]; congr 1; omega
  · rw [if_neg (by omega), if_pos (by omega)]; congr 1; omega
  · rw [if_pos (by omega)]; congr 1; omega

theorem leBytes_le32 (a b c d : Byte) : leBytes 4 (le32 a b c d) = [a, b, c, d] := by
  rw [leBytes_4, byteAt_eq (b := a), byteAt_eq (b := b), byteAt_eq (b := c), byteAt_eq (b := d)] <;> intro i hi <;>
    rw [le32_getLsbD]
  · rw [if_neg (by omega), if_neg (by omega), if_neg (by omega)]; congr 1; omega
  · rw [if_neg (by omega), if_neg (by omega), if_pos (by omega)]; congr 1; omega
  · rw [if_neg (by omega), if_pos (by omega)]; congr 1; omega
  · rw [if_pos (by omega)]; congr 1; omega

/-! ### The opcode map -/

@[simp] theorem opcodeOf_opcodeByte (o : Opcode) : opcodeOf (opcodeByte o) = some o := by cases o <;> rfl

/-- A byte that names a row is that row's opcode. -/
theorem opcodeByte_of_opcodeOf {b : Byte} {o : Opcode} (h : opcodeOf b = some o) : opcodeByte o = b := by
  have := List.find?_some h
  simpa using this

@[simp] theorem enableOf_enableByte (en : Bool) : enableOf (enableByte en) = some en := by cases en <;> rfl

/-- `en` is 0 or 1. -/
theorem enableByte_of_enableOf {b : Byte} {en : Bool} (h : enableOf b = some en) : enableByte en = b := by
  unfold enableOf at h
  split at h
  · rename_i hb; cases h; exact hb.symm
  · split at h
    · rename_i hb; cases h; exact hb.symm
    · cases h

/-- The host port takes what the opcode map gives a row that is no micro-operation, and refuses the others by opcode
(30_encoding.md R66). -/
theorem decodeFrame_cases (op : Byte) (ops : List Byte) :
    (opcodeOf op = none ∧ decodeFrame (op :: ops) = .error (.opcode op)) ∨
    (∃ o, opcodeOf op = some o ∧ isMicroOp o = true ∧ decodeFrame (op :: ops) = .error (.opcode op)) ∨
    (∃ o, opcodeOf op = some o ∧ isMicroOp o = false ∧ decodeFrame (op :: ops) = decodeOperands o ops) := by
  cases h : opcodeOf op with
  | none => exact .inl ⟨rfl, by simp [decodeFrame, h]⟩
  | some o =>
    cases hm : isMicroOp o with
    | true => exact .inr (.inl ⟨o, rfl, hm, by simp [decodeFrame, h, hm]⟩)
    | false => exact .inr (.inr ⟨o, rfl, hm, by simp [decodeFrame, h, hm]⟩)

end Sys2Proof
end

