-- ==== Sys2Proof/Laws/Operands.lean ====
section
/-! SUPPORT. What the table lookups, the divider and the status fields answer. -/

namespace Sys2Proof.Machine

/-- A lookup answers the first row that matches, and the last row where none does (10_state.md R31, R33). -/
theorem rowOrLast_eq {α : Type} (found : α → Bool) (r : α) (rest : List α) :
    rowOrLast found r rest = ((r :: rest).find? found).getD ((r :: rest).getLast (List.cons_ne_nil r rest)) := by
  induction rest generalizing r with
  | nil => cases h : found r <;> simp [rowOrLast, List.find?, h]
  | cons r' rest ih =>
    cases h : found r
    · rw [rowOrLast, h, if_neg Bool.false_ne_true, ih, List.find?_cons_of_neg (a := r) (by rw [h]; exact Bool.false_ne_true)]
      rfl
    · rw [rowOrLast, h, if_pos rfl, List.find?_cons_of_pos h]
      rfl

/-- The last row of a table as a list. -/
theorem rows_getLastD {α : Type} (t : Rows α) :
    t.toList.getLastD t.first = t.toList.getLast (List.cons_ne_nil t.first t.rest) := by
  simp [Rows.toList, List.getLastD_eq_getLast?, List.getLast?_eq_some_getLast]

theorem lookupAdc_eq (p : Params) (clock : U32) : lookupAdc p clock = adcFor p clock := by
  simp only [lookupAdc, adcFor, firstOrLast, rowOrLast_eq, rows_getLastD]; rfl

theorem lookupCoeff_eq (p : Params) (clock bw : U32) : lookupCoeff p clock bw = coeffFor p clock bw := by
  simp only [lookupCoeff, coeffFor, firstOrLast, rowOrLast_eq, rows_getLastD]; rfl

theorem ofsmTable_eq (p : Params) (tuner : Byte) : ofsmTable p tuner = ofsmFor p tuner := by
  unfold ofsmTable ofsmFor; split <;> simp [*]

theorem tunerTable_eq (p : Params) (tuner : Byte) : tunerTable p tuner = tunerTableFor p tuner := rfl

/-- The baseline entries' values are those of the block's configuration and flags (10_state.md R36). -/
theorem sourceByte_eq (s : State) (b : ByteSource) :
    sourceByte s.cfg s.tsParallel s.tsSerial b = baselineValue s b := by
  cases b <;> simp only [sourceByte, baselineValue, flagByte, adcMultByte]
  cases s.cfg.adcMult <;> rfl

/-- The band byte (30_encoding.md R72). -/
theorem bandByte_eq (freq : U32) : bandByte freq = if freq.toNat ≤ 230000000 then 0x00#8 else 0x01#8 := rfl

/-- The bytes of a word are those of its number. -/
theorem byteAt_eq_ofNat {w : Nat} (i : Nat) (v : BitVec w) : byteAt i v = BitVec.ofNat 8 (v.toNat / 2 ^ (8 * i)) := by
  simp only [byteAt, BitVec.extractLsb', Nat.shiftRight_eq_div_pow]

theorem leBytes_eq_lowBytes {w : Nat} (n : Nat) (v : BitVec w) : leBytes n v = lowBytes n v.toNat := by
  simp only [leBytes, lowBytes, byteAt_eq_ofNat]

/-- The three accepted bandwidths and their codes (30_encoding.md R71). -/
theorem bandwidthCode_cases (bw : U32) :
    (bw = 6000000#32 ∧ bandwidthCode bw = some 0x00#8) ∨ (bw = 7000000#32 ∧ bandwidthCode bw = some 0x01#8) ∨
    (bw = 8000000#32 ∧ bandwidthCode bw = some 0x02#8) ∨
    (bw ≠ 6000000#32 ∧ bw ≠ 7000000#32 ∧ bw ≠ 8000000#32 ∧ bandwidthCode bw = none) := by
  by_cases h6 : bw = 6000000#32
  · exact .inl ⟨h6, by rw [h6]; rfl⟩
  · by_cases h7 : bw = 7000000#32
    · exact .inr (.inl ⟨h7, by rw [h7]; rfl⟩)
    · by_cases h8 : bw = 8000000#32
      · exact .inr (.inr (.inl ⟨h8, by rw [h8]; rfl⟩))
      · exact .inr (.inr (.inr ⟨h6, h7, h8, by rw [bandwidthCode, if_neg h6, if_neg h7, if_neg h8]⟩))

/-- The reference divider's word is its number: it is already reduced (41_fixed_point.md R86). -/
theorem divide_reference_toNat (a b : U32) (x : Nat) :
    (divide .referenceLoop a b x).toNat = divideReference a.toNat b.toNat x := by
  simp only [divide, BitVec.toNat_ofNat]
  exact Nat.mod_eq_of_lt (Nat.mod_lt _ (by decide))

/-- The exact divider's word (41_fixed_point.md R88). -/
theorem divide_exact_toNat (a b : U32) (x : Nat) :
    (divide .exactFloor a b x).toNat = a.toNat * 2 ^ x / b.toNat % 2 ^ 32 := by
  simp only [divide, divideExact, BitVec.toNat_ofNat, Nat.mod_mod]

/-- A field's result byte is its code where the code has a value, and 0xFF where it has none (30_encoding.md R67, R74). -/
theorem fieldByte_getElem {α : Type} [DecidableEq α] (codes : List α) (hn : codes.Nodup) (n : Nat) :
    fieldByte codes codes[n]? = if n < codes.length then BitVec.ofNat 8 n else 0xFF#8 := by
  by_cases h : n < codes.length
  · simp [h, fieldByte, List.Nodup.idxOf_getElem hn]
  · simp [fieldByte, h]

end Sys2Proof.Machine
end

