-- ==== Sys2Proof/Laws/State.lean ====
section
/-! SUPPORT. One lemma per field per update of the state. -/

namespace Sys2Proof.Machine

/-! ### log -/

@[simp] theorem log_params (s : State) (ev : Event) (e : Env) : (s.log ev e).params = s.params := rfl
@[simp] theorem log_cfg (s : State) (ev : Event) (e : Env) : (s.log ev e).cfg = s.cfg := rfl
@[simp] theorem log_fsm (s : State) (ev : Event) (e : Env) : (s.log ev e).fsm = s.fsm := rfl
@[simp] theorem log_seq (s : State) (ev : Event) (e : Env) : (s.log ev e).seq = s.seq := rfl
@[simp] theorem log_cachedBw (s : State) (ev : Event) (e : Env) : (s.log ev e).cachedBw = s.cachedBw := rfl
@[simp] theorem log_tsParallel (s : State) (ev : Event) (e : Env) : (s.log ev e).tsParallel = s.tsParallel := rfl
@[simp] theorem log_tsSerial (s : State) (ev : Event) (e : Env) : (s.log ev e).tsSerial = s.tsSerial := rfl
@[simp] theorem log_ber (s : State) (ev : Event) (e : Env) : (s.log ev e).ber = s.ber := rfl
@[simp] theorem log_ucb (s : State) (ev : Event) (e : Env) : (s.log ev e).ucb = s.ucb := rfl
@[simp] theorem log_lastStat (s : State) (ev : Event) (e : Env) : (s.log ev e).lastStat = s.lastStat := rfl
@[simp] theorem log_trace (s : State) (ev : Event) (e : Env) : (s.log ev e).trace = s.trace ++ [ev] := rfl
@[simp] theorem log_frames (s : State) (ev : Event) (e : Env) : (s.log ev e).frames = s.frames := rfl
@[simp] theorem log_responses (s : State) (ev : Event) (e : Env) : (s.log ev e).responses = s.responses := rfl
@[simp] theorem log_issue (s : State) (ev : Event) (e : Env) : (s.log ev e).issue = s.issue := rfl
@[simp] theorem log_uopResult (s : State) (ev : Event) (e : Env) : (s.log ev e).uopResult = s.uopResult := rfl
@[simp] theorem log_env (s : State) (ev : Event) (e : Env) : (s.log ev e).env = e := rfl

/-! ### takeError -/

@[simp] theorem takeError_params (op : Byte) (r : Reason) (s : State) : (takeError op r s).params = s.params := rfl
@[simp] theorem takeError_cfg (op : Byte) (r : Reason) (s : State) : (takeError op r s).cfg = s.cfg := rfl
@[simp] theorem takeError_fsm (op : Byte) (r : Reason) (s : State) : (takeError op r s).fsm = fsmAfterError s.seq s.fsm := rfl
@[simp] theorem takeError_seq (op : Byte) (r : Reason) (s : State) : (takeError op r s).seq = .idle := rfl
@[simp] theorem takeError_cachedBw (op : Byte) (r : Reason) (s : State) : (takeError op r s).cachedBw = s.cachedBw := rfl
@[simp] theorem takeError_tsParallel (op : Byte) (r : Reason) (s : State) : (takeError op r s).tsParallel = s.tsParallel := rfl
@[simp] theorem takeError_tsSerial (op : Byte) (r : Reason) (s : State) : (takeError op r s).tsSerial = s.tsSerial := rfl
@[simp] theorem takeError_ber (op : Byte) (r : Reason) (s : State) : (takeError op r s).ber = s.ber := rfl
@[simp] theorem takeError_ucb (op : Byte) (r : Reason) (s : State) : (takeError op r s).ucb = s.ucb := rfl
@[simp] theorem takeError_lastStat (op : Byte) (r : Reason) (s : State) : (takeError op r s).lastStat = s.lastStat := rfl
@[simp] theorem takeError_trace (op : Byte) (r : Reason) (s : State) : (takeError op r s).trace = s.trace := rfl
@[simp] theorem takeError_frames (op : Byte) (r : Reason) (s : State) : (takeError op r s).frames = s.frames := rfl
@[simp] theorem takeError_responses (op : Byte) (r : Reason) (s : State) : (takeError op r s).responses = s.responses ++ [errorFrame (errorPlace s.seq op) r] := rfl
@[simp] theorem takeError_issue (op : Byte) (r : Reason) (s : State) : (takeError op r s).issue = s.issue := rfl
@[simp] theorem takeError_uopResult (op : Byte) (r : Reason) (s : State) : (takeError op r s).uopResult = s.uopResult := rfl
@[simp] theorem takeError_env (op : Byte) (r : Reason) (s : State) : (takeError op r s).env = s.env := rfl

/-! ### returnOk -/

@[simp] theorem returnOk_params (result : List Byte) (s : State) : (returnOk result s).params = s.params := rfl
@[simp] theorem returnOk_cfg (result : List Byte) (s : State) : (returnOk result s).cfg = s.cfg := rfl
@[simp] theorem returnOk_fsm (result : List Byte) (s : State) : (returnOk result s).fsm = s.fsm := rfl
@[simp] theorem returnOk_seq (result : List Byte) (s : State) : (returnOk result s).seq = .idle := rfl
@[simp] theorem returnOk_cachedBw (result : List Byte) (s : State) : (returnOk result s).cachedBw = s.cachedBw := rfl
@[simp] theorem returnOk_tsParallel (result : List Byte) (s : State) : (returnOk result s).tsParallel = s.tsParallel := rfl
@[simp] theorem returnOk_tsSerial (result : List Byte) (s : State) : (returnOk result s).tsSerial = s.tsSerial := rfl
@[simp] theorem returnOk_ber (result : List Byte) (s : State) : (returnOk result s).ber = s.ber := rfl
@[simp] theorem returnOk_ucb (result : List Byte) (s : State) : (returnOk result s).ucb = s.ucb := rfl
@[simp] theorem returnOk_lastStat (result : List Byte) (s : State) : (returnOk result s).lastStat = s.lastStat := rfl
@[simp] theorem returnOk_trace (result : List Byte) (s : State) : (returnOk result s).trace = s.trace := rfl
@[simp] theorem returnOk_frames (result : List Byte) (s : State) : (returnOk result s).frames = s.frames := rfl
@[simp] theorem returnOk_responses (result : List Byte) (s : State) : (returnOk result s).responses = s.responses ++ [okByte :: result] := rfl
@[simp] theorem returnOk_issue (result : List Byte) (s : State) : (returnOk result s).issue = s.issue := rfl
@[simp] theorem returnOk_uopResult (result : List Byte) (s : State) : (returnOk result s).uopResult = s.uopResult := rfl
@[simp] theorem returnOk_env (result : List Byte) (s : State) : (returnOk result s).env = s.env := rfl

/-! ### recordCounts -/

@[simp] theorem recordCounts_params (k : Counts) (now : U64) (s : State) : (recordCounts k now s).params = s.params := rfl
@[simp] theorem recordCounts_cfg (k : Counts) (now : U64) (s : State) : (recordCounts k now s).cfg = s.cfg := rfl
@[simp] theorem recordCounts_fsm (k : Counts) (now : U64) (s : State) : (recordCounts k now s).fsm = s.fsm := rfl
@[simp] theorem recordCounts_seq (k : Counts) (now : U64) (s : State) : (recordCounts k now s).seq = s.seq := rfl
@[simp] theorem recordCounts_cachedBw (k : Counts) (now : U64) (s : State) : (recordCounts k now s).cachedBw = s.cachedBw := rfl
@[simp] theorem recordCounts_tsParallel (k : Counts) (now : U64) (s : State) : (recordCounts k now s).tsParallel = s.tsParallel := rfl
@[simp] theorem recordCounts_tsSerial (k : Counts) (now : U64) (s : State) : (recordCounts k now s).tsSerial = s.tsSerial := rfl
@[simp] theorem recordCounts_ber (k : Counts) (now : U64) (s : State) : (recordCounts k now s).ber = berOf k := rfl
@[simp] theorem recordCounts_ucb (k : Counts) (now : U64) (s : State) : (recordCounts k now s).ucb = s.ucb + abortOf k := rfl
@[simp] theorem recordCounts_lastStat (k : Counts) (now : U64) (s : State) : (recordCounts k now s).lastStat = some now := rfl
@[simp] theorem recordCounts_trace (k : Counts) (now : U64) (s : State) : (recordCounts k now s).trace = s.trace := rfl
@[simp] theorem recordCounts_frames (k : Counts) (now : U64) (s : State) : (recordCounts k now s).frames = s.frames := rfl
@[simp] theorem recordCounts_responses (k : Counts) (now : U64) (s : State) : (recordCounts k now s).responses = s.responses := rfl
@[simp] theorem recordCounts_issue (k : Counts) (now : U64) (s : State) : (recordCounts k now s).issue = s.issue := rfl
@[simp] theorem recordCounts_uopResult (k : Counts) (now : U64) (s : State) : (recordCounts k now s).uopResult = s.uopResult := rfl
@[simp] theorem recordCounts_env (k : Counts) (now : U64) (s : State) : (recordCounts k now s).env = s.env := rfl

end Sys2Proof.Machine
end

