-- ==== Sys2Proof/Laws/Ops.lean ====
section
/-! SUPPORT. What the shared operations can do, said once each, and how the pieces of a command compose. -/

namespace Sys2Proof.Machine

/-! ### Composition -/

/-- A piece that answers goes on with the next piece. -/
theorem bind_of_ok {α β : Type} {m : M α} {f : α → M β} {s s' : State} {a : α} (h : m s = .ok a s') :
    (m >>= f) s = f a s' := by
  show EStateM.bind m f s = _
  simp [EStateM.bind, h]

/-- A piece that raises ends the rest. -/
theorem bind_of_error {α β : Type} {m : M α} {f : α → M β} {s s' : State} {r : Reason} (h : m s = .error r s') :
    (m >>= f) s = .error r s' := by
  show EStateM.bind m f s = _
  simp [EStateM.bind, h]

@[simp] theorem pure_run {α : Type} (a : α) (s : State) : (pure a : M α) s = .ok a s := rfl
@[simp] theorem raise_run {α : Type} (r : Reason) (s : State) : (raise r : M α) s = .error r s := rfl
@[simp] theorem get_run (s : State) : (get : M State) s = .ok s s := rfl
@[simp] theorem modify_run (f : State → State) (s : State) : (modify f : M Unit) s = .ok () (f s) := rfl
@[simp] theorem atStep_run (op : Opcode) (k : Nat) (s : State) :
    atStep op k s = .ok () { s with seq := .running op k } := rfl

@[simp] theorem bind_pure_run {α β : Type} (a : α) (f : α → M β) (s : State) : ((pure a : M α) >>= f) s = f a s := rfl
@[simp] theorem bind_get_run {β : Type} (f : State → M β) (s : State) : ((get : M State) >>= f) s = f s s := rfl
@[simp] theorem bind_modify_run {β : Type} (g : State → State) (f : Unit → M β) (s : State) :
    ((modify g : M Unit) >>= f) s = f () (g s) := rfl
@[simp] theorem bind_atStep_run {β : Type} (op : Opcode) (k : Nat) (f : Unit → M β) (s : State) :
    (atStep op k >>= f) s = f () { s with seq := .running op k } := rfl

@[simp] theorem onlyWhen_true (m : M Unit) : onlyWhen true m = m := rfl
@[simp] theorem onlyWhen_false (m : M Unit) : onlyWhen false m = pure () := rfl

/-- Where a sequence of two pieces can end: in the first's error, or where the second ends. -/
theorem bind_cases {α β : Type} (m : M α) (f : α → M β) (s : State) :
    (∃ r s', m s = .error r s' ∧ (m >>= f) s = .error r s') ∨
    (∃ a s', m s = .ok a s' ∧ (m >>= f) s = f a s') := by
  cases h : m s with
  | ok a s' => exact .inr ⟨a, s', rfl, bind_of_ok h⟩
  | error r s' => exact .inl ⟨r, s', rfl, bind_of_error h⟩

/-- A property of the state a piece starts in and the state it ends in, whether it answers or raises. -/
def Keeps (R : State → State → Prop) {α : Type} (m : M α) : Prop :=
  ∀ s, (∀ a s', m s = .ok a s' → R s s') ∧ (∀ r s', m s = .error r s' → R s s')

theorem Keeps.bind {R : State → State → Prop} (trans : ∀ a b c, R a b → R b c → R a c) {α β : Type} {m : M α}
    {f : α → M β} (hm : Keeps R m) (hf : ∀ a, Keeps R (f a)) : Keeps R (m >>= f) := by
  intro s
  rcases bind_cases m f s with ⟨r, s', h, e⟩ | ⟨a, s', h, e⟩
  · exact ⟨fun a s'' h' => by simp [e] at h', fun r' s'' h' => by
      rw [e] at h'; cases h'; exact (hm s).2 _ _ h⟩
  · exact ⟨fun b s'' h' => trans _ _ _ ((hm s).1 _ _ h) ((hf a s').1 _ _ (e ▸ h')),
      fun r s'' h' => trans _ _ _ ((hm s).1 _ _ h) ((hf a s').2 _ _ (e ▸ h'))⟩

theorem Keeps.pure {R : State → State → Prop} (refl : ∀ a, R a a) {α : Type} (a : α) : Keeps R (pure a : M α) :=
  fun s => ⟨fun _ _ h => by cases h; exact refl s, fun _ _ h => by cases h⟩

theorem Keeps.raise {R : State → State → Prop} (refl : ∀ a, R a a) {α : Type} (r : Reason) :
    Keeps R (raise r : M α) :=
  fun s => ⟨fun _ _ h => (by cases h), fun _ _ h => by cases h; exact refl s⟩

theorem Keeps.get {R : State → State → Prop} (refl : ∀ a, R a a) : Keeps R (get : M State) :=
  fun s => ⟨fun _ _ h => by cases h; exact refl s, fun _ _ h => by cases h⟩

theorem Keeps.modify {R : State → State → Prop} {f : State → State} (hf : ∀ s, R s (f s)) :
    Keeps R (modify f : M Unit) :=
  fun s => ⟨fun _ _ h => by cases h; exact hf s, fun _ _ h => by cases h⟩

/-! ### Draws -/

/-- A draw of a bus report moves no other answer and no time. -/
theorem drawAck_cases (e : Env) :
    (∃ a rest, e.acks = a :: rest ∧ drawAck e = (a, { e with acks := rest })) ∨
    (e.acks = [] ∧ drawAck e = (Config.freeAck e.fresh, { e with fresh := e.fresh + 1 })) := by
  unfold drawAck; split
  · rename_i a rest h; exact .inl ⟨a, rest, h, rfl⟩
  · rename_i h; exact .inr ⟨h, rfl⟩

@[simp] theorem drawAck_now (e : Env) : (drawAck e).2.now = e.now := by
  rcases drawAck_cases e with ⟨a, r, _, h⟩ | ⟨_, h⟩ <;> rw [h]

@[simp] theorem drawAck_bytes (e : Env) : (drawAck e).2.bytes = e.bytes := by
  rcases drawAck_cases e with ⟨a, r, _, h⟩ | ⟨_, h⟩ <;> rw [h]

@[simp] theorem drawByte_now (e : Env) : (drawByte e).2.now = e.now := by
  unfold drawByte; split <;> rfl

@[simp] theorem drawByte_acks (e : Env) : (drawByte e).2.acks = e.acks := by
  unfold drawByte; split <;> rfl

@[simp] theorem drawBytes_length (n : Nat) (e : Env) : (drawBytes n e).1.length = n := by
  induction n generalizing e with
  | zero => rfl
  | succ n ih => simp [drawBytes, ih]

@[simp] theorem drawBytes_now (n : Nat) (e : Env) : (drawBytes n e).2.now = e.now := by
  induction n generalizing e with
  | zero => rfl
  | succ n ih => simp [drawBytes, ih]

@[simp] theorem drawBytes_acks (n : Nat) (e : Env) : (drawBytes n e).2.acks = e.acks := by
  induction n generalizing e with
  | zero => rfl
  | succ n ih => simp [drawBytes, ih]

@[simp] theorem drawIf_now (e : Env) : (drawIf e).2.now = e.now := by
  unfold drawIf; split <;> rfl

@[simp] theorem drawIf_acks (e : Env) : (drawIf e).2.acks = e.acks := by
  unfold drawIf; split <;> rfl

@[simp] theorem drawTime_now (e : Env) : (drawTime e).2.now = e.now := by
  unfold drawTime; split <;> rfl

@[simp] theorem drawTime_acks (e : Env) : (drawTime e).2.acks = e.acks := by
  unfold drawTime; split <;> rfl

@[simp] theorem drawDelay_now (e : Env) : (drawDelay e).2.now = e.now := by
  unfold drawDelay; split <;> rfl

@[simp] theorem drawDelay_acks (e : Env) : (drawDelay e).2.acks = e.acks := by
  unfold drawDelay; split <;> rfl

@[simp] theorem drawDelay_bytes (e : Env) : (drawDelay e).2.bytes = e.bytes := by
  unfold drawDelay; split <;> rfl

theorem laterOf_ge_left (a b : U64) : a.toNat ≤ (laterOf a b).toNat := by
  unfold laterOf; split <;> omega

/-! ### The bus primitives: everything each can do -/

/-- `BusWrite` (20_memory.md R47): refused by its length with no event, done, or failed with its event. -/
theorem busWrite_cases (addr : Addr) (bytes : List Byte) (s : State) :
    (writeFits addr bytes.length = false ∧ busWrite addr bytes s = .error .burstSize s) ∨
    (writeFits addr bytes.length = true ∧ (drawAck s.env).1 = true ∧
      busWrite addr bytes s = .ok () (s.log (.write addr bytes true) (drawAck s.env).2)) ∨
    (writeFits addr bytes.length = true ∧ (drawAck s.env).1 = false ∧
      busWrite addr bytes s = .error .busWrite (s.log (.write addr bytes false) (drawAck s.env).2)) := by
  cases hf : writeFits addr bytes.length with
  | false => exact .inl ⟨rfl, by simp [busWrite, hf]⟩
  | true =>
    cases ha : (drawAck s.env).1 with
    | true => exact .inr (.inl ⟨rfl, rfl, by simp [busWrite, hf, ha]⟩)
    | false => exact .inr (.inr ⟨rfl, rfl, by simp [busWrite, hf, ha]⟩)

/-- `BusRead` (20_memory.md R48): refused by its length with no event, done, or failed with its event and no bytes. -/
theorem busRead_cases (addr : Addr) (n : Nat) (s : State) :
    (readFits addr n = false ∧ busRead addr n s = .error .burstSize s) ∨
    (readFits addr n = true ∧ (drawAck s.env).1 = true ∧
      busRead addr n s = .ok (drawBytes n (drawAck s.env).2).1
        (s.log (.read addr n (some (drawBytes n (drawAck s.env).2).1)) (drawBytes n (drawAck s.env).2).2)) ∨
    (readFits addr n = true ∧ (drawAck s.env).1 = false ∧
      busRead addr n s = .error .busRead (s.log (.read addr n none) (drawAck s.env).2)) := by
  cases hf : readFits addr n with
  | false => exact .inl ⟨rfl, by simp [busRead, hf]⟩
  | true =>
    cases ha : (drawAck s.env).1 with
    | true => exact .inr (.inl ⟨rfl, rfl, by simp [busRead, hf, ha]⟩)
    | false => exact .inr (.inr ⟨rfl, rfl, by simp [busRead, hf, ha]⟩)

/-- What the two length checks let pass (20_memory.md R47, R48). -/
theorem writeFits_iff (addr : Addr) (n : Nat) : writeFits addr n = true ↔ BurstLegal addr n := decide_eq_true_iff

theorem readFits_iff (addr : Addr) (n : Nat) : readFits addr n = true ↔ ReadLegal addr n := decide_eq_true_iff

theorem writeFits_eq_false_iff (addr : Addr) (n : Nat) : writeFits addr n = false ↔ ¬BurstLegal addr n := decide_eq_false_iff_not

theorem readFits_eq_false_iff (addr : Addr) (n : Nat) : readFits addr n = false ↔ ¬ReadLegal addr n := decide_eq_false_iff_not

/-- One byte at any address passes both length checks (20_memory.md R52). -/
theorem writeFits_one (addr : Addr) : writeFits addr 1 = true := by
  have := addr.isLt
  exact decide_eq_true ⟨by decide, by decide, by simp only [Config.registerSpace]; omega⟩

theorem readFits_one (addr : Addr) : readFits addr 1 = true := by
  have := addr.isLt
  exact decide_eq_true ⟨by decide, by simp only [Config.registerSpace]; omega⟩

/-- A read of one register: done, or failed with its event. -/
theorem busReadByte_cases (addr : Addr) (s : State) :
    ((drawAck s.env).1 = true ∧
      busReadByte addr s = .ok (drawByte (drawAck s.env).2).1
        (s.log (.read addr 1 (some [(drawByte (drawAck s.env).2).1])) (drawByte (drawAck s.env).2).2)) ∨
    ((drawAck s.env).1 = false ∧
      busReadByte addr s = .error .busRead (s.log (.read addr 1 none) (drawAck s.env).2)) := by
  rcases busRead_cases addr 1 s with ⟨hf, _⟩ | ⟨_, ha, h⟩ | ⟨_, ha, h⟩
  · simp [readFits_one] at hf
  · exact .inl ⟨ha, by rw [busReadByte, bind_of_ok h]; simp [drawBytes]⟩
  · exact .inr ⟨ha, by rw [busReadByte, bind_of_error h]⟩

/-- A single-byte write: done, or failed with its event. -/
theorem busWriteByte_cases (addr : Addr) (b : Byte) (s : State) :
    ((drawAck s.env).1 = true ∧
      busWrite addr [b] s = .ok () (s.log (.write addr [b] true) (drawAck s.env).2)) ∨
    ((drawAck s.env).1 = false ∧
      busWrite addr [b] s = .error .busWrite (s.log (.write addr [b] false) (drawAck s.env).2)) := by
  rcases busWrite_cases addr [b] s with ⟨hf, _⟩ | ⟨_, ha, h⟩ | ⟨_, ha, h⟩
  · simp [writeFits_one] at hf
  · exact .inl ⟨ha, h⟩
  · exact .inr ⟨ha, h⟩

/-- A masked read (40_register_access.md R83): the selected bits of the byte read, or the read's failure. -/
theorem readMasked_cases (addr : Addr) (mask : Byte) (s : State) :
    ((drawAck s.env).1 = true ∧
      readMasked addr mask s = .ok (selectMasked (drawByte (drawAck s.env).2).1 mask)
        (s.log (.read addr 1 (some [(drawByte (drawAck s.env).2).1])) (drawByte (drawAck s.env).2).2)) ∨
    ((drawAck s.env).1 = false ∧
      readMasked addr mask s = .error .busRead (s.log (.read addr 1 none) (drawAck s.env).2)) := by
  rcases busReadByte_cases addr s with ⟨ha, h⟩ | ⟨ha, h⟩
  · exact .inl ⟨ha, by rw [readMasked, bind_of_ok h]; rfl⟩
  · exact .inr ⟨ha, by rw [readMasked, bind_of_error h]⟩

/-- A masked write with a full mask is a single-byte write; with any other mask it is a read, whose failure ends it, and
then a single-byte write of the byte read with the mask's bits replaced (40_register_access.md R82). -/
theorem writeMasked_cases (addr : Addr) (value mask : Byte) (s : State) :
    (mask = 0xFF#8 ∧ writeMasked addr value mask s = busWrite addr [value] s) ∨
    (mask ≠ 0xFF#8 ∧ (drawAck s.env).1 = false ∧
      writeMasked addr value mask s = .error .busRead (s.log (.read addr 1 none) (drawAck s.env).2)) ∨
    (mask ≠ 0xFF#8 ∧ (drawAck s.env).1 = true ∧
      writeMasked addr value mask s = busWrite addr [mergeMasked (drawByte (drawAck s.env).2).1 value mask]
        (s.log (.read addr 1 (some [(drawByte (drawAck s.env).2).1])) (drawByte (drawAck s.env).2).2)) := by
  by_cases hm : mask = 0xFF#8
  · exact .inl ⟨hm, by simp [writeMasked, hm]⟩
  · rcases busReadByte_cases addr s with ⟨ha, h⟩ | ⟨ha, h⟩
    · exact .inr (.inr ⟨hm, ha, by rw [writeMasked, if_neg hm, bind_of_ok h]⟩)
    · exact .inr (.inl ⟨hm, ha, by rw [writeMasked, if_neg hm, bind_of_error h]⟩)

/-! The tuner, the time input and the delay element never fail (60_exceptions.md R153 to R155). -/

theorem tunerSetParams_run (s : State) : tunerSetParams s = .ok () (s.log .tunerSetParams s.env) := rfl
theorem tunerGetIf_run (s : State) :
    tunerGetIf s = .ok (drawIf s.env).1 (s.log (.tunerGetIf (drawIf s.env).1) (drawIf s.env).2) := rfl
theorem sampleTime_run (s : State) :
    sampleTime s = .ok (laterOf s.env.now (drawTime s.env).1)
      (s.log (.time (laterOf s.env.now (drawTime s.env).1))
        { (drawTime s.env).2 with now := laterOf s.env.now (drawTime s.env).1 }) := rfl
theorem delayFor_run (lo hi : Nat) (s : State) :
    delayFor lo hi s = .ok () (s.log (.delay (max lo (min hi (drawDelay s.env).1))) (drawDelay s.env).2) := rfl

/-! ### What every piece of a command keeps: it adds events, draws, and moves the pointer -/

/-- The time samples `es` adds lie in order between two times. -/
def TimesBetween (lo : U64) (es : List Event) (hi : U64) : Prop :=
  lo.toNat ≤ hi.toNat ∧ (timesOf es).Pairwise (fun a b => a.toNat ≤ b.toNat) ∧
  ∀ t ∈ timesOf es, lo.toNat ≤ t.toNat ∧ t.toNat ≤ hi.toNat

@[simp] theorem timesOf_append (a b : List Event) : timesOf (a ++ b) = timesOf a ++ timesOf b := by
  simp [timesOf]

theorem TimesBetween.nil (t : U64) : TimesBetween t [] t := by simp [TimesBetween, timesOf]

theorem TimesBetween.append {a b c : U64} {es fs : List Event} (h : TimesBetween a es b) (k : TimesBetween b fs c) :
    TimesBetween a (es ++ fs) c := by
  refine ⟨Nat.le_trans h.1 k.1, ?_, ?_⟩
  · rw [timesOf_append, List.pairwise_append]
    exact ⟨h.2.1, k.2.1, fun x hx y hy => Nat.le_trans (h.2.2 x hx).2 (k.2.2 y hy).1⟩
  · intro t ht
    rw [timesOf_append, List.mem_append] at ht
    rcases ht with ht | ht
    · exact ⟨(h.2.2 t ht).1, Nat.le_trans (h.2.2 t ht).2 k.1⟩
    · exact ⟨Nat.le_trans h.1 (k.2.2 t ht).1, (k.2.2 t ht).2⟩

/-- Nothing but the trace, the environment and the pointer changes; the trace grows by legal events. -/
def PortOnly (s s' : State) : Prop :=
  ∃ es e q, s' = { s with trace := s.trace ++ es, env := e, seq := q } ∧ (∀ ev ∈ es, EventOk ev) ∧
    TimesBetween s.env.now es e.now

theorem PortOnly.refl (s : State) : PortOnly s s :=
  ⟨[], s.env, s.seq, by simp, by simp, TimesBetween.nil _⟩

theorem PortOnly.trans {a b c : State} (h : PortOnly a b) (k : PortOnly b c) : PortOnly a c := by
  obtain ⟨es, e, q, rfl, he, ht⟩ := h
  obtain ⟨fs, e', q', rfl, hf, ht'⟩ := k
  refine ⟨es ++ fs, e', q', by simp, ?_, ht.append ht'⟩
  intro ev hev
  rcases List.mem_append.mp hev with h | h
  · exact he ev h
  · exact hf ev h

theorem PortOnly.log {s : State} {ev : Event} {e : Env} (hok : EventOk ev) (ht : TimesBetween s.env.now [ev] e.now) :
    PortOnly s (s.log ev e) :=
  ⟨[ev], e, s.seq, rfl, by simpa using hok, ht⟩

theorem ports_atStep (op : Opcode) (k : Nat) : Keeps PortOnly (atStep op k) :=
  Keeps.modify fun s => ⟨[], s.env, .running op k, by simp, by simp, TimesBetween.nil _⟩

theorem ports_busWrite (addr : Addr) (bytes : List Byte) : Keeps PortOnly (busWrite addr bytes) := by
  intro s
  rcases busWrite_cases addr bytes s with ⟨hf, h⟩ | ⟨hf, ha, h⟩ | ⟨hf, ha, h⟩ <;>
    refine ⟨fun _ _ e => ?_, fun _ _ e => ?_⟩ <;> rw [h] at e <;> cases e
  · exact PortOnly.refl s
  all_goals exact PortOnly.log ((writeFits_iff _ _).mp hf) (by simp [TimesBetween, timesOf])

theorem ports_busRead (addr : Addr) (n : Nat) : Keeps PortOnly (busRead addr n) := by
  intro s
  rcases busRead_cases addr n s with ⟨hf, h⟩ | ⟨hf, ha, h⟩ | ⟨hf, ha, h⟩ <;>
    refine ⟨fun _ _ e => ?_, fun _ _ e => ?_⟩ <;> rw [h] at e <;> cases e
  · exact PortOnly.refl s
  · exact PortOnly.log ⟨(readFits_iff _ _).mp hf, by simp⟩ (by simp [TimesBetween, timesOf])
  · exact PortOnly.log ((readFits_iff _ _).mp hf) (by simp [TimesBetween, timesOf])

theorem ports_bind {α β : Type} {m : M α} {f : α → M β} (hm : Keeps PortOnly m) (hf : ∀ a, Keeps PortOnly (f a)) :
    Keeps PortOnly (m >>= f) := Keeps.bind (R := PortOnly) (fun _ _ _ h k => h.trans k) hm hf

theorem ports_pure {α : Type} (a : α) : Keeps PortOnly (pure a : M α) := Keeps.pure PortOnly.refl a

theorem ports_raise {α : Type} (r : Reason) : Keeps PortOnly (raise r : M α) := Keeps.raise PortOnly.refl r

theorem ports_get : Keeps PortOnly (get : M State) := Keeps.get PortOnly.refl

theorem ports_busReadByte (addr : Addr) : Keeps PortOnly (busReadByte addr) :=
  ports_bind (ports_busRead addr 1) fun _ => ports_pure _

theorem ports_tunerSetParams : Keeps PortOnly tunerSetParams := by
  intro s
  refine ⟨fun _ _ e => ?_, fun _ _ e => ?_⟩ <;> cases e
  exact PortOnly.log trivial (by simp [TimesBetween, timesOf])

theorem ports_tunerGetIf : Keeps PortOnly tunerGetIf := by
  intro s
  refine ⟨fun _ _ e => ?_, fun _ _ e => ?_⟩ <;> cases e
  exact PortOnly.log trivial (by simp [TimesBetween, timesOf])

/-- The sample is not below the latest (60_exceptions.md R154). -/
theorem ports_sampleTime : Keeps PortOnly sampleTime := by
  intro s
  refine ⟨fun _ _ e => ?_, fun _ _ e => ?_⟩ <;> cases e
  exact PortOnly.log trivial (by simp [TimesBetween, timesOf, laterOf_ge_left])

/-- The delay is within its bounds (60_exceptions.md R155). -/
theorem ports_sleepDelay : Keeps PortOnly (delayFor Config.sleepDelayLo Config.sleepDelayHi) := by
  intro s
  refine ⟨fun _ _ e => ?_, fun _ _ e => ?_⟩ <;> cases e
  refine PortOnly.log ?_ (by simp [TimesBetween, timesOf])
  simp only [EventOk, Config.sleepDelayLo, Config.sleepDelayHi]
  omega

theorem ports_writeMasked (addr : Addr) (value mask : Byte) : Keeps PortOnly (writeMasked addr value mask) := by
  unfold writeMasked
  split
  · exact ports_busWrite _ _
  · exact ports_bind (ports_busReadByte addr) fun _ => ports_busWrite _ _

theorem ports_readMasked (addr : Addr) (mask : Byte) : Keeps PortOnly (readMasked addr mask) :=
  ports_bind (ports_busReadByte addr) fun _ => ports_pure _

theorem ports_writeBursts (gs : List (Addr × List Byte)) : Keeps PortOnly (writeBursts gs) := by
  induction gs with
  | nil => exact ports_pure ()
  | cons g gs ih => exact ports_bind (ports_busWrite _ _) fun _ => ih

theorem ports_writeTable (es : List RegValue) : Keeps PortOnly (writeTable es) := ports_writeBursts _

/-- TUNE.7 to TUNE.12 answer the control bytes and move nothing but the pointer (43_tuning.md R118 to R122). -/
theorem tuneControl_run (p : Params) (c : Cfg) (adc : U32) (raw : Int) (s : State) :
    tuneControl p c adc raw s =
      .ok (freqControlBytes p c adc raw) { s with seq := .running .setFrontend 12 } := rfl

theorem ports_tuneControl (p : Params) (c : Cfg) (adc : U32) (raw : Int) : Keeps PortOnly (tuneControl p c adc raw) :=
  fun s => ⟨fun _ _ h => by
      rw [tuneControl_run] at h; cases h
      exact ⟨[], s.env, .running .setFrontend 12, by simp, by simp, TimesBetween.nil _⟩,
    fun _ _ h => by rw [tuneControl_run] at h; cases h⟩

/-- The end of READ_SNR answers and moves nothing but the pointer: not even that without a curve (44_status.md R130). -/
theorem snrAnswer_cases (p : Params) (raw : BitVec 24) (m : BitVec 2) (s : State) :
    (snrCurve p m = none ∧ snrAnswer p raw m s = .ok snrNotPresent s) ∨
    (∃ t, snrCurve p m = some t ∧
      snrAnswer p raw m s = .ok (snrPresent p raw t) { s with seq := .running .readSnr 3 }) := by
  cases h : snrCurve p m with
  | none => exact .inl ⟨rfl, by simp [snrAnswer, h]⟩
  | some t => exact .inr ⟨t, rfl, by simp [snrAnswer, h]⟩

theorem ports_snrAnswer (p : Params) (raw : BitVec 24) (m : BitVec 2) : Keeps PortOnly (snrAnswer p raw m) := by
  unfold snrAnswer
  split
  · exact ports_pure _
  · exact ports_bind (ports_atStep _ _) fun _ => ports_pure _

theorem ports_applyMasked (es : List RegEntry) : Keeps PortOnly (applyMasked es) := by
  induction es with
  | nil => exact ports_pure ()
  | cons e es ih => exact ports_bind (ports_writeMasked _ _ _) fun _ => ih

theorem ports_onlyWhen (b : Bool) {m : M Unit} (h : Keeps PortOnly m) : Keeps PortOnly (onlyWhen b m) := by
  cases b
  · exact ports_pure ()
  · exact h

/-! ### Returning and raising -/

/-- A command ends in its result or in its error. -/
theorem command_cases (op : Opcode) (body : M (List Byte)) (s : State) :
    (∃ result s', body s = .ok result s' ∧ command op body s = returnOk result s') ∨
    (∃ r s', body s = .error r s' ∧ command op body s = takeError (opcodeByte op) r s') := by
  unfold command
  cases h : body s with
  | ok a s' => exact .inl ⟨a, s', rfl, rfl⟩
  | error r s' => exact .inr ⟨r, s', rfl, rfl⟩

/-- A micro-operation run by itself ends with its value or in its error. -/
theorem microOp_cases (op : Opcode) (body : M UopResult) (s : State) :
    (∃ v s', body s = .ok v s' ∧ microOp op body s = { s' with uopResult := v }) ∨
    (∃ r s', body s = .error r s' ∧ microOp op body s = takeError (opcodeByte op) r s') := by
  unfold microOp
  cases h : body s with
  | ok a s' => exact .inl ⟨a, s', rfl, rfl⟩
  | error r s' => exact .inr ⟨r, s', rfl, rfl⟩

end Sys2Proof.Machine
end

