-- ==== Sys2Proof/Laws/PerInstr.lean ====
section
/-! SUPPORT. A fact about each instruction as bytes: its first byte names its row, and a host command's length is the one its first byte fixes (30_encoding.md R63, R69). -/

namespace Sys2Proof.Laws

/-- The first byte names the row, and a host command has the length that byte fixes. -/
def FirstByte.Statement (i : Instr) : Prop :=
  opcodeOf ((encode i).headD 0x00#8) = some (opcodeOfInstr i) ∧
  (isMicroOp (opcodeOfInstr i) = false → (encode i).length = frameLength ((encode i).headD 0x00#8))

theorem FirstByte.init : FirstByte.Statement .init := ⟨rfl, fun _ => rfl⟩
theorem FirstByte.sleep : FirstByte.Statement .sleep := ⟨rfl, fun _ => rfl⟩
theorem FirstByte.setFrontend (bw freq : U32) : FirstByte.Statement (.setFrontend bw freq) := ⟨rfl, fun _ => rfl⟩
theorem FirstByte.getFrontend : FirstByte.Statement .getFrontend := ⟨rfl, fun _ => rfl⟩
theorem FirstByte.readStatus : FirstByte.Statement .readStatus := ⟨rfl, fun _ => rfl⟩
theorem FirstByte.readSnr : FirstByte.Statement .readSnr := ⟨rfl, fun _ => rfl⟩
theorem FirstByte.readSignalStrength : FirstByte.Statement .readSignalStrength := ⟨rfl, fun _ => rfl⟩
theorem FirstByte.readBer : FirstByte.Statement .readBer := ⟨rfl, fun _ => rfl⟩
theorem FirstByte.readUcb : FirstByte.Statement .readUcb := ⟨rfl, fun _ => rfl⟩
theorem FirstByte.setPidFilter (idx : Byte) (pid : U16) (en : Bool) :
    FirstByte.Statement (.setPidFilter idx pid en) := ⟨rfl, fun _ => rfl⟩
theorem FirstByte.setPidFilterEnabled (en : Bool) : FirstByte.Statement (.setPidFilterEnabled en) :=
  ⟨rfl, fun _ => rfl⟩
theorem FirstByte.i2cGateCtrl (en : Bool) : FirstByte.Statement (.i2cGateCtrl en) := ⟨rfl, fun _ => rfl⟩
theorem FirstByte.uopRegWrite (addr : Addr) (bytes : List Byte) :
    FirstByte.Statement (.uopRegWrite addr bytes) := ⟨rfl, fun h => by cases h⟩
theorem FirstByte.uopRegRead (addr : Addr) (n : Nat) : FirstByte.Statement (.uopRegRead addr n) :=
  ⟨rfl, fun h => by cases h⟩
theorem FirstByte.uopRegWriteMasked (addr : Addr) (value mask : Byte) :
    FirstByte.Statement (.uopRegWriteMasked addr value mask) := ⟨rfl, fun h => by cases h⟩
theorem FirstByte.uopRegReadMasked (addr : Addr) (mask : Byte) :
    FirstByte.Statement (.uopRegReadMasked addr mask) := ⟨rfl, fun h => by cases h⟩
theorem FirstByte.uopRegWriteTable (entries : List RegValue) :
    FirstByte.Statement (.uopRegWriteTable entries) := ⟨rfl, fun h => by cases h⟩
theorem FirstByte.uopFpDivide (a b : U32) (x : BitVec 5) : FirstByte.Statement (.uopFpDivide a b x) :=
  ⟨rfl, fun h => by cases h⟩

end Sys2Proof.Laws
end

