-- ==== Sys2Proof/Tests/Slice0.lean ====
section
/-! SUPPORT. Tests of one step each, with results from the spec, and a witness for the hypotheses of every statement. -/

namespace Sys2Proof.Tests

open Sys2Proof Sys2Proof.Machine

/-! ### Helpers -/

/-- The reset state with `n` completions and some bytes ready on the bus port. -/
def ready (n : Nat) (bytes : List Byte) : State :=
  { State.reset with env := { Env.start with acks := List.replicate n true, bytes := bytes } }

/-- The same in `ACTIVE`. -/
def active (n : Nat) (bytes : List Byte) : State := { ready n bytes with fsm := .active }

/-- The reset state whose next transaction fails. -/
def failing : State := { State.reset with env := { Env.start with acks := [false] } }

/-- A state with time samples ready too. -/
def timed (times : List U64) (n : Nat) (bytes : List Byte) : State :=
  { State.reset with env := { Env.start with acks := List.replicate n true, bytes := bytes, times := times } }

/-- TP with an acknowledgment on the last poll taken as none (00_scope.md R5). -/
def strictPoll (s : State) : State := { s with params := { Config.tp with sleepLastPollOk := false } }

/-- What a piece of a command answers. -/
def answered {α : Type} (r : EStateM.Result Reason State α) : Option α :=
  match r with
  | .ok a _ => some a
  | .error _ _ => none

/-- Where the pointer stood when a piece of a command ended. -/
def stoodAt {α : Type} (r : EStateM.Result Reason State α) : Seq :=
  match r with
  | .ok _ t => t.seq
  | .error _ t => t.seq

/-- What a test looks at in an outcome: the trace, the responses and the control state. -/
def seen (o : Host.Outcome State Fault Refusal) : Option (List Event × List (List Byte) × Fsm) :=
  match o with
  | .next t => some (t.trace, t.responses, t.fsm)
  | .fault _ => none
  | .refused _ => none

/-- The value a micro-operation returned. -/
def returned (o : Host.Outcome State Fault Refusal) : Option UopResult :=
  match o with
  | .next t => some t.uopResult
  | .fault _ => none
  | .refused _ => none

/-! ### WellFormed: each check refuses an ill-formed term -/

theorem test_wellFormed_refuses_count : Instr.WellFormed (.uopRegRead 0#24 (2 ^ 32)) = false := by decide
theorem test_wellFormed_refuses_zero_divisor : Instr.WellFormed (.uopFpDivide 1#32 0#32 0#5) = false := by decide
theorem test_wellFormed_takes_the_rest :
    Instr.WellFormed (.uopRegRead 0xFFFFFF#24 (2 ^ 32 - 1)) = true ∧
    Instr.WellFormed (.uopFpDivide 0#32 1#32 31#5) = true := by decide
theorem test_params_ok : Config.tp.Ok = true := by decide
theorem test_params_refuse_zero_adc :
    Params.Ok { Config.tp with clockAdc := ⟨⟨12000000#32, 0#32⟩, []⟩ } = false := by decide
theorem test_params_refuse_wrong_clock : Params.Ok { Config.tp with supportedClockHz := 1#32 } = false := by
  decide
theorem test_params_refuse_long_coefficients : Params.Ok { Config.tp with nCoeff := 65 } = false := by decide
theorem test_params_refuse_flat_curve :
    Params.Ok { Config.tp with snrQam16 := ⟨⟨10#32, 1#8⟩, [⟨10#32, 2#8⟩]⟩ } = false := by decide
theorem test_params_refuse_empty_baseline : Params.Ok { Config.tp with baseline := [] } = false := by decide
theorem test_params_refuse_two_serial_writes :
    Params.Ok { Config.tp with serialWrites := [⟨0#24, 0#8, 1#8⟩, ⟨1#24, 0#8, 1#8⟩] } = false := by decide
theorem test_params_refuse_burst_past_end :
    Params.Ok { Config.tp with regs := { Config.tpRegs with stat := 0xFFFFFA#24 } } = false := by decide
theorem test_params_refuse_two_bit_mask : Params.Ok { Config.tp with fullLockMask := 0x03#8 } = false := by
  decide

/-! ### Decoding: bytes written out from 30_encoding.md R64 and R65 (the `UOP` records: log 7) -/

theorem test_decode_init : decode [0x01#8] = .ok .init := rfl
theorem test_decode_sleep : decode [0x02#8] = .ok .sleep := rfl
theorem test_decode_setFrontend :
    decode [0x03#8, 0x00#8, 0x12#8, 0x7A#8, 0x00#8, 0x80#8, 0x94#8, 0x73#8, 0x22#8] =
      .ok (.setFrontend 8000000#32 578000000#32) := rfl
theorem test_decode_getFrontend : decode [0x04#8] = .ok .getFrontend := rfl
theorem test_decode_readStatus : decode [0x05#8] = .ok .readStatus := rfl
theorem test_decode_readSnr : decode [0x06#8] = .ok .readSnr := rfl
theorem test_decode_readSignalStrength : decode [0x07#8] = .ok .readSignalStrength := rfl
theorem test_decode_readBer : decode [0x08#8] = .ok .readBer := rfl
theorem test_decode_readUcb : decode [0x09#8] = .ok .readUcb := rfl
theorem test_decode_setPidFilter :
    decode [0x0A#8, 0x03#8, 0xFF#8, 0x1F#8, 0x00#8] = .ok (.setPidFilter 3#8 0x1FFF#16 false) := rfl
theorem test_decode_setPidFilterEnabled : decode [0x0B#8, 0x01#8] = .ok (.setPidFilterEnabled true) := rfl
theorem test_decode_i2cGateCtrl : decode [0x0C#8, 0x00#8] = .ok (.i2cGateCtrl false) := rfl
theorem test_decode_uopRegWrite :
    decode [0x80#8, 0x56#8, 0x34#8, 0x12#8, 0xAA#8, 0xBB#8] = .ok (.uopRegWrite 0x123456#24 [0xAA#8, 0xBB#8]) := rfl
theorem test_decode_uopRegRead :
    decode [0x81#8, 0x56#8, 0x34#8, 0x12#8, 0x03#8, 0x01#8, 0x00#8, 0x00#8] = .ok (.uopRegRead 0x123456#24 259) := rfl
theorem test_decode_uopRegWriteMasked :
    decode [0x82#8, 0x56#8, 0x34#8, 0x12#8, 0x5A#8, 0x0F#8] = .ok (.uopRegWriteMasked 0x123456#24 0x5A#8 0x0F#8) := rfl
theorem test_decode_uopRegReadMasked :
    decode [0x83#8, 0x56#8, 0x34#8, 0x12#8, 0x30#8] = .ok (.uopRegReadMasked 0x123456#24 0x30#8) := rfl
theorem test_decode_uopRegWriteTable :
    decode [0x84#8, 0x10#8, 0x00#8, 0x00#8, 0x01#8, 0x11#8, 0x00#8, 0x00#8, 0x02#8] =
      .ok (.uopRegWriteTable [⟨0x10#24, 1#8⟩, ⟨0x11#24, 2#8⟩]) := rfl
theorem test_decode_uopFpDivide :
    decode [0x85#8, 0x64#8, 0x00#8, 0x00#8, 0x00#8, 0x07#8, 0x00#8, 0x00#8, 0x00#8, 0x08#8] =
      .ok (.uopFpDivide 100#32 7#32 8#5) := rfl
theorem test_table_word_opcode_alone :
    decodeTableWord 8 0x0A = some (.setPidFilter 0#8 0#16 false) ∧ decodeTableWord 8 0x80 = some (.uopRegWrite 0#24 []) :=
  ⟨rfl, rfl⟩
theorem test_table_word_first_byte_lowest :
    decodeTableWord 16 0x010C = some (.i2cGateCtrl true) ∧ decodeTableWord 8 0x0D = none := ⟨rfl, rfl⟩
/-- The opcode 0x03 with operands of zeros: in `ACTIVE`, bandwidth 0 is refused at TUNE.1 (43_tuning.md R112). -/
theorem test_fetch_word_runs :
    seen (step (State.withFetchWord (active 0 []) 8 0x03)) = some ([], [[0x01#8, 0x03#8, 0x01#8, 0x04#8]], .active) := by
  decide

/-! ### Frames that are no command (95_test_vectors.md section 2.7) -/

theorem test_frame_opcode_before_length :
    seen (serveFrame [0x85#8, 0x01#8, 0x02#8] State.reset) =
      some ([], [[0x05#8, 0x85#8, 0x00#8, 0x0A#8]], .unconfigured) := by decide
theorem test_frame_length_before_en :
    decodeFrame [0x0C#8] = .error (.length 0x0C#8) ∧ decodeFrame [0x0B#8, 0x02#8] = .error (.operand 0x0B#8) ∧
    decodeFrame [0x03#8, 0x00#8, 0x12#8, 0x7A#8, 0x00#8] = .error (.length 0x03#8) := ⟨rfl, rfl, rfl⟩

/-! ### Micro-operations (95_test_vectors.md sections 1 and 2.2) -/

theorem test_uopRegWrite_burst_limits :
    writeFits 0x000100#24 64 = true ∧ writeFits 0x000100#24 65 = false ∧ writeFits 0x000100#24 0 = false ∧
    writeFits 0xFFFFFF#24 2 = false ∧ writeFits 0xFFFFFF#24 1 = true := by decide
theorem test_uopRegWrite_fails :
    seen (exec (.uopRegWrite 0x000100#24 [0xAA#8]) failing) =
      some ([.write 0x000100#24 [0xAA#8] false], [[0x02#8, 0x80#8, 0x00#8, 0x02#8]], .unconfigured) := by decide
theorem test_uopRegRead :
    returned (exec (.uopRegRead 0x000200#24 3) (ready 1 [0x11#8, 0x22#8, 0x33#8])) =
      some (.bytes [0x11#8, 0x22#8, 0x33#8]) := by decide
theorem test_uopRegRead_no_bytes :
    seen (exec (.uopRegRead 0x000200#24 0) (ready 1 [])) =
      some ([], [[0x01#8, 0x81#8, 0x00#8, 0x01#8]], .unconfigured) := by decide
theorem test_uopRegWriteMasked :
    seen (exec (.uopRegWriteMasked 0x10#24 0xFE#8 0x01#8) (ready 2 [0xAB#8])) =
      some ([.read 0x10#24 1 (some [0xAB#8]), .write 0x10#24 [0xAA#8] true], [], .unconfigured) := by decide
theorem test_uopRegWriteMasked_full :
    seen (exec (.uopRegWriteMasked 0x10#24 0x5A#8 0xFF#8) (ready 1 [])) =
      some ([.write 0x10#24 [0x5A#8] true], [], .unconfigured) := by decide
theorem test_uopRegReadMasked :
    returned (exec (.uopRegReadMasked 0x10#24 0x30#8) (ready 1 [0x65#8])) = some (.bytes [0x02#8]) := by decide
theorem test_uopRegReadMasked_keeps_gaps : selectMasked 0xFF#8 0x0A#8 = 0x05#8 ∧ selectMasked 0xFF#8 0x00#8 = 0x00#8 := by
  decide
theorem test_uopRegWriteTable :
    seen (exec (.uopRegWriteTable [⟨0x10#24, 1#8⟩, ⟨0x11#24, 2#8⟩, ⟨0x13#24, 3#8⟩]) (ready 2 [])) =
      some ([.write 0x10#24 [1#8, 2#8] true, .write 0x13#24 [3#8] true], [], .unconfigured) := by decide
theorem test_uopRegWriteTable_no_wrap :
    tableBursts [⟨0xFFFFFF#24, 1#8⟩, ⟨0x000000#24, 2#8⟩, ⟨0x000000#24, 3#8⟩] =
      [(0xFFFFFF#24, [1#8]), (0#24, [2#8]), (0#24, [3#8])] := by decide
theorem test_uopFpDivide_reference :
    divide .referenceLoop 20416667#32 1000000#32 19 = 0xA35554#32 ∧ divide .referenceLoop 100#32 7#32 8 = 0xE48#32 ∧
    divide .referenceLoop 5#32 5#32 0 = 0#32 ∧ divide .referenceLoop 0x7FFFFFFF#32 0x7FFFFFFF#32 23 = 0x800000#32 := by
  decide
theorem test_uopFpDivide_exact :
    divide .exactFloor 20416667#32 1000000#32 19 = 0xA35555#32 ∧ divide .exactFloor 100#32 7#32 8 = 0xE49#32 ∧
    divide .exactFloor 5#32 5#32 0 = 1#32 := by decide

/-! ### Commands (95_test_vectors.md sections 2.3 to 3) -/

/-- P1, step 1. -/
theorem test_init :
    seen (exec .init (ready 13 [0x00#8, 0x00#8, 0x00#8])) =
      some ([.write 0x800025#24 [0x00#8, 0x00#8, 0x60#8, 0x00#8] true, .write 0x80F1CD#24 [0x00#8, 0x00#8, 0xA2#8] true,
        .write 0x00F641#24 [0x38#8] true, .read 0x80F985#24 1 (some [0x00#8]), .write 0x80F985#24 [0x00#8] true,
        .read 0x80F986#24 1 (some [0x00#8]), .write 0x80F986#24 [0x00#8] true, .write 0x800045#24 [0x00#8] true,
        .read 0x80F9A5#24 1 (some [0x00#8]), .write 0x80F9A5#24 [0x00#8] true,
        .write 0x800100#24 [0x11#8, 0x22#8] true, .write 0x800103#24 [0x33#8] true, .write 0x800200#24 [0x44#8] true],
      [[0x00#8]], .active) := by decide +kernel

/-- P4: an unrecognized tuner byte. -/
theorem test_init_unsupported_tuner :
    (seen (exec .init { ready 12 [0x00#8, 0x00#8, 0x00#8] with cfg := { Config.cfgA with tuner := 0x99#8 } })).map
      (fun o => (o.1.length, o.2)) = some (12, [[0x04#8, 0x01#8, 0x08#8, 0x09#8]], .unconfigured) := by decide +kernel

/-- 42_init_sleep.md R105: acknowledged on the second poll, after one delay held to its range. -/
theorem test_sleep :
    seen (exec .sleep { active 6 [0x05#8, 0x00#8, 0xF7#8] with
      env := { Env.start with acks := List.replicate 6 true, bytes := [0x05#8, 0x00#8, 0xF7#8], delays := [7] } }) =
      some ([.write 0x80004C#24 [0x01#8] true, .write 0x800000#24 [0x00#8] true, .read 0x80004C#24 1 (some [0x05#8]),
        .delay 200, .read 0x80004C#24 1 (some [0x00#8]), .read 0x80FB24#24 1 (some [0xF7#8]),
        .write 0x80FB24#24 [0xFF#8] true], [[0x00#8]], .asleep) := by decide

/-- 42_init_sleep.md R103: an acknowledgment on the last poll counts exactly under SLEEP_LAST_POLL_OK. -/
theorem test_sleep_last_poll :
    answered (pollAck Config.tp 1 (ready 1 [0x00#8])) = some true ∧
    answered (pollAck (strictPoll (ready 0 [])).params 1 (ready 1 [0x00#8])) = some false := by decide

/-- P1, step 2. -/
theorem test_setFrontend :
    seen (exec (.setFrontend 8000000#32 578000000#32) { active 10 [] with
      env := { Env.start with acks := List.replicate 10 true, bytes := [0x00#8, 0x01#8], ifs := [4570000#32] } }) =
      some ([.tunerSetParams, .write 0x800001#24 [0xC0#8, 0xC1#8, 0xC2#8, 0xC3#8] true, .tunerGetIf 4570000#32,
        .write 0x800029#24 [0xF4#8, 0x1C#8, 0x63#8] true, .read 0x80F904#24 1 (some [0x00#8]),
        .write 0x80F904#24 [0x02#8] true, .write 0x800040#24 [0x00#8] true, .write 0x800047#24 [0x00#8] true,
        .read 0x80F999#24 1 (some [0x01#8]), .write 0x80F999#24 [0x00#8] true, .write 0x80004B#24 [0x01#8] true,
        .write 0x800000#24 [0x00#8] true], [[0x00#8]], .active) := by decide

/-- Section 2.3, and the negative IF of 43_tuning.md R120. -/
theorem test_setFrontend_control_word :
    freqControlBytes Config.tp { Config.cfgA with specInv := true, adcMult := .x2 } 20250000#32 4570000 =
      [0x86#8, 0x71#8, 0x0E#8] ∧
    freqControlBytes Config.tp Config.cfgA 20250000#32 20250000 = [0x00#8, 0x00#8, 0x00#8] ∧
    freqControlBytes { Config.tp with zeroIfTest := .raw } Config.cfgA 20250000#32 20250000 = [0x00#8, 0x00#8, 0x80#8] ∧
    freqControlWord Config.tp { Config.cfgA with specInv := true } 20250000#32 (foldIf 20250000#32 (-30000000)) =
      0xFFC25ED2#32 := by decide

/-- Section 2.4. -/
theorem test_getFrontend :
    (seen (exec .getFrontend (ready 1 [0xFD#8, 0xFC#8, 0xFB#8, 0xFA#8, 0xF9#8, 0x00#8, 0xF8#8, 0xF8#8]))).map (·.2.1) =
      some [[0x00#8, 0x01#8, 0x00#8, 0x03#8, 0x02#8, 0x01#8, 0x00#8, 0x00#8]] := by decide
theorem test_getFrontend_absent :
    encodeChannelStatus (decodeStatus [0x02#8, 0x03#8, 0x04#8, 0x03#8, 0x03#8, 0xFF#8, 0x05#8, 0x06#8]) =
      [0xFF#8, 0x03#8, 0xFF#8, 0xFF#8, 0xFF#8, 0x05#8, 0xFF#8] := by decide
theorem test_readStatus :
    (seen (exec .readStatus (ready 3 [0x01#8, 0x01#8, 0x00#8]))).map (·.2.1) = some [[0x00#8, 0x07#8]] := by decide
theorem test_readStatus_no_signal :
    (seen (exec .readStatus (ready 3 [0x02#8, 0x01#8, 0x01#8]))).map (fun o => (o.1.length, o.2.1)) =
      some (1, [[0x00#8, 0x00#8]]) := by decide
theorem test_readSnr :
    (seen (exec .readSnr (ready 2 [0x1E#8, 0x00#8, 0x00#8, 0xFE#8]))).map (·.2.1) =
      some [[0x00#8, 0x01#8, 0x1E#8, 0x00#8]] := by decide
/-- Modulation code 3 is answered at SNR.2, any other at SNR.3 (44_status.md R130). -/
theorem test_readSnr_not_present :
    (seen (exec .readSnr (ready 2 [0x05#8, 0x00#8, 0x00#8, 0x03#8]))).map (·.2.1) =
      some [[0x00#8, 0x00#8, 0x00#8, 0x00#8]] ∧
    stoodAt (readSnrSteps Config.tp (ready 2 [0x05#8, 0x00#8, 0x00#8, 0x03#8])) = .running .readSnr 2 ∧
    stoodAt (readSnrSteps Config.tp (ready 2 [0x05#8, 0x00#8, 0x00#8, 0x02#8])) = .running .readSnr 3 := by decide
theorem test_readSignalStrength :
    (seen (exec .readSignalStrength (ready 1 [0x65#8]))).map (·.2.1) = some [[0x00#8, 0x8E#8, 0x02#8]] := by decide
theorem test_readSignalStrength_values :
    strengthScaled 100#8 = 0xFFFF#16 ∧ strengthScaled 255#8 = 0x8CCA#16 := by decide
/-- P1, step 4, and section 2.5. -/
theorem test_readBer :
    seen (exec .readBer (timed [1000#64] 1 [0x0A#8, 0x00#8, 0xF4#8, 0x01#8, 0x00#8, 0x20#8, 0x4E#8])) =
      some ([.time 1000#64,
        .read 0x800032#24 7 (some [0x0A#8, 0x00#8, 0xF4#8, 0x01#8, 0x00#8, 0x20#8, 0x4E#8])],
        [[0x00#8, 0x24#8, 0xD4#8, 0xF8#8, 0xFF#8]], .unconfigured) := by decide
theorem test_readBer_values :
    berOf ⟨2#16, 0#24, 1#16⟩ = 0xFFFFFFFF#32 ∧ abortOf ⟨2#16, 0#24, 1#16⟩ = 1000#32 ∧
    berOf ⟨5#16, 0#24, 10000#16⟩ = 0xFFDF3780#32 ∧ berOf ⟨0#16, 0xFFFFFF#24, 0xFFFF#16⟩ = 0xFFFFFC00#32 := by
  decide
theorem test_readUcb_wraps :
    (seen (exec .readUcb { timed [1000#64] 1 [0x05#8, 0x00#8, 0x00#8, 0x00#8, 0x00#8, 0x10#8, 0x27#8] with
      ucb := 0xFFFFFFFE#32 })).map (·.2.1) = some [[0x00#8, 0x03#8, 0x00#8, 0x00#8, 0x00#8]] := by decide
theorem test_readUcb_throttle :
    refreshDue (some 1000#64) 1499#64 = false ∧ refreshDue (some 1000#64) 1500#64 = true ∧
    refreshDue (some 1000#64) 0xFFFFFFFFFFFFFFFF#64 = true ∧ refreshDue none 0#64 = true := by decide
/-- Section 2.6. -/
theorem test_setPidFilter :
    seen (exec (.setPidFilter 3#8 0x0100#16 true) (ready 3 [])) =
      some ([.write 0x80F996#24 [0x00#8, 0x01#8] true, .write 0x80F994#24 [0x01#8] true, .write 0x80F995#24 [0x03#8] true],
        [[0x00#8]], .unconfigured) := by decide
theorem test_setPidFilter_no_pid :
    seen (exec (.setPidFilter 3#8 0x2000#16 true) (ready 3 [])) = some ([], [[0x00#8]], .unconfigured) := by decide
theorem test_setPidFilterEnabled :
    seen (exec (.setPidFilterEnabled false) (ready 2 [0xFF#8])) =
      some ([.read 0x80F993#24 1 (some [0xFF#8]), .write 0x80F993#24 [0xFE#8] true], [[0x00#8]], .unconfigured) := by
  decide
theorem test_i2cGateCtrl :
    seen (exec (.i2cGateCtrl true) (ready 2 [0x00#8])) =
      some ([.read 0x00FA04#24 1 (some [0x00#8]), .write 0x00FA04#24 [0x01#8] true], [[0x00#8]], .unconfigured) := by
  decide
theorem test_i2cGateCtrl_read_fails :
    seen (exec (.i2cGateCtrl true) failing) =
      some ([.read 0x00FA04#24 1 none], [[0x02#8, 0x0C#8, 0x01#8, 0x03#8]], .unconfigured) := by decide

/-! ### The text form (30_encoding.md R68) -/

theorem test_assemble_comment_and_hex :
    assembleLine ['I','2','C','_','G','A','T','E','_','C','T','R','L',' ','0','x','1',' ',';',' ','o','n'] =
      .frame [0x0C#8, 0x01#8] := by decide
theorem test_assemble_refuses :
    assembleLine ['I','2','C','_','G','A','T','E','_','C','T','R','L',' ','2'] = .refused ∧
    assembleLine ['I','N','I','T',' ','1'] = .refused ∧ assembleLine ['U','O','P'] = .refused := by decide

/-! ### Witnesses: for each statement with hypotheses, values that meet all of them (each clause, at its bounds) -/

/-- The reset state with frames waiting. -/
def withFrames (fs : List (List Byte)) : State := { State.reset with frames := fs }

/-- A command runs. -/
def running (o : Opcode) (k : Nat) (acks : List Bool) (bytes : List Byte) : State :=
  { State.reset with seq := .running o k, env := { Env.start with acks := acks, bytes := bytes } }

theorem witness_DecodeOfEncode :
    Instr.WellFormed (.uopRegRead 0xFFFFFF#24 (2 ^ 32 - 1)) = true ∧ Instr.WellFormed (.uopFpDivide 0#32 1#32 31#5) = true ∧
    Instr.WellFormed (.setPidFilter 0xFF#8 0xFFFF#16 true) = true ∧
    isMicroOp (opcodeOfInstr (.setPidFilter 0xFF#8 0xFFFF#16 true)) = false := by decide

theorem witness_AcceptedFrameIsItsCommand :
    decodeFrame [0x0A#8, 0xFF#8, 0xFF#8, 0xFF#8, 0x01#8] = .ok (.setPidFilter 0xFF#8 0xFFFF#16 true) := rfl

/-- Both ends of the reserved opcodes, a length one too long, `en` one too large, and a legal frame. -/
theorem witness_IllegalFramesOnlyAnswered :
    (∀ f ∈ [[0x00#8], [0x0D#8], [0xFF#8], [0x0C#8, 0x01#8, 0x00#8], [0x0C#8, 0x02#8], [0x0C#8, 0x01#8]],
      Idle (withFrames [f]) ∧ (withFrames [f]).frames = f :: []) ∧
    (0x00#8 = 0x00#8 ∧ 0x0D#8 ≤ 0x0D#8 ∧ 0x0D#8 ≤ 0xFF#8 ∧ ¬0x0D#8 ≤ 0x0C#8) ∧
    [0x01#8, 0x00#8].length + 1 ≠ frameLength 0x0C#8 ∧
    ([0x02#8].length + 1 = frameLength 0x0C#8 ∧ 0x01#8 < [0x02#8].getLastD 0x00#8) ∧
    ¬0x01#8 < [0x01#8].getLastD 0x00#8 :=
  ⟨fun _ _ => ⟨⟨rfl, rfl⟩, rfl⟩, by decide, by decide, by decide, by decide⟩

theorem witness_AssembledLineIsLegalFrame :
    assembleLine [' ','R','E','A','D','_','U','C','B',';','x'] = .frame [0x09#8] ∧
    firstWord [' ','R','E','A','D','_','U','C','B',';','x'] = ['R','E','A','D','_','U','C','B'] := by decide

theorem witness_StepRunsDecoded :
    (Idle (withFrames [[0x0C#8, 0x01#8]]) ∧ (withFrames [[0x0C#8, 0x01#8]]).frames = [0x0C#8, 0x01#8] :: [] ∧
      decodeFrame [0x0C#8, 0x01#8] = .ok (.i2cGateCtrl true)) ∧
    ({ State.reset with issue := some [0x84#8] }.issue = some [0x84#8] ∧ decode [0x84#8] = .ok (.uopRegWriteTable []) ∧
      isMicroOp (opcodeOfInstr (.uopRegWriteTable [])) = true) :=
  ⟨⟨⟨rfl, rfl⟩, rfl, rfl⟩, rfl, rfl, rfl⟩

theorem witness_BlockWaits :
    (Idle State.reset ∧ State.reset.frames = []) ∧
    ((running .sleep 3 [] []).issue = none ∧ (running .sleep 3 [] []).seq = .running .sleep 3) :=
  ⟨⟨⟨rfl, rfl⟩, rfl⟩, rfl, rfl⟩

/-- Construction arguments with a clock and a mode. -/
def args (clock : U32) (mode : BitVec 2) : CfgArgs := ⟨clock, 0x38#8, mode, 1#1, 1#1, 1#1, 0#1, 0#1⟩

theorem witness_ConstructionChecksThenState :
    (args 12000001#32 3#2).clockHz ≠ Config.tp.supportedClockHz ∧
    ((args 12000000#32 3#2).clockHz = Config.tp.supportedClockHz ∧ (args 12000000#32 3#2).tsMode = 3#2) ∧
    ((args 12000000#32 2#2).clockHz = Config.tp.supportedClockHz ∧ (args 12000000#32 2#2).tsMode ≠ 3#2) := by decide

theorem witness_ConstructionEstablishesInv :
    ∃ s, construct Config.tp (args 12000000#32 2#2) Env.start = .ok s ∧ s.tsSerial = true := ⟨_, rfl, rfl⟩

/-- A state a run has used: tuned, with a time sample in its trace. -/
def used : State :=
  { withFrames [[0x09#8]] with
    cachedBw := 8000000#32, lastStat := some 5#64, trace := [.time 5#64, .write 0xFFFFFF#24 [1#8] false]
    env := { Env.start with now := 7#64, times := [6#64] } }

theorem witness_StepKeepsInv : BlockInv used ∧ ∃ t, step used = .next t ∧ t.trace.length = 3 :=
  ⟨⟨⟨rfl, rfl⟩, ⟨rfl, rfl⟩, .inr rfl,
    ⟨List.pairwise_singleton _ _, fun t h => by rw [List.mem_singleton.mp h]; decide,
      fun t h => by cases h; exact List.mem_singleton.mpr rfl⟩,
    fun e he => by
      simp only [used, List.mem_cons, List.not_mem_nil, or_false] at he
      rcases he with rfl | rfl
      · trivial
      · exact (by decide : BurstLegal 0xFFFFFF#24 1)⟩, _, rfl, rfl⟩

theorem witness_ConfigurationNeverWritten : ∃ t, exec .init failing = .next t := ⟨_, rfl⟩

theorem witness_OnlyTheirCommandsWrite :
    (∃ t, exec .sleep failing = .next t) ∧ opcodeOfInstr .sleep ≠ .readBer ∧ opcodeOfInstr .sleep ≠ .readUcb ∧
    opcodeOfInstr .sleep ≠ .init ∧ opcodeOfInstr .sleep ≠ .setFrontend :=
  ⟨⟨_, rfl⟩, by decide⟩

theorem witness_UcbAccumulates :
    ∃ t, exec .readUcb (timed [0#64] 1 [1#8, 0#8, 0#8, 0#8, 0#8, 2#8, 0#8]) = .next t ∧ t.ucb = 1#32 := ⟨_, rfl, rfl⟩

theorem witness_ControlStateTable :
    (isMicroOp (opcodeOfInstr .sleep) = false ∧ ∃ t, exec .sleep failing = .next t) ∧
    (isMicroOp (opcodeOfInstr (.setFrontend 0#32 0#32)) = false ∧ State.reset.fsm ≠ .active ∧
      ∃ t, exec (.setFrontend 0#32 0#32) State.reset = .next t) ∧
    (Idle (withFrames [[0x0D#8]]) ∧ (withFrames [[0x0D#8]]).frames = [0x0D#8] :: [] ∧
      decodeFrame [0x0D#8] = .error (.opcode 0x0D#8) ∧ ∃ t, step (withFrames [[0x0D#8]]) = .next t) :=
  ⟨⟨rfl, _, rfl⟩, ⟨rfl, by decide, _, rfl⟩, ⟨rfl, rfl⟩, rfl, rfl, _, rfl⟩

theorem witness_CommandAnswersOnce :
    isMicroOp (opcodeOfInstr .readSnr) = false ∧ ∃ t, exec .readSnr failing = .next t := ⟨rfl, _, rfl⟩

theorem witness_ErrorsOfEachCommand :
    isMicroOp (opcodeOfInstr .readSnr) = false ∧ failing.params.regs.fits failing.params.nCoeff = true ∧
    ∃ t, exec .readSnr failing = .next t := ⟨rfl, by decide, _, rfl⟩

theorem witness_FailedTransactionIsLast :
    isMicroOp (opcodeOfInstr (.i2cGateCtrl true)) = false ∧
    ∃ t, exec (.i2cGateCtrl true) (running .init 1 [true, false] [0#8]) = .next t ∧ t.trace.length = 2 :=
  ⟨rfl, _, rfl, rfl⟩

theorem witness_RaisingAnError : (running .init 11 [] []).seq = .running .init 11 := rfl

theorem witness_InitCompletes :
    tunerTableFor (ready 13 []).params (ready 13 []).cfg.tuner = some [⟨0x800200#24, 0x44#8⟩] ∧
    (∀ w ∈ initPlan (ready 13 []) [⟨0x800200#24, 0x44#8⟩], plannedFits w = true) ∧
    AcksReady (ready 13 []) (planCount (initPlan (ready 13 []) [⟨0x800200#24, 0x44#8⟩])) := ⟨rfl, by decide, rfl⟩

/-- CFG-A with a tuner byte that has no table. -/
def strange (n : Nat) : State := { ready n [] with cfg := { Config.cfgA with tuner := 0x99#8 } }

theorem witness_InitUnsupportedTuner :
    (∀ r ∈ (strange 12).params.tunerTables, r.1 ≠ (strange 12).cfg.tuner) ∧
    (∀ w ∈ initPlanChip (strange 12), plannedFits w = true) ∧
    AcksReady (strange 12) (planCount (initPlanChip (strange 12))) := ⟨by decide, by decide, rfl⟩

theorem witness_FailedInitOrSleepUnconfigures :
    ∃ t, exec .init failing = .next t ∧ t.responses = failing.responses ++ [[0x02#8, 0x01#8, 0x01#8, 0x02#8]] ∧
      [0x02#8, 0x01#8, 0x01#8, 0x02#8].head? ≠ some 0x00#8 := ⟨_, rfl, rfl, by decide⟩

/-- Acknowledged on the first, the 99th and the last allowed poll. -/
theorem witness_SleepCompletes :
    ∀ n ∈ [0, 98, 99],
      let vs := List.replicate n 0x01#8
      let s := ready (5 + n) (vs ++ [0x00#8])
      vs.length < 100 ∧ (vs.length + 1 < 100 ∨ s.params.sleepLastPollOk = true) ∧ (∀ v ∈ vs, v ≠ 0x00#8) ∧
      s.env.bytes = vs ++ 0x00#8 :: [] ∧ AcksReady s (3 + vs.length + planCount (sleepGatePlan s)) := by
  intro n hn vs s
  refine ⟨?_, .inr rfl, fun v hv => ?_, rfl, ?_⟩
  · simp only [vs, List.length_replicate]; revert n; decide
  · rw [List.eq_of_mem_replicate hv]; decide
  · simp only [List.mem_cons, List.not_mem_nil, or_false] at hn
    rcases hn with rfl | rfl | rfl <;> rfl

/-- No acknowledgment, and one on poll 100 that does not count (95_test_vectors.md P3-L). -/
theorem witness_SleepTimesOut :
    let vs := List.replicate 99 0x01#8
    let s := ready 102 (vs ++ [0xFF#8])
    let u := strictPoll (ready 102 (vs ++ [0x00#8]))
    vs.length = 99 ∧ (∀ v ∈ vs, v ≠ 0x00#8) ∧
    ((0xFF#8 ≠ 0x00#8 ∨ s.params.sleepLastPollOk = false) ∧ s.env.bytes = vs ++ 0xFF#8 :: [] ∧ AcksReady s 102) ∧
    ((0x00#8 ≠ 0x00#8 ∨ u.params.sleepLastPollOk = false) ∧ u.env.bytes = vs ++ 0x00#8 :: [] ∧ AcksReady u 102) :=
  ⟨rfl, fun v hv => by rw [List.eq_of_mem_replicate hv]; decide, ⟨.inl (by decide), rfl, rfl⟩, ⟨.inr rfl, rfl, rfl⟩⟩

theorem witness_TuneRefusedUnlessActive : State.reset.fsm ≠ .active := by decide

theorem witness_TuneRefusesOtherBandwidths :
    (active 0 []).fsm = .active ∧ 6000001#32 ≠ 6000000#32 ∧ 6000001#32 ≠ 7000000#32 ∧ 6000001#32 ≠ 8000000#32 := by decide

/-- Tuned to 6 MHz. -/
def tuned (n : Nat) : State := { active n [] with cachedBw := 6000000#32 }

theorem witness_TuneAtCachedBandwidth :
    (tuned 8).fsm = .active ∧ 6000000#32 = (tuned 8).cachedBw ∧
    (6000000#32, 0x00#8) ∈ [(6000000#32, 0x00#8), (7000000#32, 0x01#8), (8000000#32, 0x02#8)] ∧
    AcksReady (tuned 8) (planCount (tunePlan (tuned 8).params 0x00#8 230000000#32)) ∧
    .burst 0x80004B#24 [0x00#8] ∈ tunePlan (tuned 8).params 0x00#8 230000000#32 :=
  ⟨rfl, rfl, by decide, rfl, by decide⟩

theorem witness_TuneAtNewBandwidth :
    (tuned 10).fsm = .active ∧ 8000000#32 ≠ (tuned 10).cachedBw ∧
    (8000000#32, 0x02#8) ∈ [(6000000#32, 0x00#8), (7000000#32, 0x01#8), (8000000#32, 0x02#8)] ∧
    adcFor (tuned 10).params (tuned 10).cfg.clockHz ≠ 0#32 ∧
    BurstLegal (tuned 10).params.regs.coeff (coeffFor (tuned 10).params (tuned 10).cfg.clockHz 8000000#32).length ∧
    BurstLegal (tuned 10).params.regs.freqCw 3 ∧
    AcksReady (tuned 10) (2 + planCount (tunePlan (tuned 10).params 0x02#8 230000001#32)) ∧
    .burst 0x80004B#24 [0x01#8] ∈ tunePlan (tuned 10).params 0x02#8 230000001#32 :=
  ⟨rfl, by decide, by decide, by decide, by decide, by decide, rfl, by decide⟩

/-- At the cached bandwidth the first write fails: TUNE.15, step 15. At another one the first write is TUNE.4. -/
theorem witness_FailedTuneCachedBandwidth :
    let s : State := { tuned 0 with env := { Env.start with acks := [false] } }
    s.fsm = .active ∧
    (∃ t, exec (.setFrontend 6000000#32 0#32) s = .next t ∧
      t.responses = s.responses ++ [[0x02#8, 0x03#8, 0x0F#8, 0x03#8]] ∧ 15#8 ≤ 0x0F#8) ∧
    (∃ t, exec (.setFrontend 7000000#32 0#32) s = .next t ∧
      t.responses = s.responses ++ [[0x02#8, 0x03#8, 0x04#8, 0x02#8]] ∧ 0x04#8 ≤ 13#8) :=
  ⟨rfl, ⟨_, rfl, rfl, by decide⟩, ⟨_, rfl, rfl, by decide⟩⟩

theorem witness_TuneEventCounts :
    let s : State := { tuned 8 with env := { Env.start with acks := List.replicate 8 true, bytes := [0#8, 0#8] } }
    s.fsm = .active ∧ ∃ t, exec (.setFrontend 6000000#32 0#32) s = .next t ∧ t.responses = s.responses ++ [[0x00#8]] :=
  ⟨rfl, _, rfl, rfl⟩

theorem witness_TuneStopsOnlyOnZeroAdc :
    let s : State := { tuned 0 with params := { Config.tp with clockAdc := ⟨⟨12000000#32, 0#32⟩, []⟩ } }
    (s.fsm = .active ∧ 8000000#32 ∈ [6000000#32, 7000000#32, 8000000#32] ∧ 8000000#32 ≠ s.cachedBw ∧
      adcFor s.params s.cfg.clockHz = 0#32) ∧
    adcFor (tuned 0).params (tuned 0).cfg.clockHz ≠ 0#32 := by decide

/-- At the half of the ADC frequency, and one above it. -/
theorem witness_FoldedIf :
    20250000#32 ≠ 0#32 ∧ (10125000 : Int) ≤ (((20250000#32).toNat / 2 : Nat) : Int) ∧
    (((20250000#32).toNat / 2 : Nat) : Int) < 10125001 := by decide

theorem witness_FrequencyControlBytes :
    20250000#32 ≠ 0#32 ∧
    ((-2 ^ 31 : Int) ≤ -2147483648 ∧ (-2147483648 : Int) < 2 ^ 31 ∧
      (-2147483648 : Int) = foldIf 20250000#32 (-2147483648)) ∧
    ((-2 ^ 31 : Int) ≤ 2147483647 ∧ (2147483647 : Int) < 2 ^ 31 ∧ (983647 : Int) = foldIf 20250000#32 2147483647) := by
  decide

theorem witness_FoldedIfZero : 20250000#32 ≠ 0#32 := by decide

theorem witness_DividerClosedForm :
    (0x7FFFFFFF#32).toNat < 2 ^ 31 ∧ 0 < (0x7FFFFFFF#32).toNat ∧ 31 ≤ 31 ∧ 1 ≤ 1 ∧
    (0x7FFFFFFF#32).toNat * 2 ^ 1 / (0x7FFFFFFF#32).toNat < 2 ^ 32 := by decide

theorem witness_FpDivideCompletes : 0#32 = 0#32 ∧ 1#32 ≠ 0#32 := by decide

theorem witness_GetFrontendCompletes :
    ReadLegal (ready 1 []).params.regs.tpsStatus 8 ∧ (drawAck (ready 1 []).env).1 = true := by decide

theorem witness_ReadStatusCompletes :
    ((ready 1 [0x02#8]).env.bytes = 0x02#8 :: [] ∧ AcksReady (ready 1 [0x02#8]) 1) ∧
    (0x03#8 ≠ 0x02#8 ∧ (ready 3 [0x03#8, 0x00#8, 0xFF#8]).env.bytes = 0x03#8 :: 0x00#8 :: 0xFF#8 :: [] ∧
      AcksReady (ready 3 [0x03#8, 0x00#8, 0xFF#8]) 3) := ⟨⟨rfl, rfl⟩, by decide, rfl, rfl⟩

theorem witness_ReadSnrCompletes :
    ReadLegal (ready 2 [1#8, 2#8, 3#8, 4#8]).params.regs.snrValue 3 ∧
    (ready 2 [1#8, 2#8, 3#8, 4#8]).env.bytes = 1#8 :: 2#8 :: 3#8 :: 4#8 :: [] ∧
    AcksReady (ready 2 [1#8, 2#8, 3#8, 4#8]) 2 := ⟨by decide, rfl, rfl⟩

theorem witness_ReadSignalStrengthCompletes :
    (ready 1 [0xFF#8]).env.bytes = 0xFF#8 :: [] ∧ AcksReady (ready 1 [0xFF#8]) 1 := ⟨rfl, rfl⟩

theorem witness_StatusReadFails :
    (Instr.readSnr, failing.params.regs.snrValue, 3) ∈
      [(Instr.getFrontend, failing.params.regs.tpsStatus, 8), (Instr.readStatus, failing.params.regs.rcs, 1),
        (Instr.readSnr, failing.params.regs.snrValue, 3), (Instr.readSignalStrength, failing.params.regs.strength, 1)] ∧
    ReadLegal failing.params.regs.snrValue 3 ∧ (drawAck failing.env).1 = false := by decide

/-- No refresh yet, and exactly 500 ms after the last; a time input that falls behind (log 5). -/
theorem witness_StatisticsRefresh :
    let s := timed [3#64] 1 [0#8, 0#8, 0#8, 0#8, 0#8, 0#8, 0#8]
    let u : State := { s with lastStat := some 0#64, env := { s.env with now := 500#64 } }
    (3#64 = laterOf s.env.now (drawTime s.env).1 ∧ s.lastStat = none ∧ ReadLegal s.params.regs.stat 7 ∧
      AcksReady s 1 ∧ s.env.bytes = 0#8 :: 0#8 :: 0#8 :: 0#8 :: 0#8 :: 0#8 :: 0#8 :: []) ∧
    (500#64 = laterOf u.env.now (drawTime u.env).1 ∧ (∃ t', u.lastStat = some t' ∧ t'.toNat + 500 ≤ (500#64).toNat) ∧
      ReadLegal u.params.regs.stat 7 ∧ AcksReady u 1 ∧
      u.env.bytes = 0#8 :: 0#8 :: 0#8 :: 0#8 :: 0#8 :: 0#8 :: 0#8 :: []) :=
  ⟨⟨rfl, rfl, by decide, rfl, rfl⟩, rfl, ⟨0#64, rfl, by decide⟩, by decide, rfl, rfl⟩

theorem witness_StatisticsThrottled :
    let s : State := { timed [499#64] 0 [] with lastStat := some 0#64 }
    499#64 = laterOf s.env.now (drawTime s.env).1 ∧ s.lastStat = some 0#64 ∧ (499#64).toNat < (0#64).toNat + 500 :=
  ⟨rfl, rfl, by decide⟩

theorem witness_FailedRefreshWritesNothing :
    let s : State := { failing with env := { failing.env with times := [9#64] } }
    ∃ t, exec .readUcb s = .next t ∧ t.responses = s.responses ++ [[0x02#8, 0x09#8, 0x02#8, 0x03#8]] ∧
      [0x02#8, 0x09#8, 0x02#8, 0x03#8].head? ≠ some 0x00#8 := ⟨_, rfl, rfl, by decide⟩

theorem witness_SetPidFilterCompletes :
    0x1FFF < (0x2000#16).toNat ∧ (0x1FFF#16).toNat ≤ 0x1FFF ∧ BurstLegal (ready 3 []).params.regs.pidValue 2 ∧
    AcksReady (ready 3 []) 3 := ⟨by decide, by decide, by decide, rfl⟩

theorem witness_EnableBitCompletes :
    (Instr.i2cGateCtrl true, (ready 2 [0xFF#8]).params.regs.i2cGate) ∈
      [(Instr.setPidFilterEnabled true, (ready 2 [0xFF#8]).params.regs.pidCtrl),
        (Instr.i2cGateCtrl true, (ready 2 [0xFF#8]).params.regs.i2cGate)] ∧
    (ready 2 [0xFF#8]).env.bytes = 0xFF#8 :: [] ∧ AcksReady (ready 2 [0xFF#8]) 2 := ⟨by decide, rfl, rfl⟩

/-- A burst of 64 that ends at the last register. -/
theorem witness_RegWriteCompletes :
    BurstLegal 0xFFFFC0#24 (List.replicate 64 0xAA#8).length ∧ (drawAck (ready 1 []).env).1 = true := by decide

theorem witness_RegReadCompletes :
    ReadLegal 0xFFFFFE#24 2 ∧ (drawAck (ready 1 [0x11#8, 0x22#8]).env).1 = true ∧
    (ready 1 [0x11#8, 0x22#8]).env.bytes = [0x11#8, 0x22#8] ++ [] ∧ [0x11#8, 0x22#8].length = 2 := by decide

theorem witness_RegWriteMaskedCompletes :
    (0xFF#8 = 0xFF#8 ∧ AcksReady (ready 1 []) 1) ∧
    (0xFE#8 ≠ 0xFF#8 ∧ (ready 2 [0x3C#8]).env.bytes = 0x3C#8 :: [] ∧ AcksReady (ready 2 [0x3C#8]) 2) :=
  ⟨⟨rfl, rfl⟩, by decide, rfl, rfl⟩

theorem witness_RegReadMaskedCompletes :
    (ready 1 [0x65#8]).env.bytes = 0x65#8 :: [] ∧ AcksReady (ready 1 [0x65#8]) 1 ∧
    (0x80#8).getLsbD 7 = true ∧ (∀ j < 7, (0x80#8).getLsbD j = false) := ⟨rfl, rfl, by decide, by decide⟩

theorem witness_RegWriteTableCompletes :
    (∀ g ∈ tableBursts [⟨0x10#24, 1#8⟩, ⟨0x11#24, 2#8⟩, ⟨0x13#24, 3#8⟩], g.2.length ≤ 64) ∧
    AcksReady (ready 2 []) (tableBursts [⟨0x10#24, 1#8⟩, ⟨0x11#24, 2#8⟩, ⟨0x13#24, 3#8⟩]).length := ⟨by decide, rfl⟩

theorem witness_MaskedReadFailureWritesNothing :
    (running .setFrontend 15 [false] []).seq = .running .setFrontend 15 ∧
    (drawAck (running .setFrontend 15 [false] []).env).1 = false ∧ 0x03#8 ≠ 0xFF#8 := by decide

theorem witness_TableStopsAtFailedBurst :
    let s := running .init 7 [true, false] []
    s.seq = .running .init 7 ∧
    tableBursts [⟨0x10#24, 1#8⟩, ⟨0x12#24, 2#8⟩, ⟨0x14#24, 3#8⟩] =
      [(0x10#24, [1#8])] ++ (0x12#24, [2#8]) :: [(0x14#24, [3#8])] ∧
    (∀ h ∈ [((0x10 : Addr), [1#8])], h.2.length ≤ 64) ∧ [2#8].length ≤ 64 ∧
    s.env.acks.take (1 + 1) = List.replicate 1 true ++ [false] := by decide

/-- 65 entries at rising addresses after a group of one. -/
def longTable : List RegValue :=
  ⟨0x10#24, 1#8⟩ :: (List.range 65).map fun k => ⟨BitVec.ofNat 24 (0x20 + k), 2#8⟩

theorem witness_TableStopsAtFailedBurst_long :
    let s := running .init 7 [true] []
    s.seq = .running .init 7 ∧
    tableBursts longTable = [(0x10#24, [1#8])] ++ (0x20#24, List.replicate 65 2#8) :: [] ∧
    (∀ h ∈ [((0x10 : Addr), [1#8])], h.2.length ≤ 64) ∧ 64 < (List.replicate 65 2#8).length ∧
    AcksReady s [((0x10 : Addr), [1#8])].length :=
  ⟨rfl, by rfl, by decide, by decide, rfl⟩

theorem witness_MicroOpErrorEndsCommand :
    (running .sleep 3 [false] []).seq = .running .sleep 3 ∧
    (¬BurstLegal 0xFFFFFF#24 [1#8, 2#8].length ∧ ¬BurstLegal 0#24 ([] : List Byte).length ∧ ¬BurstLegal 0#24 (List.replicate 65 1#8).length) ∧
    BurstLegal 0xFFFFFF#24 [1#8].length ∧ (¬ReadLegal 0xFFFFFF#24 2 ∧ ¬ReadLegal 0#24 0) ∧ ReadLegal 0xFFFFFF#24 1 ∧
    (drawAck (running .sleep 3 [false] []).env).1 = false := by decide

end Sys2Proof.Tests
end

