-- ==== Sys2Proof/Proofs/Construct.lean ====
section
/-! SUPPORT. Construction (70_reset_and_hazards.md R161): the mode an encoding stands for, what `construct` answers, and the
settled statement about the state of 10_state.md R42. -/

namespace Sys2Proof.Machine

/-! ### The encoding of a transport-stream mode (10_state.md R14) -/

/-- The `ts_mode` encoding of a mode: the inverse of `tsModeOf` on the legal encodings. -/
def tsModeBits : TsMode → BitVec 2
  | .usb => 0#2
  | .parallel => 1#2
  | .serial => 2#2

theorem tsModeOf_eq_none_iff (b : BitVec 2) : tsModeOf b = none ↔ b = 3#2 := by
  revert b; decide

theorem tsModeOf_eq_some_iff (b : BitVec 2) (m : TsMode) : tsModeOf b = some m ↔ b = tsModeBits m := by
  revert b; cases m <;> decide

/-- Where an encoding stands for a mode, asking for a mode is asking for its bits. -/
theorem mode_eq_iff_bits {b : BitVec 2} {m : TsMode} (hm : tsModeOf b = some m) (m' : TsMode) :
    m = m' ↔ b = tsModeBits m' := by
  rw [← tsModeOf_eq_some_iff, hm, Option.some_inj]

/-! ### What construction answers (R161) -/

theorem construct_of_clock_ne {p : Params} {a : CfgArgs} (e : Env) (hclock : a.clockHz ≠ p.supportedClockHz) :
    construct p a e = .error .clock := if_pos hclock

/-- Past the clock check only the mode decides. -/
theorem construct_of_mode_none {p : Params} {a : CfgArgs} (e : Env) (hclock : a.clockHz = p.supportedClockHz)
    (hmode : tsModeOf a.tsMode = none) : construct p a e = .error .tsMode := by
  simp [construct, hclock, hmode]

theorem construct_of_mode_some {p : Params} {a : CfgArgs} {m : TsMode} (e : Env)
    (hclock : a.clockHz = p.supportedClockHz) (hmode : tsModeOf a.tsMode = some m) :
    construct p a e = .ok (constructed p (cfgOf a m) e) := by
  simp [construct, hclock, hmode]

/-! ### The fields that construction computes from its arguments -/

theorem cfgOf_adcMult_eq_x2_iff (a : CfgArgs) (m : TsMode) : (cfgOf a m).adcMult = .x2 ↔ a.adcMult = 1#1 := by
  by_cases h : a.adcMult = 1#1 <;> simp [cfgOf, h]

theorem constructed_tsParallel_iff (p : Params) (c : Cfg) (e : Env) :
    (constructed p c e).tsParallel = true ↔ c.tsMode = .parallel := beq_iff_eq

theorem constructed_tsSerial_iff (p : Params) (c : Cfg) (e : Env) :
    (constructed p c e).tsSerial = true ↔ c.tsMode = .serial := beq_iff_eq

/-- Settles O8: the two refusals are the two checks in their order; past them the mode is the one its bits stand for, and
every other field of R42's table is a field of `constructed`. -/
theorem constructionChecksThenState : Obligations.ConstructionChecksThenState := by
  intro p a e
  refine ⟨construct_of_clock_ne e,
    fun hclock hmode => construct_of_mode_none e hclock ((tsModeOf_eq_none_iff _).mpr hmode), fun hclock hmode => ?_⟩
  obtain ⟨m, hm⟩ : ∃ m, tsModeOf a.tsMode = some m :=
    Option.ne_none_iff_exists'.mp (mt (tsModeOf_eq_none_iff _).mp hmode)
  have hbits := mode_eq_iff_bits hm
  exact ⟨constructed p (cfgOf a m) e, construct_of_mode_some e hclock hm,
    rfl, rfl, rfl, rfl,
    hbits .usb, hbits .parallel, hbits .serial,
    beq_iff_eq, cfgOf_adcMult_eq_x2_iff a m, beq_iff_eq, beq_iff_eq, beq_iff_eq,
    rfl, rfl, rfl,
    (constructed_tsParallel_iff p _ e).trans (hbits .parallel),
    (constructed_tsSerial_iff p _ e).trans (hbits .serial),
    rfl, rfl, rfl, rfl⟩

end Sys2Proof.Machine
end

