-- ==== Sys2Proof/Proofs/Frames.lean ====
section
/-! SUPPORT. Frames on the host port (30_encoding.md R63 to R69): what the operand bytes of a host row are read as, which
first bytes the port takes, and the settled statements about accepted and about illegal frames. -/

namespace Sys2Proof

/-! ### The `en` byte -/

theorem enableOf_eq_none_iff (b : Byte) : enableOf b = none ↔ 0x01#8 < b := by
  by_cases h0 : b = 0x00#8
  · simp [enableOf, h0]
  · by_cases h1 : b = 0x01#8
    · simp [enableOf, h1]
    · simp only [enableOf, h0, h1, if_false, true_iff]
      bv_omega

/-- The rows whose last operand byte is an `en` (R64: the formats FB and FP). -/
def takesEnable : Opcode → Bool
  | .setPidFilter | .setPidFilterEnabled | .i2cGateCtrl => true
  | _ => false

theorem takesEnable_iff_opcodeByte (o : Opcode) :
    takesEnable o = true ↔ opcodeByte o = 0x0A#8 ∨ opcodeByte o = 0x0B#8 ∨ opcodeByte o = 0x0C#8 := by
  cases o <;> decide

/-! ### What the operand bytes of a host row are read as -/

/-- The three answers to the operand bytes of a row, in the order of the checks (60_exceptions.md R146): a wrong length, an
illegal `en`, or the instruction of the row whose operands these bytes are. -/
inductive OperandsRead (o : Opcode) (ops : List Byte) : Except DecodeError Instr → Prop
  | length (hlen : ops.length + 1 ≠ rowLength o) : OperandsRead o ops (.error (.length (opcodeByte o)))
  | operand (hlen : ops.length + 1 = rowLength o) (hrow : takesEnable o = true) (hen : 0x01#8 < ops.getLastD 0x00#8) :
      OperandsRead o ops (.error (.operand (opcodeByte o)))
  | command (hlen : ops.length + 1 = rowLength o) (hen : takesEnable o = true → ¬0x01#8 < ops.getLastD 0x00#8)
      (i : Instr) (hrow : opcodeOfInstr i = o) (hbytes : encodeOperands i = ops) : OperandsRead o ops (.ok i)

theorem decodeF0_read {o : Opcode} (i : Instr) (hlen : rowLength o = 1) (hen : takesEnable o = false)
    (hrow : opcodeOfInstr i = o) (hbytes : encodeOperands i = []) (ops : List Byte) :
    OperandsRead o ops (decodeF0 o i ops) := by
  cases ops with
  | nil => exact .command (ops := []) hlen.symm (by simp [hen]) i hrow hbytes
  | cons b bs => exact .length (by simp [hlen])

theorem decodeFT_read (ops : List Byte) : OperandsRead .setFrontend ops (decodeFT ops) := by
  unfold decodeFT
  split
  case h_1 => exact .command rfl (fun h => by cases h) _ rfl (by simp [encodeOperands, leBytes_le32])
  case h_2 hshape =>
    refine .length fun hlen => ?_
    have h8 : ops.length = 8 := Nat.succ.inj hlen
    match ops, h8 with
    | [_, _, _, _, _, _, _, _], _ => exact hshape _ _ _ _ _ _ _ _ rfl

theorem decodeFP_read (ops : List Byte) : OperandsRead .setPidFilter ops (decodeFP ops) := by
  unfold decodeFP
  split
  case h_1 idx p0 p1 b =>
    cases hb : enableOf b with
    | none => exact .operand rfl rfl ((enableOf_eq_none_iff b).mp hb)
    | some en =>
      refine .command rfl (fun _ hlt => ?_) _ rfl ?_
      · simp [(enableOf_eq_none_iff b).mpr hlt] at hb
      · simp [encodeOperands, leBytes_le16, enableByte_of_enableOf hb]
  case h_2 hshape =>
    refine .length fun hlen => ?_
    have h4 : ops.length = 4 := Nat.succ.inj hlen
    match ops, h4 with
    | [_, _, _, _], _ => exact hshape _ _ _ _ rfl

theorem decodeFB_read {o : Opcode} (i : Bool → Instr) (hlen : rowLength o = 2) (hen : takesEnable o = true)
    (hrow : ∀ en, opcodeOfInstr (i en) = o) (hbytes : ∀ en, encodeOperands (i en) = [enableByte en]) (ops : List Byte) :
    OperandsRead o ops (decodeFB o i ops) := by
  unfold decodeFB
  split
  case h_1 b =>
    cases hb : enableOf b with
    | none => exact .operand (ops := [b]) hlen.symm hen ((enableOf_eq_none_iff b).mp hb)
    | some en =>
      refine .command (ops := [b]) hlen.symm (fun _ hlt => ?_) _ (hrow en) ?_
      · simp [(enableOf_eq_none_iff b).mpr hlt] at hb
      · rw [hbytes, enableByte_of_enableOf hb]
  case h_2 hshape =>
    refine .length fun h => ?_
    have h1 : ops.length = 1 := Nat.succ.inj (h.trans hlen)
    match ops, h1 with
    | [_], _ => exact hshape _ rfl

/-- What the operand bytes of a host command are read as: each row by its format (R64, R65). -/
theorem decodeOperands_read {o : Opcode} (hhost : isMicroOp o = false) (ops : List Byte) :
    OperandsRead o ops (decodeOperands o ops) := by
  cases o with
  | init | sleep | getFrontend | readStatus | readSnr | readSignalStrength | readBer | readUcb =>
    refine decodeF0_read _ rfl rfl ?_ ?_ ops <;> rfl
  | setFrontend => exact decodeFT_read ops
  | setPidFilter => exact decodeFP_read ops
  | setPidFilterEnabled | i2cGateCtrl => refine decodeFB_read _ rfl rfl ?_ ?_ ops <;> exact fun _ => rfl
  | uopRegWrite | uopRegRead | uopRegWriteMasked | uopRegReadMasked | uopRegWriteTable | uopFpDivide => cases hhost

/-! ### The first byte -/

/-- The twelve host rows are the opcodes 0x01 to 0x0C (R65), looked up for each of the 256 bytes. -/
theorem hostRow_iff (op : Byte) :
    (∃ o, opcodeOf op = some o ∧ isMicroOp o = false) ↔ ¬(op = 0x00#8 ∨ 0x0D#8 ≤ op) := by
  revert op; decide

/-- A host row fixes the length of its frame (R69). -/
theorem frameLength_of_hostRow {op : Byte} {o : Opcode} (hop : opcodeOf op = some o) (hhost : isMicroOp o = false) :
    frameLength op = rowLength o := by
  simp [frameLength, hop, hhost]

theorem frameLength_opcodeByte (o : Opcode) : frameLength (opcodeByte o) =
    if opcodeByte o = 0x03#8 then 9 else if opcodeByte o = 0x0A#8 then 5
    else if opcodeByte o = 0x0B#8 ∨ opcodeByte o = 0x0C#8 then 2 else 1 := by
  cases o <;> rfl

/-- The table of R69 for every first byte: a reserved one is not among the four that are longer than 1. -/
theorem frameLength_table (op : Byte) : frameLength op =
    if op = 0x03#8 then 9 else if op = 0x0A#8 then 5 else if op = 0x0B#8 ∨ op = 0x0C#8 then 2 else 1 := by
  cases hop : opcodeOf op with
  | some o => rw [← opcodeByte_of_opcodeOf hop, frameLength_opcodeByte]
  | none =>
    have hne (o : Opcode) : op ≠ opcodeByte o := fun h => by simp [h] at hop
    have h3 : op ≠ 0x03#8 := hne .setFrontend
    have hA : op ≠ 0x0A#8 := hne .setPidFilter
    have hB : op ≠ 0x0B#8 := hne .setPidFilterEnabled
    have hC : op ≠ 0x0C#8 := hne .i2cGateCtrl
    simp [frameLength, hop, h3, hA, hB, hC]

/-! ### What the port makes of a frame -/

/-- Past a first byte the port takes, the row reads the operand bytes. -/
theorem decodeFrame_read {op : Byte} {o : Opcode} (ops : List Byte) (hop : opcodeOf op = some o)
    (hhost : isMicroOp o = false) : OperandsRead o ops (decodeFrame (op :: ops)) := by
  have hdec : decodeFrame (op :: ops) = decodeOperands o ops := by simp [decodeFrame, hop, hhost]
  exact hdec ▸ decodeOperands_read hhost ops

/-- A first byte that is reserved or a micro-operation's is refused whatever follows it (R66). -/
theorem decodeFrame_of_not_hostRow {op : Byte} (ops : List Byte)
    (hop : ¬∃ o, opcodeOf op = some o ∧ isMicroOp o = false) : decodeFrame (op :: ops) = .error (.opcode op) := by
  obtain ⟨-, h⟩ | ⟨_, -, -, h⟩ | ⟨o, ho, hhost, -⟩ := decodeFrame_cases op ops
  · exact h
  · exact h
  · exact absurd ⟨o, ho, hhost⟩ hop

/-- An accepted frame is a host row's opcode and the operand bytes of its command. -/
theorem encode_of_decodeFrame {f : List Byte} {i : Instr} (h : decodeFrame f = .ok i) :
    encode i = f ∧ isMicroOp (opcodeOfInstr i) = false ∧ f.length = frameLength (f.headD 0x00#8) := by
  cases f with
  | nil => cases h
  | cons op ops =>
    by_cases hrow : ∃ o, opcodeOf op = some o ∧ isMicroOp o = false
    · obtain ⟨o, hop, hhost⟩ := hrow
      have hread := decodeFrame_read ops hop hhost
      rw [h] at hread
      cases hread with
      | command hlen _ _ hrow hbytes =>
        refine ⟨?_, hrow ▸ hhost, hlen.trans (frameLength_of_hostRow hop hhost).symm⟩
        rw [encode, hrow, hbytes, opcodeByte_of_opcodeOf hop]
    · cases (decodeFrame_of_not_hostRow ops hrow).symm.trans h

/-- Settles O2: what the operand bytes of a host row are read as gives the first part, the opcode map the table. -/
theorem acceptedFrameIsItsCommand : Obligations.AcceptedFrameIsItsCommand :=
  ⟨fun _ _ => encode_of_decodeFrame, frameLength_table⟩

end Sys2Proof

namespace Sys2Proof.Machine

/-! ### The step of an illegal frame (R66, 60_exceptions.md R146) -/

/-- Between commands the step serves the first waiting frame. -/
theorem step_of_idle {s : State} {f : List Byte} {rest : List (List Byte)} (hidle : Idle s)
    (hframes : s.frames = f :: rest) : step s = serveFrame f { s with frames := rest } := by
  obtain ⟨hseq, hissue⟩ := hidle
  simp [step, fetchAndRun, hseq, hissue, hframes]

/-- An error with no command running gives its response, at step 0, and writes nothing else. -/
theorem takeError_of_idle {s : State} (hseq : s.seq = .idle) (op : Byte) (r : Reason) :
    takeError op r s = { s with responses := s.responses ++ [errorFrame (op, 0) r] } := by
  simp [takeError, hseq, fsmAfterError, errorPlace]

/-- An illegal frame is answered with its opcode byte and the reason, and nothing else changes. -/
theorem step_of_illegalFrame {s : State} {op : Byte} {ops : List Byte} {rest : List (List Byte)} {e : DecodeError}
    (hidle : Idle s) (hframes : s.frames = (op :: ops) :: rest) (he : decodeFrame (op :: ops) = .error e) :
    step s = .next { s with
      frames := rest
      responses := s.responses ++ [errorFrame (op, 0) (illegalReason e)] } := by
  have hseq : ({ s with frames := rest } : State).seq = .idle := hidle.1
  simp only [step_of_idle hidle hframes, serveFrame, he, takeError_of_idle hseq, frameOpcode, List.headD_cons]

/-- Settles O4: by the first byte, and for a host row by the three answers to its operand bytes. -/
theorem illegalFramesOnlyAnswered : Obligations.IllegalFramesOnlyAnswered := by
  intro s op ops rest hidle hframes
  split
  case isTrue hbad =>
    have hop : ¬∃ o, opcodeOf op = some o ∧ isMicroOp o = false := fun h => (hostRow_iff op).mp h hbad
    exact step_of_illegalFrame hidle hframes (decodeFrame_of_not_hostRow ops hop)
  case isFalse hgood =>
    obtain ⟨o, hop, hhost⟩ := (hostRow_iff op).mpr hgood
    have hread := decodeFrame_read ops hop hhost
    have hen := takesEnable_iff_opcodeByte o
    rw [opcodeByte_of_opcodeOf hop] at hen
    rw [frameLength_of_hostRow hop hhost]
    generalize hdec : decodeFrame (op :: ops) = r at hread
    cases hread with
    | length hlen =>
      rw [if_pos (.inl hlen)]
      exact step_of_illegalFrame hidle hframes hdec
    | operand _ hrow hlt =>
      rw [if_pos (.inr ⟨hen.mp hrow, hlt⟩)]
      exact step_of_illegalFrame hidle hframes hdec
    | command hlen hle i =>
      rw [if_neg (not_or.mpr ⟨not_not.mpr hlen, fun ⟨hrow, hlt⟩ => hle (hen.mpr hrow) hlt⟩)]
      exact ⟨i, rfl⟩

end Sys2Proof.Machine
end

