-- ==== Sys2Proof/Proofs/Tuning.lean ====
section
/-! SUPPORT. SET_FRONTEND (43_tuning.md): the fold of TUNE.7, the state gate of TUNE.0, and the settled statements about
both. -/

namespace Sys2Proof.Machine

/-! ### The fold (R118) -/

theorem foldLoop_of_le {adc : Nat} {f : Int} (h : f ≤ (adc / 2 : Nat)) (fuel : Nat) : foldLoop adc fuel f = f := by
  cases fuel with
  | zero => rfl
  | succ fuel => exact if_neg (not_lt.mpr h)

theorem foldLoop_succ_of_gt {adc : Nat} {f : Int} (h : f > (adc / 2 : Nat)) (fuel : Nat) :
    foldLoop adc (fuel + 1) f = foldLoop adc fuel (f - adc) := if_pos h

/-- Whatever the fuel, what the loop takes away is a whole number of subtractions. -/
theorem foldLoop_eq_sub_mul (adc fuel : Nat) (f : Int) : ∃ k : Nat, foldLoop adc fuel f = f - k * adc := by
  induction fuel generalizing f with
  | zero => exact ⟨0, by simp [foldLoop]⟩
  | succ fuel ih =>
    by_cases h : f ≤ (adc / 2 : Nat)
    · exact ⟨0, by simp [foldLoop_of_le h]⟩
    · obtain ⟨k, hk⟩ := ih (f - adc)
      refine ⟨k + 1, ?_⟩
      rw [foldLoop_succ_of_gt (not_le.mp h), hk]
      push_cast
      ring

/-- The lower bound is an invariant of the loop: it subtracts only from values above the half. -/
theorem lt_foldLoop {adc : Nat} (fuel : Nat) {f : Int} (hf : ((adc / 2 : Nat) : Int) - adc < f) :
    ((adc / 2 : Nat) : Int) - adc < foldLoop adc fuel f := by
  induction fuel generalizing f with
  | zero => exact hf
  | succ fuel ih =>
    by_cases h : f ≤ (adc / 2 : Nat)
    · rwa [foldLoop_of_le h]
    · rw [foldLoop_succ_of_gt (not_le.mp h)]
      exact ih (by omega)

/-- The loop gets down to the half where the fuel has a subtraction for each multiple above it. -/
theorem foldLoop_le {adc : Nat} (fuel : Nat) {f : Int} (hf : f ≤ (adc / 2 : Nat) + fuel * adc) :
    foldLoop adc fuel f ≤ (adc / 2 : Nat) := by
  induction fuel generalizing f with
  | zero => simpa [foldLoop] using hf
  | succ fuel ih =>
    by_cases h : f ≤ (adc / 2 : Nat)
    · rwa [foldLoop_of_le h]
    · rw [foldLoop_succ_of_gt (not_le.mp h)]
      refine ih ?_
      push_cast at hf ⊢
      linarith

/-- The fuel `foldIf` gives covers the IF frequency. -/
theorem le_foldFuel_mul {adc : Nat} (hadc : 0 < adc) (f : Int) : f ≤ ((f.toNat / adc + 1 : Nat) : Int) * adc := by
  have hfuel : f.toNat ≤ (f.toNat / adc + 1) * adc := (Nat.lt_mul_of_div_lt (Nat.lt_succ_self _) hadc).le
  calc f ≤ (f.toNat : Int) := Int.self_le_toNat f
    _ ≤ ((f.toNat / adc + 1 : Nat) : Int) * adc := by exact_mod_cast hfuel

theorem foldIf_le {adc : U32} (hadc : adc ≠ 0#32) (f : Int) : foldIf adc f ≤ (adc.toNat / 2 : Nat) := by
  have hpos : 0 < adc.toNat := by bv_omega
  have hfuel := le_foldFuel_mul hpos f
  exact foldLoop_le _ (by omega)

theorem foldIf_of_le {adc : U32} {f : Int} (h : f ≤ (adc.toNat / 2 : Nat)) : foldIf adc f = f := foldLoop_of_le h _

theorem lt_foldIf {adc : U32} {f : Int} (h : ((adc.toNat / 2 : Nat) : Int) - adc.toNat < f) :
    ((adc.toNat / 2 : Nat) : Int) - adc.toNat < foldIf adc f := lt_foldLoop _ h

theorem foldIf_eq_sub_mul (adc : U32) (f : Int) : ∃ k : Nat, foldIf adc f = f - k * adc.toNat := foldLoop_eq_sub_mul _ _ f

/-- Settles O32: one lemma about the loop for each part; only the upper bound needs the fuel to suffice, so a positive ADC
frequency. -/
theorem foldedIf : Obligations.FoldedIf := by
  intro adc f hadc
  exact ⟨foldIf_le hadc f, foldIf_of_le, fun habove => lt_foldIf (by omega), foldIf_eq_sub_mul adc f⟩

/-! ### The state gate (R111) -/

theorem exec_setFrontend (bw freq : U32) (s : State) : exec (.setFrontend bw freq) s = execSetFrontend bw freq s := rfl

/-- A command whose steps raise ends in that error. -/
theorem command_of_error {op : Opcode} {body : M (List Byte)} {s s' : State} {r : Reason} (h : body s = .error r s') :
    command op body s = takeError (opcodeByte op) r s' := by
  simp [command, h]

/-- The gate raises at step 0, with nothing but the sequencer moved. -/
theorem tuneGate_of_not_active {s : State} (h : s.fsm ≠ .active) :
    tuneGate s = .error .notInitialized { s with seq := .running .setFrontend 0 } := by
  simp [tuneGate, h]

theorem tuneSteps_of_not_active {s : State} (h : s.fsm ≠ .active) (p : Params) (c : Cfg) (bw freq : U32) :
    tuneSteps p c bw freq s = .error .notInitialized { s with seq := .running .setFrontend 0 } :=
  bind_of_error (tuneGate_of_not_active h)

/-- A refused SET_FRONTEND does not get to the division, so a table with an ADC frequency of 0 does not stop it. -/
theorem tuneDivides_of_not_active {s : State} (h : s.fsm ≠ .active) (bw : U32) : tuneDivides s bw = false := by
  simp [tuneDivides, h]

/-- Settles O25: the gate ends the steps, and taking its error writes the sequencer and the response. -/
theorem tuneRefusedUnlessActive : Obligations.TuneRefusedUnlessActive := by
  intro s bw freq h
  have hnext : execSetFrontend bw freq s = .next (command .setFrontend (tuneSteps s.params s.cfg bw freq) s) := by
    simp [execSetFrontend, tuneDivides_of_not_active h]
  rw [exec_setFrontend, hnext, command_of_error (tuneSteps_of_not_active h _ _ bw freq)]
  rfl

end Sys2Proof.Machine
end

