-- ==== Sys2Proof/Proofs/Encoding.lean ====
section
/-! SUPPORT. The decoder undoes the encoder (30_encoding.md R63 to R65; the `UOP` records: log 7), and the settled statements
about both. -/

namespace Sys2Proof

/-! ### The records with more to them than their bytes -/

/-- A table's record is read entry by entry. -/
theorem tableEntries_flatMap (es : List RegValue) :
    tableEntries (es.flatMap fun e => leBytes 3 e.addr ++ [e.value]) = some es := by
  induction es with
  | nil => rfl
  | cons e es ih =>
    rw [List.flatMap_cons, leBytes_3]
    simp only [List.cons_append, List.nil_append, tableEntries, ih, Option.map_some, le24_byteAt]

/-- The byte that holds the number of fractional bits is below 32 and gives it back. -/
theorem fracBits_of_byte (x : BitVec 5) : (x.setWidth 8).toNat < 32 ∧ (x.setWidth 8).setWidth 5 = x := by
  have hx : (x.setWidth 8).toNat = x.toNat := by simp; omega
  exact ⟨hx ▸ x.isLt, BitVec.eq_of_toNat_eq (by simp)⟩

/-! ### The decoder on encoded operands -/

/-- Each row reads its own operand bytes; the two conditions of well-formedness are those of the `UOP` records. -/
theorem decodeOperands_encodeOperands (i : Instr) (h : i.WellFormed = true) :
    decodeOperands (opcodeOfInstr i) (encodeOperands i) = .ok i := by
  cases i with
  | init | sleep | getFrontend | readStatus | readSnr | readSignalStrength | readBer | readUcb => rfl
  | setFrontend bw freq =>
    simp [opcodeOfInstr, decodeOperands, encodeOperands, leBytes_4, decodeFT]
  | setPidFilter idx pid en =>
    simp [opcodeOfInstr, decodeOperands, encodeOperands, leBytes_2, decodeFP]
  | setPidFilterEnabled en | i2cGateCtrl en =>
    simp [opcodeOfInstr, decodeOperands, encodeOperands, decodeFB]
  | uopRegWrite addr bytes =>
    simp [opcodeOfInstr, decodeOperands, encodeOperands, leBytes_3, decodeRegWrite]
  | uopRegRead addr n =>
    have hn : n < 2 ^ 32 := of_decide_eq_true h
    simpa [opcodeOfInstr, decodeOperands, encodeOperands, leBytes_3, leBytes_4, decodeRegRead] using hn
  | uopRegWriteMasked addr value mask =>
    simp [opcodeOfInstr, decodeOperands, encodeOperands, leBytes_3, decodeRegWriteMasked]
  | uopRegReadMasked addr mask =>
    simp [opcodeOfInstr, decodeOperands, encodeOperands, leBytes_3, decodeRegReadMasked]
  | uopRegWriteTable entries =>
    simp only [opcodeOfInstr, decodeOperands, encodeOperands, decodeRegWriteTable, tableEntries_flatMap]
  | uopFpDivide a b x =>
    obtain ⟨hlt, hx⟩ := fracBits_of_byte x
    simp only [opcodeOfInstr, decodeOperands, encodeOperands, leBytes_4, List.cons_append, List.nil_append,
      decodeFpDivide, hlt, if_true, le32_byteAt, hx]

/-- The first byte picks the row. -/
theorem decode_encode (i : Instr) : decode (encode i) = decodeOperands (opcodeOfInstr i) (encodeOperands i) := by
  simp [encode, decode]

/-- The host port takes the first byte of a host command. -/
theorem decodeFrame_encode {i : Instr} (hhost : isMicroOp (opcodeOfInstr i) = false) :
    decodeFrame (encode i) = decodeOperands (opcodeOfInstr i) (encodeOperands i) := by
  simp [encode, decodeFrame, hhost]

/-- Settles O1: the first byte picks the row, and the row reads its own operand bytes. -/
theorem decodeOfEncode : Obligations.DecodeOfEncode := by
  intro i hwf
  have hops := decodeOperands_encodeOperands i hwf
  exact ⟨(decode_encode i).trans hops, fun hhost => (decodeFrame_encode hhost).trans hops⟩

/-- Settles O3: each frame is the encoding of the command it stands for. -/
theorem sampleFramesDecode : Obligations.SampleFramesDecode :=
  ⟨(decodeOfEncode .init rfl).2 rfl, (decodeOfEncode (.setFrontend 8000000#32 578000000#32) rfl).2 rfl,
    (decodeOfEncode .readBer rfl).2 rfl, (decodeOfEncode (.setPidFilter 3#8 0x0100#16 true) rfl).2 rfl,
    (decodeOfEncode (.i2cGateCtrl false) rfl).2 rfl⟩

end Sys2Proof
end

