-- ==== Sys2Proof/Proofs/Pieces.lean ====
section
/-! SUPPORT. Where a piece of a command can end: the events it adds, the step it stands at, the reasons it raises. Each
piece is described once, and the descriptions compose along a command's steps. -/

namespace Sys2Proof.Machine

/-! ### Where a piece ends -/

/-- Where a piece ends from a state: what its answer meets, and what its error meets. -/
def Ends {α : Type} (m : M α) (s : State) (ok : α → State → Prop) (err : Reason → State → Prop) : Prop :=
  (∀ a s', m s = .ok a s' → ok a s') ∧ ∀ r s', m s = .error r s' → err r s'

theorem Ends.of_ok {α : Type} {m : M α} {s s' : State} {a : α} {ok : α → State → Prop} {err : Reason → State → Prop}
    (h : m s = .ok a s') (hok : ok a s') : Ends m s ok err :=
  ⟨fun _ _ e => by rw [h] at e; cases e; exact hok, fun _ _ e => by rw [h] at e; cases e⟩

theorem Ends.of_error {α : Type} {m : M α} {s s' : State} {r : Reason} {ok : α → State → Prop}
    {err : Reason → State → Prop} (h : m s = .error r s') (herr : err r s') : Ends m s ok err :=
  ⟨fun _ _ e => (by rw [h] at e; cases e), fun _ _ e => by rw [h] at e; cases e; exact herr⟩

theorem Ends.bind {α β : Type} {m : M α} {f : α → M β} {s : State} {ok : α → State → Prop} {ok' : β → State → Prop}
    {err : Reason → State → Prop} (hm : Ends m s ok err) (hf : ∀ a s', ok a s' → Ends (f a) s' ok' err) :
    Ends (m >>= f) s ok' err := by
  rcases bind_cases m f s with ⟨r, s', h, e⟩ | ⟨a, s', h, e⟩
  · exact .of_error e (hm.2 r s' h)
  · have hrest := hf a s' (hm.1 a s' h)
    exact ⟨fun b t hb => hrest.1 b t (e ▸ hb), fun r t hr => hrest.2 r t (e ▸ hr)⟩

theorem Ends.mono {α : Type} {m : M α} {s : State} {ok ok' : α → State → Prop} {err err' : Reason → State → Prop}
    (h : Ends m s ok err) (hok : ∀ a s', ok a s' → ok' a s') (herr : ∀ r s', err r s' → err' r s') :
    Ends m s ok' err' :=
  ⟨fun a s' e => hok a s' (h.1 a s' e), fun r s' e => herr r s' (h.2 r s' e)⟩

/-! ### Events without a failed transaction, and events that end in one (60_exceptions.md R144, R147) -/

/-- The trace grew by events none of which is a failed transaction. -/
def Clean (s s' : State) : Prop := ∃ es, s'.trace = s.trace ++ es ∧ ∀ ev ∈ es, eventFailed ev = false

/-- The events that go with an error: a transport error's last event is the one failed transaction, and any other error has
none. -/
def Broken (r : Reason) (s s' : State) : Prop :=
  (statusOf r ≠ .transport ∧ Clean s s') ∨
  (statusOf r = .transport ∧ ∃ u ev, Clean s u ∧ s'.trace = u.trace ++ [ev] ∧ eventFailed ev = true)

theorem Clean.of_trace_eq {s s' : State} (h : s'.trace = s.trace) : Clean s s' := ⟨[], by simp [h], by simp⟩

theorem Clean.of_event {s s' : State} {ev : Event} (h : s'.trace = s.trace ++ [ev]) (hev : eventFailed ev = false) :
    Clean s s' := ⟨[ev], h, by simpa using hev⟩

theorem Clean.trans {a b c : State} (h : Clean a b) (k : Clean b c) : Clean a c := by
  obtain ⟨es, hes, hclean⟩ := h
  obtain ⟨fs, hfs, hclean'⟩ := k
  refine ⟨es ++ fs, by rw [hfs, hes, List.append_assoc], fun ev hev => ?_⟩
  exact (List.mem_append.mp hev).elim (hclean ev) (hclean' ev)

theorem Broken.of_event {s s' : State} {r : Reason} {ev : Event} (hr : statusOf r = .transport)
    (h : s'.trace = s.trace ++ [ev]) (hev : eventFailed ev = true) : Broken r s s' :=
  .inr ⟨hr, s, ev, .of_trace_eq rfl, h, hev⟩

theorem Clean.broken {a b c : State} {r : Reason} (h : Clean a b) (k : Broken r b c) : Broken r a c := by
  obtain ⟨hr, hclean⟩ | ⟨hr, u, ev, hclean, htrace, hev⟩ := k
  · exact .inl ⟨hr, h.trans hclean⟩
  · exact .inr ⟨hr, u, ev, h.trans hclean, htrace, hev⟩

/-! ### Going on through the steps of a command -/

/-- The pointer stands at a step of the command between two bounds (10_state.md R20). -/
def StandsAt (op : Opcode) (lo hi : Nat) (q : Seq) : Prop := ∃ k, q = .running op k ∧ lo ≤ k ∧ k ≤ hi

/-- A command is on its way from `s`: no transaction failed, and the pointer stands at one of its steps. -/
structure Going (op : Opcode) (lo hi : Nat) (s s' : State) : Prop where
  ports : PortOnly s s'
  clean : Clean s s'
  here : StandsAt op lo hi s'.seq

/-- A command on its way from `s` raised one of the reasons `rs`. -/
structure Raised (op : Opcode) (lo hi : Nat) (rs : List Reason) (s : State) (r : Reason) (s' : State) : Prop where
  reason : r ∈ rs
  ports : PortOnly s s'
  broken : Broken r s s'
  here : StandsAt op lo hi s'.seq

/-- A piece that a command on its way goes on through, or that ends it with one of the reasons `rs`. -/
def Advances (op : Opcode) (lo hi : Nat) (rs : List Reason) {α : Type} (m : M α) : Prop :=
  ∀ s s', Going op lo hi s s' → Ends m s' (fun _ => Going op lo hi s) (Raised op lo hi rs s)

/-- A piece that starts a command, wherever the pointer stood before. -/
def Starts (op : Opcode) (lo hi : Nat) (rs : List Reason) {α : Type} (m : M α) : Prop :=
  ∀ s, Ends m s (fun _ => Going op lo hi s) (Raised op lo hi rs s)

variable {op : Opcode} {lo hi : Nat} {rs : List Reason} {α β : Type}

theorem Advances.bind {m : M α} {f : α → M β} (hm : Advances op lo hi rs m) (hf : ∀ a, Advances op lo hi rs (f a)) :
    Advances op lo hi rs (m >>= f) :=
  fun s s' h => (hm s s' h).bind fun a s'' h' => hf a s s'' h'

theorem Starts.bind {m : M α} {f : α → M β} (hm : Starts op lo hi rs m) (hf : ∀ a, Advances op lo hi rs (f a)) :
    Starts op lo hi rs (m >>= f) :=
  fun s => (hm s).bind fun a s' h => hf a s s' h

/-- A piece that leaves the pointer goes on where the pointer stands. -/
theorem Advances.of_ends {m : M α} (hports : Keeps PortOnly m)
    (h : ∀ s, Ends m s (fun _ s' => Clean s s' ∧ s'.seq = s.seq) fun r s' => r ∈ rs ∧ Broken r s s' ∧ s'.seq = s.seq) :
    Advances op lo hi rs m := by
  intro s s' hs
  refine ⟨fun a s'' e => ?_, fun r s'' e => ?_⟩
  · obtain ⟨hclean, hseq⟩ := (h s').1 a s'' e
    exact ⟨hs.ports.trans ((hports s').1 a s'' e), hs.clean.trans hclean, hseq ▸ hs.here⟩
  · obtain ⟨hr, hbroken, hseq⟩ := (h s').2 r s'' e
    exact ⟨hr, hs.ports.trans ((hports s').2 r s'' e), hs.clean.broken hbroken, hseq ▸ hs.here⟩

theorem starts_atStep {k : Nat} (h : lo ≤ k ∧ k ≤ hi := by decide) : Starts op lo hi rs (atStep op k) := fun s =>
  .of_ok (atStep_run op k s) ⟨(ports_atStep op k s).1 _ _ (atStep_run op k s), .of_trace_eq rfl, k, rfl, h⟩

theorem advances_atStep {k : Nat} (h : lo ≤ k ∧ k ≤ hi := by decide) : Advances op lo hi rs (atStep op k) := fun _ s' hs =>
  .of_ok (atStep_run op k s')
    ⟨hs.ports.trans ((ports_atStep op k s').1 _ _ (atStep_run op k s')), hs.clean.trans (.of_trace_eq rfl), k, rfl, h⟩

theorem advances_pure (a : α) : Advances op lo hi rs (pure a : M α) := fun _ s' hs => .of_ok (pure_run a s') hs

theorem advances_get : Advances op lo hi rs (get : M State) := fun _ s' hs => .of_ok (get_run s') hs

theorem advances_raise {r : Reason} (hr : r ∈ rs) (hstatus : statusOf r ≠ .transport := by decide) :
    Advances op lo hi rs (raise r : M α) :=
  .of_ends (ports_raise r) fun s => .of_error (raise_run r s) ⟨hr, .inl ⟨hstatus, .of_trace_eq rfl⟩, rfl⟩

theorem advances_onlyWhen (b : Bool) {m : M Unit} (h : Advances op lo hi rs m) : Advances op lo hi rs (onlyWhen b m) := by
  cases b
  · exact advances_pure ()
  · exact h

/-! ### The bus -/

theorem advances_busWrite {addr : Addr} {bytes : List Byte} (hw : .busWrite ∈ rs)
    (hsize : writeFits addr bytes.length = false → .burstSize ∈ rs) : Advances op lo hi rs (busWrite addr bytes) := by
  refine .of_ends (ports_busWrite addr bytes) fun s => ?_
  rcases busWrite_cases addr bytes s with ⟨hf, h⟩ | ⟨_, _, h⟩ | ⟨_, _, h⟩
  · exact .of_error h ⟨hsize hf, .inl ⟨by decide, .of_trace_eq rfl⟩, rfl⟩
  · exact .of_ok h ⟨.of_event rfl rfl, rfl⟩
  · exact .of_error h ⟨hw, .of_event rfl rfl rfl, rfl⟩

theorem advances_busWriteByte {addr : Addr} {b : Byte} (hw : .busWrite ∈ rs) :
    Advances op lo hi rs (busWrite addr [b]) :=
  advances_busWrite hw fun h => by simp [writeFits_one] at h

theorem advances_busRead {addr : Addr} {n : Nat} (hr : .busRead ∈ rs) (hsize : readFits addr n = false → .burstSize ∈ rs) :
    Advances op lo hi rs (busRead addr n) := by
  refine .of_ends (ports_busRead addr n) fun s => ?_
  rcases busRead_cases addr n s with ⟨hf, h⟩ | ⟨_, _, h⟩ | ⟨_, _, h⟩
  · exact .of_error h ⟨hsize hf, .inl ⟨by decide, .of_trace_eq rfl⟩, rfl⟩
  · exact .of_ok h ⟨.of_event rfl rfl, rfl⟩
  · exact .of_error h ⟨hr, .of_event rfl rfl rfl, rfl⟩

theorem advances_busReadByte {addr : Addr} (hr : .busRead ∈ rs) : Advances op lo hi rs (busReadByte addr) :=
  (advances_busRead hr fun h => by simp [readFits_one] at h).bind fun _ => advances_pure _

/-! ### The other ports never fail (60_exceptions.md R153 to R155) -/

theorem advances_tunerSetParams : Advances op lo hi rs tunerSetParams :=
  .of_ends ports_tunerSetParams fun s => .of_ok (tunerSetParams_run s) ⟨.of_event rfl rfl, rfl⟩

theorem advances_tunerGetIf : Advances op lo hi rs tunerGetIf :=
  .of_ends ports_tunerGetIf fun s => .of_ok (tunerGetIf_run s) ⟨.of_event rfl rfl, rfl⟩

theorem advances_sampleTime : Advances op lo hi rs sampleTime :=
  .of_ends ports_sampleTime fun s => .of_ok (sampleTime_run s) ⟨.of_event rfl rfl, rfl⟩

theorem advances_sleepDelay : Advances op lo hi rs (delayFor Config.sleepDelayLo Config.sleepDelayHi) :=
  .of_ends ports_sleepDelay fun s => .of_ok (delayFor_run _ _ s) ⟨.of_event rfl rfl, rfl⟩

/-! ### Register access (40_register_access.md) -/

theorem advances_writeMasked {addr : Addr} {value mask : Byte} (hr : .busRead ∈ rs) (hw : .busWrite ∈ rs) :
    Advances op lo hi rs (writeMasked addr value mask) := by
  unfold writeMasked
  split
  · exact advances_busWriteByte hw
  · exact (advances_busReadByte hr).bind fun _ => advances_busWriteByte hw

theorem advances_readMasked {addr : Addr} {mask : Byte} (hr : .busRead ∈ rs) :
    Advances op lo hi rs (readMasked addr mask) :=
  (advances_busReadByte hr).bind fun _ => advances_pure _

theorem advances_writeBursts {gs : List (Addr × List Byte)} (hw : .busWrite ∈ rs) (hsize : .burstSize ∈ rs) :
    Advances op lo hi rs (writeBursts gs) := by
  induction gs with
  | nil => exact advances_pure ()
  | cons g gs ih => exact (advances_busWrite hw fun _ => hsize).bind fun _ => ih

theorem advances_writeTable {es : List RegValue} (hw : .busWrite ∈ rs) (hsize : .burstSize ∈ rs) :
    Advances op lo hi rs (writeTable es) := advances_writeBursts hw hsize

theorem advances_applyMasked {es : List RegEntry} (hr : .busRead ∈ rs) (hw : .busWrite ∈ rs) :
    Advances op lo hi rs (applyMasked es) := by
  induction es with
  | nil => exact advances_pure ()
  | cons e es ih => exact (advances_writeMasked hr hw).bind fun _ => ih

theorem advances_pollAck {p : Params} {left : Nat} (hr : .busRead ∈ rs) : Advances op lo hi rs (pollAck p left) := by
  induction left with
  | zero => exact advances_pure _
  | succ left ih =>
    refine (advances_busReadByte hr).bind fun v => ?_
    split
    · exact advances_pure _
    · split
      · exact advances_pure _
      · exact advances_sleepDelay.bind fun _ => ih

end Sys2Proof.Machine
end

