-- ==== Sys2Proof/Proofs/Plans.lean ====
section
/-! SUPPORT. Pieces of a command that carry out a plan of register writes: where one answers, its events are the plan's; where
the plan's bursts are legal and the bus reports are ready and good, it answers. -/

namespace Sys2Proof.Machine

/-! ### A state some events later -/

/-- The state after some events: the trace, the environment and the pointer have moved on. -/
def State.moved (s : State) (es : List Event) (e : Env) (q : Seq) : State :=
  { s with trace := s.trace ++ es, env := e, seq := q }

@[simp] theorem moved_env (s : State) (es : List Event) (e : Env) (q : Seq) : (s.moved es e q).env = e := rfl

theorem moved_nil (s : State) (q : Seq) : s.moved [] s.env q = { s with seq := q } := by simp [State.moved]

@[simp] theorem moved_moved (s : State) (es es' : List Event) (e e' : Env) (q q' : Seq) :
    (s.moved es e q).moved es' e' q' = s.moved (es ++ es') e' q' := by simp [State.moved]

theorem log_eq_moved (s : State) (ev : Event) (e : Env) : s.log ev e = s.moved [ev] e s.seq := rfl

@[simp] theorem moved_log (s : State) (es : List Event) (e e' : Env) (q : Seq) (ev : Event) :
    (s.moved es e q).log ev e' = s.moved (es ++ [ev]) e' q := moved_moved s es [ev] e e' q q

@[simp] theorem bind_atStep_moved {β : Type} (op : Opcode) (k : Nat) (f : Unit → M β) (s : State) (es : List Event)
    (e : Env) (q : Seq) : (atStep op k >>= f) (s.moved es e q) = f () (s.moved es e (.running op k)) := rfl

/-! ### Reports that are ready -/

theorem AcksReady.left {s : State} {n k : Nat} (h : AcksReady s (n + k)) : AcksReady s n := by
  have := congrArg (List.take n) h
  simpa [AcksReady, List.take_take] using this

theorem AcksReady.right {s s' : State} {n k : Nat} (h : AcksReady s (n + k)) (hacks : s'.env.acks = s.env.acks.drop n) :
    AcksReady s' k := by
  have := congrArg (List.drop n) h
  simpa [AcksReady, List.drop_take, hacks] using this

theorem AcksReady.congr {s s' : State} {n : Nat} (h : AcksReady s n) (hacks : s'.env.acks = s.env.acks) :
    AcksReady s' n := by
  rwa [AcksReady, hacks]

/-- The reports that are ready, as a list to draw from. -/
theorem AcksReady.acks_eq {s : State} {n : Nat} (h : AcksReady s n) :
    s.env.acks = List.replicate n true ++ s.env.acks.drop n := by
  conv_lhs => rw [← List.take_append_drop n s.env.acks, show s.env.acks.take n = _ from h]

theorem drawAck_of_cons {e : Env} {a : Bool} {rest : List Bool} (h : e.acks = a :: rest) :
    drawAck e = (a, { e with acks := rest }) := by
  simp [drawAck, h]

/-- The next report of a ready one is good, and the draw takes it from the list. -/
theorem AcksReady.drawAck {s : State} {n : Nat} (h : AcksReady s (n + 1)) :
    (drawAck s.env).1 = true ∧ (Machine.drawAck s.env).2.acks = s.env.acks.drop 1 := by
  have hacks := h.acks_eq
  rw [List.replicate_succ, List.cons_append] at hacks
  rw [drawAck_of_cons hacks]
  refine ⟨rfl, ?_⟩
  conv_rhs => rw [hacks]
  rfl

/-! ### Plans, one after another -/

theorem planCount_append (p p' : List Planned) : planCount (p ++ p') = planCount p + planCount p' := by
  simp [planCount]

theorem planReads_append (p p' : List Planned) : planReads (p ++ p') = planReads p + planReads p' := by
  simp [planReads]

/-- A burst reads nothing; a masked write reads one byte where its mask is not full. -/
theorem planReads_burst (addr : Addr) (bytes : List Byte) (p : List Planned) :
    planReads (.burst addr bytes :: p) = planReads p := by
  simp [planReads, plannedCount]

theorem planReads_masked (addr : Addr) (value mask : Byte) (p : List Planned) :
    planReads (.masked addr value mask :: p) = (if mask = 0xFF#8 then 0 else 1) + planReads p := by
  simp only [planReads, plannedCount, List.map_cons, List.sum_cons]
  split <;> rfl

theorem plannedEvents_append {p : List Planned} {reads : List Byte} (h : reads.length = planReads p) (p' : List Planned)
    (reads' : List Byte) :
    plannedEvents (p ++ p') (reads ++ reads') = plannedEvents p reads ++ plannedEvents p' reads' := by
  induction p generalizing reads with
  | nil =>
    obtain rfl : reads = [] := List.length_eq_zero_iff.mp h
    rfl
  | cons w p ih =>
    cases w with
    | burst addr bytes =>
      rw [planReads_burst] at h
      simp [plannedEvents, ih h]
    | masked addr value mask =>
      rw [planReads_masked] at h
      by_cases hm : mask = 0xFF#8
      · rw [if_pos hm, Nat.zero_add] at h
        simp [plannedEvents, hm, ih h]
      · rw [if_neg hm] at h
        obtain ⟨cur, reads, rfl⟩ : ∃ cur rest, reads = cur :: rest :=
          List.exists_cons_of_length_pos (by omega)
        have h' : reads.length = planReads p := by rw [List.length_cons] at h; omega
        simp [plannedEvents, hm, ih h']

/-! ### The judgement -/

/-- A piece that answers `a` and whose transactions are those of the plan. -/
structure Plans {α : Type} (m : M α) (a : α) (plan : List Planned) : Prop where
  events : ∀ s b s', m s = .ok b s' → b = a ∧ ∃ reads e q, reads.length = planReads plan ∧
    s' = s.moved (plannedEvents plan reads) e q
  completes : ∀ s, (∀ w ∈ plan, plannedFits w = true) → AcksReady s (planCount plan) →
    ∃ b s', m s = .ok b s' ∧ s'.env.acks = s.env.acks.drop (planCount plan)

/-- Both parts of a plan that completes, together. -/
theorem Plans.run {α : Type} {m : M α} {a : α} {plan : List Planned} (h : Plans m a plan) {s : State}
    (hfits : ∀ w ∈ plan, plannedFits w = true) (hacks : AcksReady s (planCount plan)) :
    ∃ reads e q, reads.length = planReads plan ∧ e.acks = s.env.acks.drop (planCount plan) ∧
      m s = .ok a (s.moved (plannedEvents plan reads) e q) := by
  obtain ⟨b, s', hok, hdrop⟩ := h.completes s hfits hacks
  obtain ⟨rfl, reads, e, q, hlen, rfl⟩ := h.events s b s' hok
  exact ⟨reads, e, q, hlen, hdrop, hok⟩

theorem Plans.bind {α β : Type} {m : M α} {f : α → M β} {a : α} {b : β} {p p' : List Planned} (hm : Plans m a p)
    (hf : Plans (f a) b p') : Plans (m >>= f) b (p ++ p') where
  events s c s' h := by
    rcases bind_cases m f s with ⟨r, u, _, e⟩ | ⟨a', u, hu, e⟩
    · rw [e] at h; cases h
    · obtain ⟨rfl, reads, e1, q1, hlen, rfl⟩ := hm.events s a' u hu
      obtain ⟨rfl, reads', e2, q2, hlen', rfl⟩ := hf.events _ c s' (e ▸ h)
      refine ⟨rfl, reads ++ reads', e2, q2, by simp [hlen, hlen', planReads_append], ?_⟩
      simp [plannedEvents_append hlen]
  completes s hfits hacks := by
    rw [planCount_append] at hacks ⊢
    obtain ⟨reads, e, q, _, hdrop, hok⟩ := hm.run (fun w hw => hfits w (List.mem_append_left _ hw)) hacks.left
    obtain ⟨c, s', hok', hdrop'⟩ :=
      hf.completes (s.moved (plannedEvents p reads) e q)
        (fun w hw => hfits w (List.mem_append_right _ hw)) (hacks.right hdrop)
    exact ⟨c, s', (bind_of_ok hok).trans hok', by rw [hdrop', moved_env, hdrop, List.drop_drop]⟩

/-- A piece without events goes before another. -/
theorem Plans.before {α β : Type} {m : M α} {f : α → M β} {a : α} {b : β} {p : List Planned} (hm : Plans m a [])
    (hf : Plans (f a) b p) : Plans (m >>= f) b p := hm.bind hf

theorem plans_pure {α : Type} (a : α) : Plans (pure a : M α) a [] where
  events s b s' h := by cases h; exact ⟨rfl, [], s.env, s.seq, rfl, (moved_nil s s.seq).symm⟩
  completes s _ _ := ⟨a, s, rfl, rfl⟩

theorem plans_atStep (op : Opcode) (k : Nat) : Plans (atStep op k) () [] where
  events s b s' h := by cases h; exact ⟨rfl, [], s.env, .running op k, rfl, (moved_nil s _).symm⟩
  completes s _ _ := ⟨(), _, rfl, rfl⟩

theorem plans_onlyWhen (c : Bool) {m : M Unit} {p : List Planned} (h : Plans m () p) :
    Plans (onlyWhen c m) () (if c then p else []) := by
  cases c
  · exact plans_pure ()
  · exact h

/-! ### Bursts and masked writes -/

theorem plannedFits_burst {addr : Addr} {bytes : List Byte} (h : plannedFits (.burst addr bytes) = true) :
    writeFits addr bytes.length = true := h

theorem plans_busWrite (addr : Addr) (bytes : List Byte) : Plans (busWrite addr bytes) () [.burst addr bytes] where
  events s b s' h := by
    rcases busWrite_cases addr bytes s with ⟨_, e⟩ | ⟨_, _, e⟩ | ⟨_, _, e⟩ <;> rw [e] at h <;> cases h
    exact ⟨rfl, [], _, s.seq, rfl, rfl⟩
  completes s hfits hacks := by
    obtain ⟨hack, hdrop⟩ := AcksReady.drawAck (n := 0) hacks
    have hfit := plannedFits_burst (hfits _ (List.mem_singleton_self _))
    rcases busWrite_cases addr bytes s with ⟨hf, _⟩ | ⟨_, _, e⟩ | ⟨_, ha, _⟩
    · simp [hfit] at hf
    · exact ⟨(), _, e, hdrop⟩
    · simp [hack] at ha

theorem plannedFits_byte (addr : Addr) (b : Byte) : plannedFits (.burst addr [b]) = true := writeFits_one addr

theorem plans_writeMasked (addr : Addr) (value mask : Byte) :
    Plans (writeMasked addr value mask) () [.masked addr value mask] where
  events s b s' h := by
    rcases writeMasked_cases addr value mask s with ⟨hm, e⟩ | ⟨_, _, e⟩ | ⟨hm, _, e⟩ <;> rw [e] at h
    · obtain ⟨-, reads, env, q, -, rfl⟩ := (plans_busWrite addr [value]).events s b s' h
      exact ⟨rfl, [], env, q, by simp [planReads, plannedCount, hm], by simp [plannedEvents, hm]⟩
    · cases h
    · obtain ⟨-, reads, env, q, -, rfl⟩ := (plans_busWrite _ _).events _ b s' h
      exact ⟨rfl, [(drawByte (drawAck s.env).2).1], env, q, by simp [planReads, plannedCount, hm],
        by simp [plannedEvents, hm, log_eq_moved]⟩
  completes s _ hacks := by
    rcases writeMasked_cases addr value mask s with ⟨hm, e⟩ | ⟨hm, ha, _⟩ | ⟨hm, _, e⟩
    · have hcount : planCount [.masked addr value mask] = planCount [.burst addr [value]] := by
        simp [planCount, plannedCount, hm]
      rw [hcount] at hacks ⊢
      rw [e]
      exact (plans_busWrite addr [value]).completes s (by simp [plannedFits_byte]) hacks
    · have hcount : planCount [.masked addr value mask] = 2 := by simp [planCount, plannedCount, hm]
      rw [hcount] at hacks
      simp [(AcksReady.drawAck (n := 1) hacks).1] at ha
    · have hcount : planCount [.masked addr value mask] = 1 + 1 := by simp [planCount, plannedCount, hm]
      rw [hcount] at hacks ⊢
      rw [e]
      obtain ⟨-, hdrop⟩ := AcksReady.drawAck (n := 1) hacks
      obtain ⟨b, s', hok, hdrop'⟩ := (plans_busWrite addr [mergeMasked (drawByte (drawAck s.env).2).1 value mask]).completes
        (s.log (.read addr 1 (some [(drawByte (drawAck s.env).2).1])) (drawByte (drawAck s.env).2).2)
        (by simp [plannedFits_byte]) (hacks.right (n := 1) (by simpa using hdrop))
      exact ⟨b, s', hok, by simpa [hdrop, planCount, plannedCount] using hdrop'⟩

theorem plans_writeBursts (gs : List (Addr × List Byte)) : Plans (writeBursts gs) () (gs.map plannedBurst) := by
  induction gs with
  | nil => exact plans_pure ()
  | cons g gs ih => exact (plans_busWrite g.1 g.2).bind ih

theorem plans_writeTable (es : List RegValue) : Plans (writeTable es) () ((tableBursts es).map plannedBurst) :=
  plans_writeBursts _

theorem plans_applyMasked (es : List RegEntry) : Plans (applyMasked es) () (es.map plannedEntry) := by
  induction es with
  | nil => exact plans_pure ()
  | cons e es ih => exact (plans_writeMasked e.addr e.value e.mask).bind ih

end Sys2Proof.Machine
end

