-- ==== Sys2Proof/Proofs/Init.lean ====
section
/-! SUPPORT. INIT (42_init_sleep.md): its writes as plans, and the settled statements about a supported and about an
unrecognized tuner. -/

namespace Sys2Proof.Machine

/-- A command whose steps answer returns that answer. -/
theorem command_of_ok {op : Opcode} {body : M (List Byte)} {s s' : State} {result : List Byte}
    (h : body s = .ok result s') : command op body s = returnOk result s' := by
  simp [command, h]

theorem exec_init (s : State) :
    exec .init s = .next (command .init (initSteps s.params s.cfg s.tsParallel s.tsSerial) s) := rfl

/-! ### The writes of INIT.1 to INIT.10 -/

/-- The writes of INIT.1 to INIT.6 (R91 to R96), as `initChip` makes them. -/
def initPlanEarly (s : State) : List Planned :=
  [.burst s.params.regs.clockCw (leBytes 4 (clockControlWord s.params s.cfg))] ++
  ([.burst s.params.regs.adcCw (leBytes 3 (adcControlWord s.params (lookupAdc s.params s.cfg.clockHz)))] ++
  ((baselineTable s.params s.cfg s.tsParallel s.tsSerial).map plannedEntry ++
  ((if s.cfg.clkOut then [.burst s.params.regs.clockOut [s.params.clockOutValue]] else []) ++
  (tsWrites s.params s.cfg.tsMode).map plannedEntry)))

theorem initChip_plans (s : State) :
    Plans (initChip s.params s.cfg s.tsParallel s.tsSerial) () (initPlanEarly s) :=
  (plans_atStep _ _).before <| (plans_busWrite _ _).bind <| (plans_atStep _ _).before <| (plans_atStep _ _).before <|
  (plans_busWrite _ _).bind <| (plans_atStep _ _).before <| (plans_applyMasked _).bind <| (plans_atStep _ _).before <|
  (plans_onlyWhen _ (plans_busWrite _ _)).bind <| (plans_atStep _ _).before <| plans_applyMasked _

theorem baselineTable_plan (s : State) :
    (baselineTable s.params s.cfg s.tsParallel s.tsSerial).map plannedEntry =
      s.params.baseline.map fun e => .masked e.addr (baselineValue s e.source) e.mask := by
  simp [baselineTable, plannedEntry, sourceByte_eq]

theorem tsWrites_eq (p : Params) (m : TsMode) : tsWrites p m = if m = .usb then p.tsUsbWrites else p.tsDirectWrites := by
  cases m <;> rfl

/-- The writes the statements name for INIT.1 to INIT.7 are those of `initChip` and the OFSM bursts. -/
theorem initPlanChip_eq (s : State) :
    initPlanChip s = initPlanEarly s ++ (tableBursts (ofsmTable s.params s.cfg.tuner)).map plannedBurst := by
  simp only [initPlanChip, initPlanEarly, baselineTable_plan, tsWrites_eq, ofsmTable_eq, leBytes_eq_lowBytes,
    clockControlWord, adcControlWord, lookupAdc_eq, List.append_assoc]
  rfl

/-- INIT.1 to INIT.7 (R91 to R97). -/
def initToOfsm (p : Params) (c : Cfg) (tsParallel tsSerial : Bool) : M Unit := do
  initChip p c tsParallel tsSerial
  atStep .init 7
  writeTable (ofsmTable p c.tuner)

theorem initToOfsm_plans (s : State) :
    Plans (initToOfsm s.params s.cfg s.tsParallel s.tsSerial) () (initPlanChip s) :=
  initPlanChip_eq s ▸ (initChip_plans s).bind ((plans_atStep _ _).before (plans_writeTable _))

/-- INIT.8 to INIT.10 (R98 to R100). -/
def initFromTuner (p : Params) (c : Cfg) (tsSerial : Bool) : M Unit := do
  atStep .init 8
  loadTunerTable p c.tuner
  atStep .init 9
  onlyWhen tsSerial (applyMasked p.serialWrites)
  atStep .init 10
  onlyWhen (isActivationTuner p c.tuner) (busWrite p.regs.activation [p.activationValue])

/-- INIT is cut at INIT.8, where the tuner is checked. -/
theorem initSteps_eq (p : Params) (c : Cfg) (tsParallel tsSerial : Bool) :
    initSteps p c tsParallel tsSerial =
      initToOfsm p c tsParallel tsSerial >>= fun _ => initFromTuner p c tsSerial >>= fun _ => initDone := by
  simp only [initSteps, initTuner, initToOfsm, initFromTuner, bind_assoc]

theorem loadTunerTable_of_some {p : Params} {tuner : Byte} {tt : List RegValue} (h : tunerTable p tuner = some tt) :
    loadTunerTable p tuner = writeTable tt := by
  simp [loadTunerTable, h]

theorem loadTunerTable_of_none {p : Params} {tuner : Byte} (h : tunerTable p tuner = none) :
    loadTunerTable p tuner = raise .tunerId := by
  simp [loadTunerTable, h]

theorem isActivationTuner_iff (p : Params) (tuner : Byte) :
    isActivationTuner p tuner = true ↔ tuner ∈ p.activationTuners := List.contains_iff_mem

/-! ### A supported tuner -/

/-- The writes of INIT.8 to INIT.10 for a tuner whose table is `tt`. -/
theorem initFromTuner_plans (s : State) {tt : List RegValue} (h : tunerTableFor s.params s.cfg.tuner = some tt) :
    Plans (initFromTuner s.params s.cfg s.tsSerial) () ((tableBursts tt).map plannedBurst ++
      ((if s.tsSerial then s.params.serialWrites.map plannedEntry else []) ++
      (if isActivationTuner s.params s.cfg.tuner then [.burst s.params.regs.activation [s.params.activationValue]] else []))) := by
  have hload : Plans (loadTunerTable s.params s.cfg.tuner) () ((tableBursts tt).map plannedBurst) :=
    loadTunerTable_of_some ((tunerTable_eq _ _).trans h) ▸ plans_writeTable tt
  exact (plans_atStep _ _).before <| hload.bind <| (plans_atStep _ _).before <|
    (plans_onlyWhen _ (plans_applyMasked _)).bind <| (plans_atStep _ _).before <| plans_onlyWhen _ (plans_busWrite _ _)

/-- The writes of INIT are those the statement names. -/
theorem initWrites_plans (s : State) {tt : List RegValue} (h : tunerTableFor s.params s.cfg.tuner = some tt) :
    Plans (initToOfsm s.params s.cfg s.tsParallel s.tsSerial >>= fun _ => initFromTuner s.params s.cfg s.tsSerial) ()
      (initPlan s tt) := by
  have hplan := (initToOfsm_plans s).bind (f := fun _ => initFromTuner s.params s.cfg s.tsSerial)
    (initFromTuner_plans s h)
  simpa only [initPlan, isActivationTuner_iff, List.append_assoc] using hplan

theorem initDone_run (s : State) :
    initDone s = .ok [] { s with seq := .running .init 11, cachedBw := 0#32, fsm := .active } := rfl

/-- Settles O20: the writes up to INIT.10 are a plan that completes, and INIT.11 sets the control state and the cached
bandwidth. -/
theorem initCompletes : Obligations.InitCompletes := by
  intro s tt htuner hfits hacks
  obtain ⟨reads, e, q, hlen, -, hok⟩ := (initWrites_plans s htuner).run hfits hacks
  refine ⟨reads, e, hlen, ?_⟩
  rw [exec_init, initSteps_eq, ← bind_assoc, command_of_ok ((bind_of_ok hok).trans (initDone_run _))]
  rfl

/-! ### An unrecognized tuner -/

theorem tunerTable_eq_none {p : Params} {tuner : Byte} (h : ∀ r ∈ p.tunerTables, r.1 ≠ tuner) :
    tunerTable p tuner = none := by
  simpa [tunerTable] using h

/-- The check of INIT.8 raises before any transaction of the step. -/
theorem initFromTuner_of_none {p : Params} {c : Cfg} (h : tunerTable p c.tuner = none) (tsSerial : Bool) (s : State) :
    initFromTuner p c tsSerial s = .error .tunerId { s with seq := .running .init 8 } := by
  simp only [initFromTuner, bind_atStep_run, loadTunerTable_of_none h]
  rfl

/-- Settles O21: INIT.1 to INIT.7 are a plan that completes, and INIT.8 raises. -/
theorem initUnsupportedTuner : Obligations.InitUnsupportedTuner := by
  intro s htuner hfits hacks
  obtain ⟨reads, e, q, hlen, -, hok⟩ := (initToOfsm_plans s).run hfits hacks
  refine ⟨reads, e, hlen, ?_⟩
  have herr := bind_of_error (f := fun _ => initDone) (initFromTuner_of_none (c := s.cfg) (tunerTable_eq_none htuner) s.tsSerial
    (s.moved (plannedEvents (initPlanChip s) reads) e q))
  rw [exec_init, initSteps_eq, command_of_error ((bind_of_ok hok).trans herr)]
  rfl

end Sys2Proof.Machine
end

