-- ==== Sys2Proof/Proofs/Ready.lean ====
section
/-! SUPPORT. The bus pieces where the report they draw is known, and where the bytes they draw are ready. -/

namespace Sys2Proof.Machine

/-! ### The report decides -/

theorem busWrite_of_ack {addr : Addr} {bytes : List Byte} {s : State} (hfit : BurstLegal addr bytes.length)
    (hack : (drawAck s.env).1 = true) :
    busWrite addr bytes s = .ok () (s.log (.write addr bytes true) (drawAck s.env).2) := by
  simp [busWrite, (writeFits_iff _ _).mpr hfit, hack]

theorem busWrite_of_nack {addr : Addr} {bytes : List Byte} {s : State} (hfit : BurstLegal addr bytes.length)
    (hack : (drawAck s.env).1 = false) :
    busWrite addr bytes s = .error .busWrite (s.log (.write addr bytes false) (drawAck s.env).2) := by
  simp [busWrite, (writeFits_iff _ _).mpr hfit, hack]

theorem busWrite_of_not_legal {addr : Addr} {bytes : List Byte} {s : State} (hfit : ¬BurstLegal addr bytes.length) :
    busWrite addr bytes s = .error .burstSize s := by
  simp [busWrite, (writeFits_eq_false_iff _ _).mpr hfit]

theorem busRead_of_ack {addr : Addr} {n : Nat} {s : State} (hfit : ReadLegal addr n) (hack : (drawAck s.env).1 = true) :
    busRead addr n s = .ok (drawBytes n (drawAck s.env).2).1
      (s.log (.read addr n (some (drawBytes n (drawAck s.env).2).1)) (drawBytes n (drawAck s.env).2).2) := by
  simp [busRead, (readFits_iff _ _).mpr hfit, hack]

theorem busRead_of_nack {addr : Addr} {n : Nat} {s : State} (hfit : ReadLegal addr n)
    (hack : (drawAck s.env).1 = false) :
    busRead addr n s = .error .busRead (s.log (.read addr n none) (drawAck s.env).2) := by
  simp [busRead, (readFits_iff _ _).mpr hfit, hack]

theorem busRead_of_not_legal {addr : Addr} {n : Nat} {s : State} (hfit : ¬ReadLegal addr n) :
    busRead addr n s = .error .burstSize s := by
  simp [busRead, (readFits_eq_false_iff _ _).mpr hfit]

theorem burstLegal_one (addr : Addr) : BurstLegal addr 1 := (writeFits_iff addr 1).mp (writeFits_one addr)

theorem readLegal_one (addr : Addr) : ReadLegal addr 1 := (readFits_iff addr 1).mp (readFits_one addr)

theorem busReadByte_of_nack {addr : Addr} {s : State} (hack : (drawAck s.env).1 = false) :
    busReadByte addr s = .error .busRead (s.log (.read addr 1 none) (drawAck s.env).2) :=
  bind_of_error (busRead_of_nack (readLegal_one addr) hack)

/-! ### Reports and bytes that are ready -/

/-- An environment with these reports and these bytes ready. -/
def Env.ready (e : Env) (acks : List Bool) (bytes : List Byte) : Env := { e with acks := acks, bytes := bytes }

@[simp] theorem ready_acks (e : Env) (acks : List Bool) (bytes : List Byte) : (e.ready acks bytes).acks = acks := rfl
@[simp] theorem ready_bytes (e : Env) (acks : List Bool) (bytes : List Byte) : (e.ready acks bytes).bytes = bytes := rfl

/-- A state with `n` good reports ready and these bytes. -/
theorem eq_moved_ready {s : State} {n : Nat} (hacks : AcksReady s n) {bytes : List Byte} (hbytes : s.env.bytes = bytes) :
    s = s.moved [] (s.env.ready (List.replicate n true ++ s.env.acks.drop n) bytes) s.seq := by
  rw [← hacks.acks_eq, ← hbytes]
  exact (moved_nil s s.seq).symm

theorem drawAck_ready (e : Env) (a : Bool) (as : List Bool) (bs : List Byte) :
    drawAck (e.ready (a :: as) bs) = (a, e.ready as bs) := rfl

theorem drawBytes_ready (e : Env) (as : List Bool) (bs rest : List Byte) :
    drawBytes bs.length (e.ready as (bs ++ rest)) = (bs, e.ready as rest) := by
  induction bs with
  | nil => rfl
  | cons b bs ih =>
    rw [List.length_cons, drawBytes, show drawByte (e.ready as (b :: bs ++ rest)) = (b, e.ready as (bs ++ rest)) from rfl, ih]

variable (s : State) (es : List Event) (e : Env) (q : Seq) (as : List Bool)

theorem busWrite_run {addr : Addr} {bytes : List Byte} (hfit : BurstLegal addr bytes.length) (bs : List Byte) :
    busWrite addr bytes (s.moved es (e.ready (true :: as) bs) q) =
      .ok () (s.moved (es ++ [.write addr bytes true]) (e.ready as bs) q) := by
  rw [busWrite_of_ack hfit rfl, moved_log, moved_env, drawAck_ready]

theorem busWriteByte_run (addr : Addr) (b : Byte) (bs : List Byte) :
    busWrite addr [b] (s.moved es (e.ready (true :: as) bs) q) =
      .ok () (s.moved (es ++ [.write addr [b] true]) (e.ready as bs) q) :=
  busWrite_run s es e q as (burstLegal_one addr) bs

theorem busRead_run {addr : Addr} {bs : List Byte} (hfit : ReadLegal addr bs.length) (rest : List Byte) :
    busRead addr bs.length (s.moved es (e.ready (true :: as) (bs ++ rest)) q) =
      .ok bs (s.moved (es ++ [.read addr bs.length (some bs)]) (e.ready as rest) q) := by
  rw [busRead_of_ack hfit rfl, moved_log, moved_env, drawAck_ready, drawBytes_ready]

theorem busReadByte_run (addr : Addr) (b : Byte) (rest : List Byte) :
    busReadByte addr (s.moved es (e.ready (true :: as) (b :: rest)) q) =
      .ok b (s.moved (es ++ [.read addr 1 (some [b])]) (e.ready as rest) q) :=
  bind_of_ok (busRead_run s es e q as (bs := [b]) (readLegal_one addr) rest)

theorem readMasked_run (addr : Addr) (mask b : Byte) (rest : List Byte) :
    readMasked addr mask (s.moved es (e.ready (true :: as) (b :: rest)) q) =
      .ok (selectMasked b mask) (s.moved (es ++ [.read addr 1 (some [b])]) (e.ready as rest) q) :=
  bind_of_ok (busReadByte_run s es e q as addr b rest)

theorem writeMasked_run (addr : Addr) (value : Byte) {mask : Byte} (hmask : mask ≠ 0xFF#8) (b : Byte) (rest : List Byte) :
    writeMasked addr value mask (s.moved es (e.ready (true :: true :: as) (b :: rest)) q) =
      .ok () (s.moved (es ++ [.read addr 1 (some [b]), .write addr [mergeMasked b value mask] true]) (e.ready as rest) q) := by
  rw [writeMasked, if_neg hmask, bind_of_ok (busReadByte_run s es e q (true :: as) addr b rest), busWriteByte_run,
    List.append_assoc]
  rfl

end Sys2Proof.Machine
end

