-- ==== Sys2Proof/Proofs/Sleep.lean ====
section
/-! SUPPORT. SLEEP (42_init_sleep.md): the polls of SLEEP.3, the gating writes as a plan, and the settled statements about an
acknowledged and about a timed-out SLEEP. -/

namespace Sys2Proof.Machine

theorem exec_sleep (s : State) : exec .sleep s = .next (command .sleep (sleepSteps s.params s.tsSerial) s) := rfl

/-! ### The polls (R105) -/

/-- The length of a delay is within its bounds. -/
theorem delay_bounds (d : Nat) :
    200 ≤ max Config.sleepDelayLo (min Config.sleepDelayHi d) ∧ max Config.sleepDelayLo (min Config.sleepDelayHi d) ≤ 10000 := by
  simp only [Config.sleepDelayLo, Config.sleepDelayHi]
  omega

theorem drawDelay_ready (e : Env) (as : List Bool) (bs : List Byte) :
    drawDelay (e.ready as bs) = ((drawDelay e).1, (drawDelay e).2.ready as bs) := by
  obtain ⟨_, _, _, _, delays, _, _⟩ := e
  cases delays <;> rfl

section Runs
variable (s : State) (es : List Event) (e : Env) (q : Seq) (as : List Bool)

/-- A poll that is not the last and is not acknowledged waits and polls again. -/
theorem pollAck_next (p : Params) (left : Nat) {v : Byte} (hv : v ≠ 0x00#8) (rest : List Byte) :
    ∃ (d : Nat) (e' : Env), 200 ≤ d ∧ d ≤ 10000 ∧
      pollAck p (left + 1 + 1) (s.moved es (e.ready (true :: as) (v :: rest)) q) =
        pollAck p (left + 1)
          (s.moved (es ++ [.read p.regs.sleepAck 1 (some [v]), .delay d]) (e'.ready as rest) q) := by
  have hbounds := delay_bounds (drawDelay e).1
  have hack : v ≠ Config.sleepAckValue := hv
  refine ⟨_, (drawDelay e).2, hbounds.1, hbounds.2, ?_⟩
  rw [pollAck, bind_of_ok (busReadByte_run ..), if_neg hack, if_neg (Nat.succ_ne_zero left), bind_of_ok (delayFor_run ..),
    moved_log, moved_env, drawDelay_ready, List.append_assoc]
  rfl

/-- Polls that are not acknowledged, each with its delay, while the budget lasts. -/
theorem pollAck_skip (p : Params) {vs : List Byte} {left : Nat} (hleft : vs.length ≤ left) (hvs : ∀ v ∈ vs, v ≠ 0x00#8)
    (rest : List Byte) :
    ∃ (ds : List Nat) (e' : Env), ds.length = vs.length ∧ (∀ d ∈ ds, 200 ≤ d ∧ d ≤ 10000) ∧
      pollAck p (left + 1) (s.moved es (e.ready (List.replicate vs.length true ++ as) (vs ++ rest)) q) =
        pollAck p (left - vs.length + 1)
          (s.moved (es ++ pollEvents p.regs.sleepAck vs ds) (e'.ready as rest) q) := by
  induction vs generalizing left es e with
  | nil => exact ⟨[], e, rfl, by simp, by simp [pollEvents]⟩
  | cons v vs ih =>
    rw [List.length_cons] at hleft ⊢
    obtain ⟨left, rfl⟩ : ∃ k, left = k + 1 := ⟨left - 1, by omega⟩
    obtain ⟨d, e₁, hlo, hhi, hpoll⟩ := pollAck_next s es e q (List.replicate vs.length true ++ as) p left
      (hvs v List.mem_cons_self) (vs ++ rest)
    obtain ⟨ds, e₂, hlen, hds, hrest⟩ :=
      ih (es ++ [.read p.regs.sleepAck 1 (some [v]), .delay d]) e₁ (left := left) (by omega)
        fun w hw => hvs w (List.mem_cons_of_mem v hw)
    refine ⟨d :: ds, e₂, by simp [hlen], List.forall_mem_cons.mpr ⟨⟨hlo, hhi⟩, hds⟩, ?_⟩
    rw [List.replicate_succ, List.cons_append, List.cons_append, hpoll, hrest, List.append_assoc, Nat.add_sub_add_right]
    rfl

/-- A poll that reads the acknowledgment: on the last poll it counts under `SLEEP_LAST_POLL_OK`. -/
theorem pollAck_acked (p : Params) (left : Nat) (rest : List Byte) :
    pollAck p (left + 1) (s.moved es (e.ready (true :: as) (0x00#8 :: rest)) q) =
      .ok (left != 0 || p.sleepLastPollOk)
        (s.moved (es ++ [.read p.regs.sleepAck 1 (some [0x00#8])]) (e.ready as rest) q) := by
  have hack : 0x00#8 = Config.sleepAckValue := rfl
  rw [pollAck, bind_of_ok (busReadByte_run ..), if_pos hack]
  rfl

/-- The last poll does not count: another byte, or an acknowledgment without `SLEEP_LAST_POLL_OK`. -/
theorem pollAck_last {p : Params} {v : Byte} (hv : v ≠ 0x00#8 ∨ p.sleepLastPollOk = false) (rest : List Byte) :
    pollAck p 1 (s.moved es (e.ready (true :: as) (v :: rest)) q) =
      .ok false (s.moved (es ++ [.read p.regs.sleepAck 1 (some [v])]) (e.ready as rest) q) := by
  by_cases h0 : v = 0x00#8
  · subst h0
    rw [pollAck_acked s es e q as p 0 rest, hv.resolve_left (fun h => h rfl)]
    rfl
  · have hack : v ≠ Config.sleepAckValue := h0
    rw [pollAck, bind_of_ok (busReadByte_run ..), if_neg hack, if_pos rfl]
    rfl

/-! ### SLEEP.1 to SLEEP.3 -/

/-- The events of the stop request and the run disable (R104). -/
def sleepRequest (p : Params) : List Event :=
  [.write p.regs.stopReq [p.stopReqValue] true, .write p.regs.run [p.runDisableValue] true]

/-- The end of SLEEP.3: the polls, and what their answer means. -/
def sleepPolls (p : Params) (budget : Nat) : M Unit := do
  let acked ← pollAck p budget
  if acked then pure () else raise .sleepAck

theorem sleepStop_run (p : Params) (bs : List Byte) :
    sleepStop p (s.moved [] (e.ready (true :: true :: as) bs) q) =
      sleepPolls p 100 (s.moved (sleepRequest p) (e.ready as bs) (.running .sleep 3)) := by
  rw [sleepStop, bind_atStep_moved, bind_of_ok (busWriteByte_run ..), bind_atStep_moved,
    bind_of_ok (busWriteByte_run ..), bind_atStep_moved]
  rfl

/-- SLEEP up to the poll after `vs`: the two writes, and a delay after each poll of `vs`. -/
theorem sleepStop_skip (p : Params) {vs : List Byte} (hlen : vs.length < 100) (hvs : ∀ v ∈ vs, v ≠ 0x00#8)
    (rest : List Byte) :
    ∃ (ds : List Nat) (e' : Env), ds.length = vs.length ∧ (∀ d ∈ ds, 200 ≤ d ∧ d ≤ 10000) ∧
      sleepStop p (s.moved [] (e.ready (true :: true :: (List.replicate vs.length true ++ as)) (vs ++ rest)) q) =
        sleepPolls p (99 - vs.length + 1)
          (s.moved (sleepRequest p ++ pollEvents p.regs.sleepAck vs ds) (e'.ready as rest) (.running .sleep 3)) := by
  obtain ⟨ds, e', hds, hbounds, hpoll⟩ :=
    pollAck_skip s (sleepRequest p) e (.running .sleep 3) as p (left := 99) (by omega) hvs rest
  refine ⟨ds, e', hds, hbounds, ?_⟩
  rw [sleepStop_run]
  simp only [sleepPolls, bind, EStateM.bind, hpoll]

/-! ### SLEEP.4 and SLEEP.5 -/

/-- The writes of SLEEP.4 and SLEEP.5 (R106, R107). -/
def sleepGateWrites (p : Params) (tsSerial : Bool) : M Unit := do
  atStep .sleep 4
  writeMasked p.regs.pwrGate p.pwrGateMask p.pwrGateMask
  atStep .sleep 5
  onlyWhen tsSerial (applyMasked p.leakWrites)

/-- SLEEP's end: the control state, and no result. -/
def sleepDone : M (List Byte) := do
  modify fun s => { s with fsm := .asleep }
  pure []

theorem sleepGate_eq (p : Params) (tsSerial : Bool) :
    sleepGate p tsSerial = sleepGateWrites p tsSerial >>= fun _ => sleepDone := by
  simp only [sleepGate, sleepGateWrites, sleepDone, bind_assoc]

theorem sleepDone_run : sleepDone s = .ok [] { s with fsm := .asleep } := rfl

theorem sleepGateWrites_plans : Plans (sleepGateWrites s.params s.tsSerial) () (sleepGatePlan s) :=
  (plans_atStep _ _).before <| (plans_writeMasked _ _ _).bind <| (plans_atStep _ _).before <|
    plans_onlyWhen _ (plans_applyMasked _)

/-- The gating writes are masked writes, which pass the length check wherever they go. -/
theorem sleepGatePlan_fits : ∀ w ∈ sleepGatePlan s, plannedFits w = true := by
  unfold sleepGatePlan
  cases s.tsSerial <;> simp [plannedEntry, plannedFits]

/-- SLEEP.4 and SLEEP.5 with the reports ready. -/
theorem sleepGate_run (bs : List Byte) :
    ∃ reads e' q', reads.length = planReads (sleepGatePlan s) ∧
      sleepGate s.params s.tsSerial
          (s.moved es (e.ready (List.replicate (planCount (sleepGatePlan s)) true ++ as) bs) q) =
        .ok [] { s.moved (es ++ plannedEvents (sleepGatePlan s) reads) e' q' with fsm := .asleep } := by
  obtain ⟨reads, e', q', hreads, -, hgate⟩ := (sleepGateWrites_plans s).run
    (s := s.moved es (e.ready (List.replicate (planCount (sleepGatePlan s)) true ++ as) bs) q)
    (sleepGatePlan_fits s) (by simp [AcksReady])
  refine ⟨reads, e', q', hreads, ?_⟩
  rw [sleepGate_eq, bind_of_ok hgate, sleepDone_run, moved_moved]

end Runs

/-! ### The command -/

/-- Settles O23: the polls of `vs` are skipped, the next is acknowledged, and the gating writes are a plan that completes. -/
theorem sleepCompletes : Obligations.SleepCompletes := by
  intro s vs rest hlen hbudget hvs hbytes hacks
  have hstart := eq_moved_ready hacks hbytes
  rw [show 3 + vs.length + planCount (sleepGatePlan s) = 1 + 1 + (vs.length + (1 + planCount (sleepGatePlan s))) by omega] at hstart
  simp only [List.replicate_add, List.append_assoc, List.replicate_one, List.cons_append, List.nil_append] at hstart
  obtain ⟨ds, e, hds, hbounds, hstop⟩ := sleepStop_skip s s.env s.seq _ s.params hlen hvs (0x00#8 :: rest)
  rw [← hstart] at hstop
  have hcounts : (99 - vs.length != 0 || s.params.sleepLastPollOk) = true := by
    rcases hbudget with h | h
    · simp; omega
    · simp [h]
  rw [sleepPolls, bind_of_ok (pollAck_acked ..), hcounts, if_pos rfl] at hstop
  obtain ⟨reads, e', q, hreads, hgate⟩ := sleepGate_run s _ _ _ _ _
  refine ⟨ds, reads, e', hds, hbounds, hreads, ?_⟩
  rw [exec_sleep, sleepSteps, command_of_ok ((bind_of_ok hstop).trans hgate)]
  simp [returnOk, State.moved, sleepRequest, okByte]

/-- Settles O24: the polls of `vs` are skipped, and the last one raises. -/
theorem sleepTimesOut : Obligations.SleepTimesOut := by
  intro s vs rest v hlen hvs hv hbytes hacks
  have hstart := eq_moved_ready hacks hbytes
  rw [show 102 = 1 + 1 + (vs.length + 1) by omega] at hstart
  simp only [List.replicate_add, List.append_assoc, List.replicate_one, List.cons_append, List.nil_append] at hstart
  obtain ⟨ds, e, hds, hbounds, hstop⟩ := sleepStop_skip s s.env s.seq _ s.params (by omega) hvs (v :: rest)
  rw [← hstart, hlen, sleepPolls, bind_of_ok (pollAck_last (hv := hv) ..), if_neg Bool.false_ne_true,
    raise_run] at hstop
  refine ⟨ds, e.ready (s.env.acks.drop 102) rest, hds.trans hlen, hbounds, ?_⟩
  rw [exec_sleep, sleepSteps, command_of_error (bind_of_error hstop)]
  simp [takeError, State.moved, sleepRequest]
  exact ⟨rfl, rfl⟩

end Sys2Proof.Machine
end

