-- ==== Sys2Proof/Proofs/TunePlans.lean ====
section
/-! SUPPORT. SET_FRONTEND (43_tuning.md) past its gate: its steps run one by one, its bandwidth-independent writes as a plan,
the numbers of its events, and the settled statements about refused, accepted and faulting ones. -/

namespace Sys2Proof.Machine

/-! ### The command and its fault -/

theorem exec_setFrontend_next {s : State} {bw : U32} (freq : U32)
    (h : tuneDivides s bw = false ∨ adcFor s.params s.cfg.clockHz ≠ 0#32) :
    exec (.setFrontend bw freq) s = .next (command .setFrontend (tuneSteps s.params s.cfg bw freq) s) := by
  rw [exec_setFrontend, execSetFrontend, lookupAdc_eq, if_neg]
  rcases h with h | h <;> simp [h]

theorem bandwidthCode_of_mem {bw : U32} {code : Byte}
    (h : (bw, code) ∈ [(6000000#32, 0x00#8), (7000000#32, 0x01#8), (8000000#32, 0x02#8)]) :
    bandwidthCode bw = some code := by
  simp only [List.mem_cons, Prod.mk.injEq, List.not_mem_nil, or_false] at h
  obtain ⟨rfl, rfl⟩ | ⟨rfl, rfl⟩ | ⟨rfl, rfl⟩ := h <;> rfl

theorem bandwidthCode_isSome_of_mem {bw : U32} (h : bw ∈ [6000000#32, 7000000#32, 8000000#32]) :
    (bandwidthCode bw).isSome = true := by
  simp only [List.mem_cons, List.not_mem_nil, or_false] at h
  obtain rfl | rfl | rfl := h <;> rfl

/-- Settles O31: the fault is asked for where the branch would divide by 0, and nowhere else. -/
theorem tuneStopsOnlyOnZeroAdc : Obligations.TuneStopsOnlyOnZeroAdc := by
  intro s bw freq
  refine ⟨fun hactive hbw hne hadc => ?_, fun hadc => ⟨_, exec_setFrontend_next freq (.inr hadc)⟩⟩
  have hdivides : tuneDivides s bw = true := by
    simp [tuneDivides, hactive, bandwidthCode_isSome_of_mem hbw, hne]
  rw [exec_setFrontend, execSetFrontend, lookupAdc_eq, hadc, hdivides]
  rfl

/-! ### TUNE.0 to TUNE.2 -/

/-- The tuner call of TUNE.2 (R113). -/
def setParamsEvents (c : Cfg) : List Event := if c.hasSetParams then [.tunerSetParams] else []

theorem tuneGate_of_active {s : State} (h : s.fsm = .active) :
    tuneGate s = .ok () { s with seq := .running .setFrontend 0 } := by
  simp [tuneGate, h]

theorem tuneBandwidth_of_some {bw : U32} {code : Byte} (h : bandwidthCode bw = some code) (s : State) :
    tuneBandwidth bw s = .ok code { s with seq := .running .setFrontend 1 } := by
  simp [tuneBandwidth, h]

theorem tuneBandwidth_of_none {bw : U32} (h : bandwidthCode bw = none) (s : State) :
    tuneBandwidth bw s = .error .bandwidth { s with seq := .running .setFrontend 1 } := by
  simp [tuneBandwidth, h]

theorem tuneSetParams_run (c : Cfg) (s : State) :
    tuneSetParams c s = .ok () (s.moved (setParamsEvents c) s.env (.running .setFrontend 2)) := by
  cases h : c.hasSetParams
  · simp [tuneSetParams, setParamsEvents, h, moved_nil]
  · simp [tuneSetParams, setParamsEvents, h, tunerSetParams_run, log_eq_moved, State.moved]

/-- Settles O26: TUNE.1 raises, with nothing but the sequencer moved. -/
theorem tuneRefusesOtherBandwidths : Obligations.TuneRefusesOtherBandwidths := by
  intro s bw freq hactive h6 h7 h8
  have hcode : bandwidthCode bw = none := by
    rcases bandwidthCode_cases bw with ⟨h, _⟩ | ⟨h, _⟩ | ⟨h, _⟩ | ⟨_, _, _, h⟩
    · exact absurd h h6
    · exact absurd h h7
    · exact absurd h h8
    · exact h
  have hnext := exec_setFrontend_next (s := s) (bw := bw) freq (.inl (by simp [tuneDivides, hcode]))
  have herr : tuneSteps s.params s.cfg bw freq s = .error .bandwidth { s with seq := .running .setFrontend 1 } :=
    (bind_of_ok (tuneGate_of_active hactive)).trans (bind_of_error (tuneBandwidth_of_none hcode _))
  rw [hnext, command_of_error herr]
  rfl

/-- An accepted SET_FRONTEND gets to TUNE.3 with the tuner call alone. -/
theorem tuneSteps_of_accepted {s : State} {bw : U32} {code : Byte} (hactive : s.fsm = .active)
    (hcode : bandwidthCode bw = some code) (freq : U32) :
    tuneSteps s.params s.cfg bw freq s =
      (tuneReprogram s.params s.cfg bw >>= fun _ => tuneTail s.params code freq)
        (s.moved (setParamsEvents s.cfg) s.env (.running .setFrontend 2)) := by
  rw [tuneSteps, bind_of_ok (tuneGate_of_active hactive), bind_of_ok (tuneBandwidth_of_some hcode _),
    bind_of_ok (tuneSetParams_run s.cfg _)]
  rfl

/-! ### TUNE.3 and the bandwidth-independent writes -/

theorem tuneReprogram_cached {s : State} {bw : U32} (h : bw = s.cachedBw) (p : Params) (c : Cfg) :
    tuneReprogram p c bw s = .ok () { s with seq := .running .setFrontend 3 } := by
  simp [tuneReprogram, h]

theorem tuneReprogram_new {s : State} {bw : U32} (h : bw ≠ s.cachedBw) (p : Params) (c : Cfg) :
    tuneReprogram p c bw s = tuneBranch p c bw { s with seq := .running .setFrontend 3 } := by
  simp [tuneReprogram, h]

theorem tuneTail_plans (p : Params) (code : Byte) (freq : U32) :
    Plans (tuneTail p code freq) [] (tunePlan p code freq) :=
  (plans_atStep _ _).before <| (plans_writeMasked _ _ _).bind <| (plans_atStep _ _).before <| (plans_busWrite _ _).bind <|
  (plans_atStep _ _).before <| (plans_busWrite _ _).bind <| (plans_atStep _ _).before <| (plans_writeMasked _ _ _).bind <|
  (plans_atStep _ _).before <| (plans_busWrite _ _).bind <| (plans_atStep _ _).before <| (plans_busWrite _ _).bind <|
  plans_pure _

theorem plannedFits_masked (addr : Addr) (value mask : Byte) : plannedFits (.masked addr value mask) = true := rfl

/-- Every burst of the plan is a single byte. -/
theorem tunePlan_fits (p : Params) (code : Byte) (freq : U32) : ∀ w ∈ tunePlan p code freq, plannedFits w = true := by
  simp [tunePlan, plannedFits_byte, plannedFits_masked]

/-- Settles O27: TUNE.3 goes on at once, and the bandwidth-independent writes are a plan that completes. -/
theorem tuneAtCachedBandwidth : Obligations.TuneAtCachedBandwidth := by
  intro s bw freq code hactive hcached hmem hacks
  have hcode := bandwidthCode_of_mem hmem
  have hnext := exec_setFrontend_next (s := s) (bw := bw) freq (.inl (by simp [tuneDivides, hcached]))
  obtain ⟨reads, e, q, hreads, -, htail⟩ := (tuneTail_plans s.params code freq).run
    (s := s.moved (setParamsEvents s.cfg) s.env (.running .setFrontend 3)) (tunePlan_fits _ _ _) hacks
  have hsteps := (tuneSteps_of_accepted hactive hcode freq).trans
    ((bind_of_ok (tuneReprogram_cached (s := s.moved _ _ _) hcached s.params s.cfg)).trans htail)
  refine ⟨reads, e, hreads, ?_⟩
  rw [hnext, command_of_ok hsteps, moved_moved]
  simp [returnOk, State.moved, setParamsEvents, okByte]

/-! ### The bandwidth-dependent branch (R115 to R122) -/

theorem drawIf_ready (e : Env) (as : List Bool) (bs : List Byte) :
    drawIf (e.ready as bs) = ((drawIf e).1, (drawIf e).2.ready as bs) := by
  obtain ⟨_, _, ifs, _, _, _, _⟩ := e
  cases ifs <;> rfl

/-- The IF frequency of TUNE.6, and its event. -/
def tunerIf (c : Cfg) (e : Env) : U32 := if c.hasGetIf then (drawIf e).1 else 0#32
def tunerIfEvents (c : Cfg) (e : Env) : List Event := if c.hasGetIf then [.tunerGetIf (drawIf e).1] else []

theorem tunerIf_toInt (c : Cfg) (e : Env) : (tunerIf c e).toInt = if c.hasGetIf then (drawIf e).1.toInt else 0 := by
  unfold tunerIf
  split <;> rfl

theorem tuneIf_run (c : Cfg) (s : State) (es : List Event) (e : Env) (q : Seq) (as : List Bool) (bs : List Byte) :
    ∃ e' : Env, tuneIf c (s.moved es (e.ready as bs) q) =
      .ok (tunerIf c e) (s.moved (es ++ tunerIfEvents c e) (e'.ready as bs) q) := by
  cases h : c.hasGetIf
  · exact ⟨e, by simp [tuneIf, tunerIf, tunerIfEvents, h]⟩
  · refine ⟨(drawIf e).2, ?_⟩
    simp [tuneIf, tunerIf, tunerIfEvents, h, tunerGetIf_run, drawIf_ready]

/-- The events of the branch: the coefficients, the tuner's IF frequency, the frequency control word. -/
def tuneBranchEvents (p : Params) (c : Cfg) (bw : U32) (e : Env) : List Event :=
  [.write p.regs.coeff (coeffFor p c.clockHz bw) true] ++ tunerIfEvents c e ++
  [.write p.regs.freqCw (freqControlBytes p c (adcFor p c.clockHz) (tunerIf c e).toInt) true]

theorem tuneBranch_run {p : Params} {c : Cfg} {bw : U32} (hcoeff : BurstLegal p.regs.coeff (coeffFor p c.clockHz bw).length)
    (hfreq : BurstLegal p.regs.freqCw 3) (s : State) (es : List Event) (e : Env) (q : Seq) (as : List Bool) (bs : List Byte) :
    ∃ e' : Env, tuneBranch p c bw (s.moved es (e.ready (true :: true :: as) bs) q) =
      .ok () (({ s with cachedBw := bw } : State).moved (es ++ tuneBranchEvents p c bw e) (e'.ready as bs)
        (.running .setFrontend 14)) := by
  obtain ⟨e', hif⟩ := tuneIf_run c s (es ++ [.write p.regs.coeff (coeffFor p c.clockHz bw) true]) e
    (.running .setFrontend 6) (true :: as) bs
  refine ⟨e', ?_⟩
  rw [tuneBranch, bind_atStep_moved, lookupCoeff_eq, bind_of_ok (busWrite_run (hfit := hcoeff) ..), bind_atStep_moved,
    lookupAdc_eq, bind_atStep_moved, bind_of_ok hif, bind_of_ok (tuneControl_run ..)]
  simp only [bind_atStep_run]
  have hwrite := busWrite_run s (es ++ [.write p.regs.coeff (coeffFor p c.clockHz bw) true] ++ tunerIfEvents c e) e'
    (.running .setFrontend 13) as
    (bytes := freqControlBytes p c (adcFor p c.clockHz) (tunerIf c e).toInt) hfreq bs
  refine (bind_of_ok hwrite).trans ?_
  simp [tuneBranchEvents, State.moved]

/-- Settles O28: the branch runs on two reports, and the bandwidth-independent writes are a plan that completes. -/
theorem tuneAtNewBandwidth : Obligations.TuneAtNewBandwidth := by
  intro s bw freq code hactive hnew hmem hadc hcoeff hfreq hacks
  have hcode := bandwidthCode_of_mem hmem
  have hnext := exec_setFrontend_next (s := s) (bw := bw) freq (.inr hadc)
  have henv : s.env = s.env.ready (true :: true :: s.env.acks.drop 2) s.env.bytes := by
    conv_lhs => rw [show s.env = s.env.ready s.env.acks s.env.bytes from rfl, hacks.left.acks_eq]
    rfl
  obtain ⟨e, hbranch⟩ := tuneBranch_run hcoeff hfreq s (setParamsEvents s.cfg) s.env (.running .setFrontend 3)
    (s.env.acks.drop 2) s.env.bytes
  rw [← henv] at hbranch
  obtain ⟨reads, e', q, hreads, -, htail⟩ := (tuneTail_plans s.params code freq).run
    (s := ({ s with cachedBw := bw } : State).moved (setParamsEvents s.cfg ++ tuneBranchEvents s.params s.cfg bw s.env)
      (e.ready (s.env.acks.drop 2) s.env.bytes) (.running .setFrontend 14)) (tunePlan_fits _ _ _) (hacks.right rfl)
  have hsteps := (tuneSteps_of_accepted hactive hcode freq).trans
    ((bind_of_ok ((tuneReprogram_new (s := s.moved _ _ _) hnew s.params s.cfg).trans hbranch)).trans htail)
  refine ⟨reads, e', hreads, ?_⟩
  rw [hnext, command_of_ok hsteps, moved_moved]
  simp only [returnOk, State.moved, setParamsEvents, tuneBranchEvents, tunerIfEvents, tunerIf_toInt, List.append_assoc]
  rfl

/-! ### The numbers of events (R125) -/

/-- The numbers of transactions, of setParams calls and of getIfFrequency calls. -/
def tally (es : List Event) : Nat × Nat × Nat :=
  ((es.filter isTransaction).length, es.count .tunerSetParams,
    (es.filter fun e => match e with | .tunerGetIf _ => true | _ => false).length)

theorem tally_append (es fs : List Event) : tally (es ++ fs) = tally es + tally fs := by
  simp [tally]

/-- A piece whose events, where it answers, have these numbers. -/
def Issues {α : Type} (m : M α) (n : Nat × Nat × Nat) : Prop :=
  ∀ s a s', m s = .ok a s' → ∃ es, s'.trace = s.trace ++ es ∧ tally es = n

theorem Issues.bind {α β : Type} {m : M α} {f : α → M β} {n k : Nat × Nat × Nat} (hm : Issues m n)
    (hf : ∀ a, Issues (f a) k) : Issues (m >>= f) (n + k) := by
  intro s b s' h
  rcases bind_cases m f s with ⟨_, _, _, e⟩ | ⟨a, u, hu, e⟩
  · rw [e] at h; cases h
  · obtain ⟨es, hes, hn⟩ := hm s a u hu
    obtain ⟨fs, hfs, hk⟩ := hf a u b s' (e ▸ h)
    exact ⟨es ++ fs, by rw [hfs, hes, List.append_assoc], by rw [tally_append, hn, hk]⟩

theorem tally_cons (ev : Event) (es : List Event) : tally (ev :: es) = tally [ev] + tally es := tally_append [ev] es

theorem tally_write (addr : Addr) (bytes : List Byte) (ok : Bool) : tally [.write addr bytes ok] = (1, 0, 0) := rfl
theorem tally_read (addr : Addr) (n : Nat) (r : Option (List Byte)) : tally [.read addr n r] = (1, 0, 0) := rfl
theorem tally_tunerGetIf (v : U32) : tally [.tunerGetIf v] = (0, 0, 1) := rfl

theorem planCount_cons (w : Planned) (p : List Planned) : planCount (w :: p) = plannedCount w + planCount p := by
  simp [planCount]

theorem tally_plannedEvents {p : List Planned} {reads : List Byte} (h : reads.length = planReads p) :
    tally (plannedEvents p reads) = (planCount p, 0, 0) := by
  induction p generalizing reads with
  | nil => rfl
  | cons w p ih =>
    rw [planCount_cons]
    cases w with
    | burst addr bytes =>
      rw [planReads_burst] at h
      rw [plannedEvents, tally_cons, tally_write, ih h]
      rfl
    | masked addr value mask =>
      rw [planReads_masked] at h
      by_cases hm : mask = 0xFF#8
      · rw [if_pos hm, Nat.zero_add] at h
        have hevents : plannedEvents (.masked addr value mask :: p) reads = .write addr [value] true :: plannedEvents p reads := by
          simp [plannedEvents, hm]
        rw [hevents, tally_cons, tally_write, ih h, plannedCount, if_pos hm]
        rfl
      · rw [if_neg hm] at h
        obtain ⟨cur, reads, rfl⟩ : ∃ cur rest, reads = cur :: rest := List.exists_cons_of_length_pos (by omega)
        have h' : reads.length = planReads p := by rw [List.length_cons] at h; omega
        simp only [plannedEvents, if_neg hm]
        rw [tally_cons, tally_cons (.write ..), tally_read, tally_write, ih h', plannedCount, if_neg hm]
        simp; omega

theorem Plans.issues {α : Type} {m : M α} {a : α} {plan : List Planned} (h : Plans m a plan) :
    Issues m (planCount plan, 0, 0) := by
  intro s b s' hok
  obtain ⟨-, reads, e, q, hreads, rfl⟩ := h.events s b s' hok
  exact ⟨plannedEvents plan reads, rfl, tally_plannedEvents hreads⟩

theorem issues_atStep (op : Opcode) (k : Nat) : Issues (atStep op k) 0 := (plans_atStep op k).issues

theorem issues_busWrite (addr : Addr) (bytes : List Byte) : Issues (busWrite addr bytes) (1, 0, 0) :=
  (plans_busWrite addr bytes).issues

/-- A piece that always answers and adds no event. -/
theorem issues_of_run {α : Type} {m : M α} {n : Nat × Nat × Nat}
    (h : ∀ s, ∃ a s' es, m s = .ok a s' ∧ s'.trace = s.trace ++ es ∧ tally es = n) : Issues m n := by
  intro s a s' hok
  obtain ⟨b, t, es, hrun, ht, hn⟩ := h s
  rw [hrun] at hok
  cases hok
  exact ⟨es, ht, hn⟩

theorem issues_tuneIf (c : Cfg) : Issues (tuneIf c) (0, 0, if c.hasGetIf then 1 else 0) := by
  cases h : c.hasGetIf
  · exact issues_of_run fun s => ⟨0#32, s, [], by simp [tuneIf, h], by simp, rfl⟩
  · exact issues_of_run fun s => ⟨_, _, _, by rw [tuneIf, h, if_pos rfl, tunerGetIf_run], rfl, tally_tunerGetIf _⟩

theorem issues_tuneControl (p : Params) (c : Cfg) (adc : U32) (raw : Int) : Issues (tuneControl p c adc raw) 0 :=
  issues_of_run fun s => ⟨_, _, [], tuneControl_run p c adc raw s, by simp, rfl⟩

theorem issues_setCachedBw (bw : U32) : Issues (modify fun s => { s with cachedBw := bw }) 0 :=
  issues_of_run fun s => ⟨_, _, [], modify_run _ s, by simp, rfl⟩

/-- The branch issues two transactions and asks the tuner for its IF frequency where it offers it. -/
theorem issues_tuneBranch (p : Params) (c : Cfg) (bw : U32) :
    Issues (tuneBranch p c bw) (2, 0, if c.hasGetIf then 1 else 0) := by
  have h : Issues (tuneBranch p c bw) _ := (issues_atStep .setFrontend 4).bind fun _ => (issues_busWrite p.regs.coeff (lookupCoeff p c.clockHz bw)).bind fun _ =>
    (issues_atStep .setFrontend 5).bind fun _ => (issues_atStep .setFrontend 6).bind fun _ => (issues_tuneIf c).bind fun f =>
    (issues_tuneControl p c (lookupAdc p c.clockHz) f.toInt).bind fun bytes => (issues_atStep .setFrontend 13).bind fun _ =>
    (issues_busWrite p.regs.freqCw bytes).bind fun _ => (issues_atStep .setFrontend 14).bind fun _ => issues_setCachedBw bw
  simpa using h

theorem planCount_tunePlan (p : Params) (code : Byte) (freq : U32) :
    planCount (tunePlan p code freq) = 7 + if p.lockAccMask = 0xFF#8 then 0 else 1 := by
  by_cases h : p.lockAccMask = 0xFF#8 <;> simp [tunePlan, planCount, plannedCount, h]

/-- A SET_FRONTEND that answers OK passed its checks. -/
theorem tuneSteps_ok_accepted {s t : State} {bw freq : U32} {result : List Byte} (hactive : s.fsm = .active)
    (h : tuneSteps s.params s.cfg bw freq s = .ok result t) : ∃ code, bandwidthCode bw = some code := by
  cases hcode : bandwidthCode bw with
  | some code => exact ⟨code, rfl⟩
  | none =>
    rw [tuneSteps, bind_of_ok (tuneGate_of_active hactive), bind_of_error (tuneBandwidth_of_none hcode _)] at h
    cases h

/-- The events of a SET_FRONTEND that answers OK: the tuner call, those of TUNE.3, and those of the plan. -/
theorem tuneSteps_ok_tally {s t : State} {bw freq : U32} {result : List Byte} (hactive : s.fsm = .active)
    (h : tuneSteps s.params s.cfg bw freq s = .ok result t) :
    ∃ es, t.trace = s.trace ++ es ∧ tally es =
      (7 + (if s.params.lockAccMask = 0xFF#8 then 0 else 1) + (if bw = s.cachedBw then 0 else 2),
        if s.cfg.hasSetParams then 1 else 0, if bw ≠ s.cachedBw ∧ s.cfg.hasGetIf = true then 1 else 0) := by
  obtain ⟨code, hcode⟩ := tuneSteps_ok_accepted hactive h
  rw [tuneSteps_of_accepted hactive hcode] at h
  have hset : tally (setParamsEvents s.cfg) = (0, if s.cfg.hasSetParams then 1 else 0, 0) := by
    unfold setParamsEvents
    split <;> rfl
  have htail := (tuneTail_plans s.params code freq).issues
  rw [planCount_tunePlan] at htail
  by_cases hbw : bw = s.cachedBw
  · rw [bind_of_ok (tuneReprogram_cached (s := s.moved _ _ _) hbw s.params s.cfg)] at h
    obtain ⟨es, hes, hn⟩ := htail _ _ _ h
    refine ⟨setParamsEvents s.cfg ++ es, by rw [hes, ← List.append_assoc]; rfl, ?_⟩
    rw [tally_append, hset, hn]
    simp [hbw]
  · have hrest : (tuneBranch s.params s.cfg bw >>= fun _ => tuneTail s.params code freq)
        (s.moved (setParamsEvents s.cfg) s.env (.running .setFrontend 3)) = .ok result t := by
      rw [← h]
      simp only [bind, EStateM.bind, tuneReprogram_new (s := s.moved _ _ _) hbw]
      rfl
    obtain ⟨es, hes, hn⟩ := ((issues_tuneBranch s.params s.cfg bw).bind fun _ => htail) _ _ _ hrest
    refine ⟨setParamsEvents s.cfg ++ es, by rw [hes, ← List.append_assoc]; rfl, ?_⟩
    rw [tally_append, hset, hn]
    simp [hbw]
    omega

end Sys2Proof.Machine
end

