-- ==== Sys2Proof/Proofs/Commands.lean ====
section
/-! SUPPORT. Everything a host command can do, said once: where each command's steps end, and what the state is when it has
answered. The statements about all commands follow from `exec_host_cases`. -/

namespace Sys2Proof.Machine

/-! ### The steps of a command, and the reasons it may raise -/

/-- The steps of a host command from a state; a micro-operation has none. -/
def stepsOf (i : Instr) (s : State) : M (List Byte) :=
  match i with
  | .init => initSteps s.params s.cfg s.tsParallel s.tsSerial
  | .sleep => sleepSteps s.params s.tsSerial
  | .setFrontend bw freq => tuneSteps s.params s.cfg bw freq
  | .getFrontend => getFrontendSteps s.params
  | .readStatus => readStatusSteps s.params
  | .readSnr => readSnrSteps s.params
  | .readSignalStrength => readSignalStrengthSteps s.params
  | .readBer => readBerSteps s.params
  | .readUcb => readUcbSteps s.params
  | .setPidFilter idx pid en => setPidFilterSteps s.params idx pid en
  | .setPidFilterEnabled en => setPidFilterEnabledSteps s.params en
  | .i2cGateCtrl en => i2cGateCtrlSteps s.params en
  | .uopRegWrite _ _ | .uopRegRead _ _ | .uopRegWriteMasked _ _ _ | .uopRegReadMasked _ _ | .uopRegWriteTable _
  | .uopFpDivide _ _ _ => pure []

/-- A host command that does not fault runs its steps. -/
theorem exec_eq_command {i : Instr} {s t : State} (hhost : isMicroOp (opcodeOfInstr i) = false) (h : exec i s = .next t) :
    t = command (opcodeOfInstr i) (stepsOf i s) s := by
  cases i with
  | setFrontend bw freq =>
    rw [exec_setFrontend, execSetFrontend] at h
    split at h
    · cases h
    · cases h; rfl
  | uopRegWrite | uopRegRead | uopRegWriteMasked | uopRegReadMasked | uopRegWriteTable | uopFpDivide => cases hhost
  | init | sleep | getFrontend | readStatus | readSnr | readSignalStrength | readBer | readUcb | setPidFilter
  | setPidFilterEnabled | i2cGateCtrl => cases h; rfl

/-- The reasons of R142, where every named burst fits. -/
def reasonsOf : Instr → List Reason
  | .init => [.burstSize, .busWrite, .busRead, .tunerId]
  | .sleep => [.busWrite, .busRead, .sleepAck]
  | .setFrontend _ _ => [.notInitialized, .bandwidth, .burstSize, .busWrite, .busRead]
  | .getFrontend | .readStatus | .readSnr | .readSignalStrength | .readBer | .readUcb => [.busRead]
  | .setPidFilter _ _ _ => [.busWrite]
  | .setPidFilterEnabled _ | .i2cGateCtrl _ => [.busRead, .busWrite]
  | .uopRegWrite _ _ | .uopRegRead _ _ | .uopRegWriteMasked _ _ _ | .uopRegReadMasked _ _ | .uopRegWriteTable _
  | .uopFpDivide _ _ _ => []

/-- The reasons a command may raise: where a named burst does not fit, also that one. -/
def raisable (i : Instr) (p : Params) : List Reason :=
  if p.regs.fits p.nCoeff then reasonsOf i else .burstSize :: reasonsOf i

theorem mem_raisable {i : Instr} {r : Reason} (h : r ∈ reasonsOf i := by decide) (p : Params) : r ∈ raisable i p := by
  unfold raisable
  split
  · exact h
  · exact List.mem_cons_of_mem _ h

/-- The named bursts of R56 that are no part of INIT or of SET_FRONTEND pass the length check where all fit. -/
theorem named_bursts_fit {p : Params} (h : p.regs.fits p.nCoeff = true) :
    readFits p.regs.tpsStatus 8 = true ∧ readFits p.regs.stat 7 = true ∧ readFits p.regs.snrValue 3 = true ∧
    writeFits p.regs.pidValue 2 = true := by
  simp only [RegMap.fits, Bool.and_eq_true, burstFits, Config.registerSpace] at h
  obtain ⟨⟨⟨⟨-, htps⟩, hstat⟩, hsnr⟩, hpid⟩ := h
  rw [readFits_iff, readFits_iff, readFits_iff, writeFits_iff]
  exact ⟨⟨by decide, of_decide_eq_true htps⟩, ⟨by decide, of_decide_eq_true hstat⟩,
    ⟨by decide, of_decide_eq_true hsnr⟩, by decide, by decide, of_decide_eq_true hpid⟩

/-- A length check that holds where every named burst fits makes a refused length one of the reasons where it does not. -/
theorem size_raisable (i : Instr) {p : Params} {fits : Bool} (h : p.regs.fits p.nCoeff = true → fits = true)
    (hf : fits = false) : .burstSize ∈ raisable i p := by
  have hp : ¬p.regs.fits p.nCoeff = true := fun hp => by simp [h hp] at hf
  simp [raisable, hp]

/-! ### The commands that only use the ports -/

variable (p : Params)

theorem getFrontendSteps_starts : Starts .getFrontend 0 13 (raisable .getFrontend p) (getFrontendSteps p) :=
  (starts_atStep).bind fun _ =>
  (advances_busRead (mem_raisable (p := p)) (size_raisable _ fun h => (named_bursts_fit h).1)).bind fun _ =>
  (advances_atStep).bind fun _ => advances_pure _

theorem readStatusSteps_starts : Starts .readStatus 0 13 (raisable .readStatus p) (readStatusSteps p) := by
  refine (starts_atStep).bind fun _ => (advances_busReadByte (mem_raisable (p := p))).bind fun rcs => ?_
  split
  · exact advances_pure _
  · exact (advances_atStep).bind fun _ => (advances_readMasked (mem_raisable (p := p))).bind fun _ =>
      (advances_atStep).bind fun _ => (advances_readMasked (mem_raisable (p := p))).bind fun _ => advances_pure _

theorem readSnrSteps_starts : Starts .readSnr 0 13 (raisable .readSnr p) (readSnrSteps p) := by
  refine (starts_atStep).bind fun _ =>
    (advances_busRead (mem_raisable (p := p)) (size_raisable _ fun h => (named_bursts_fit h).2.2.1)).bind fun _ =>
    (advances_atStep).bind fun _ => (advances_busReadByte (mem_raisable (p := p))).bind fun _ => ?_
  unfold snrAnswer
  split
  · exact advances_pure _
  · exact (advances_atStep).bind fun _ => advances_pure _

theorem readSignalStrengthSteps_starts :
    Starts .readSignalStrength 0 13 (raisable .readSignalStrength p) (readSignalStrengthSteps p) :=
  (starts_atStep).bind fun _ => (advances_busReadByte (mem_raisable (p := p))).bind fun _ => advances_pure _

theorem setPidFilterSteps_starts (idx : Byte) (pid : U16) (en : Bool) :
    Starts .setPidFilter 0 13 (raisable (.setPidFilter idx pid en) p) (setPidFilterSteps p idx pid en) := by
  have hw : .busWrite ∈ raisable (.setPidFilter idx pid en) p := mem_raisable (List.mem_singleton_self _) p
  refine (starts_atStep).bind fun _ => ?_
  split
  · exact advances_pure _
  · exact (advances_atStep).bind fun _ =>
      (advances_busWrite hw (size_raisable _ fun h => (named_bursts_fit h).2.2.2)).bind fun _ =>
      (advances_atStep).bind fun _ => (advances_busWriteByte hw).bind fun _ =>
      (advances_atStep).bind fun _ => (advances_busWriteByte hw).bind fun _ => advances_pure _

theorem setPidFilterEnabledSteps_starts (en : Bool) :
    Starts .setPidFilterEnabled 0 13 (raisable (.setPidFilterEnabled en) p) (setPidFilterEnabledSteps p en) :=
  (starts_atStep).bind fun _ => (advances_writeMasked (mem_raisable (by simp [reasonsOf]) p)
    (mem_raisable (by simp [reasonsOf]) p)).bind fun _ => advances_pure _

theorem i2cGateCtrlSteps_starts (en : Bool) :
    Starts .i2cGateCtrl 0 13 (raisable (.i2cGateCtrl en) p) (i2cGateCtrlSteps p en) :=
  (starts_atStep).bind fun _ => (advances_writeMasked (mem_raisable (by simp [reasonsOf]) p)
    (mem_raisable (by simp [reasonsOf]) p)).bind fun _ => advances_pure _

/-! ### INIT and SLEEP up to their last step -/

theorem initWrites_starts (c : Cfg) (tsParallel tsSerial : Bool) :
    Starts .init 0 13 (raisable .init p)
      (initToOfsm p c tsParallel tsSerial >>= fun _ => initFromTuner p c tsSerial) := by
  have hw : .busWrite ∈ raisable .init p := mem_raisable (p := p)
  have hr : .busRead ∈ raisable .init p := mem_raisable (p := p)
  have hb : .burstSize ∈ raisable .init p := mem_raisable (p := p)
  have hload : Advances .init 0 13 (raisable .init p) (loadTunerTable p c.tuner) := by
    unfold loadTunerTable
    split
    · exact advances_raise (mem_raisable (p := p))
    · exact advances_writeTable hw hb
  have hchip : Starts .init 0 13 (raisable .init p) (initChip p c tsParallel tsSerial) :=
    (starts_atStep).bind fun _ => (advances_busWrite hw fun _ => hb).bind fun _ =>
    (advances_atStep).bind fun _ => (advances_atStep).bind fun _ => (advances_busWrite hw fun _ => hb).bind fun _ =>
    (advances_atStep).bind fun _ => (advances_applyMasked hr hw).bind fun _ =>
    (advances_atStep).bind fun _ => (advances_onlyWhen _ (advances_busWriteByte hw)).bind fun _ =>
    (advances_atStep).bind fun _ => advances_applyMasked hr hw
  exact (hchip.bind fun _ => (advances_atStep).bind fun _ => advances_writeTable hw hb).bind fun _ =>
    (advances_atStep).bind fun _ => hload.bind fun _ =>
    (advances_atStep).bind fun _ => (advances_onlyWhen _ (advances_applyMasked hr hw)).bind fun _ =>
    (advances_atStep).bind fun _ => advances_onlyWhen _ (advances_busWriteByte hw)

theorem sleepWrites_starts (tsSerial : Bool) :
    Starts .sleep 0 13 (raisable .sleep p) (sleepStop p >>= fun _ => sleepGateWrites p tsSerial) := by
  have hw : .busWrite ∈ raisable .sleep p := mem_raisable (p := p)
  have hr : .busRead ∈ raisable .sleep p := mem_raisable (p := p)
  have hack : ∀ acked : Bool, Advances .sleep 0 13 (raisable .sleep p) (if acked then pure () else raise .sleepAck : M Unit) := by
    intro acked
    cases acked
    · exact advances_raise (mem_raisable (p := p))
    · exact advances_pure ()
  have hstop : Starts .sleep 0 13 (raisable .sleep p) (sleepStop p) :=
    (starts_atStep).bind fun _ => (advances_busWriteByte hw).bind fun _ =>
    (advances_atStep).bind fun _ => (advances_busWriteByte hw).bind fun _ =>
    (advances_atStep).bind fun _ => (advances_pollAck hr).bind hack
  exact hstop.bind fun _ => (advances_atStep).bind fun _ => (advances_writeMasked hr hw).bind fun _ =>
    (advances_atStep).bind fun _ => advances_onlyWhen _ (advances_applyMasked hr hw)

/-! ### What a command has written where it answers, and where it raises -/

/-- What a command writes where it answers, besides what its pieces do at the ports: from the state before that write. -/
inductive Completed : Instr → List Byte → State → State → Prop
  | init (u : State) : Completed .init [] u { u with cachedBw := 0#32, fsm := .active }
  | sleep (u : State) : Completed .sleep [] u { u with fsm := .asleep }
  | tuned (bw freq : U32) (u : State) (hbw : (bandwidthCode bw).isSome = true) :
      Completed (.setFrontend bw freq) [] u { u with cachedBw := bw }
  | refreshed {i : Instr} (hi : i = .readBer ∨ i = .readUcb) (result : List Byte) (k : Counts) (now : U64) (u : State)
      (hnow : now ∈ timesOf u.trace) : Completed i result u (recordCounts k now u)
  | unchanged {i : Instr} (hinit : i ≠ .init) (hsleep : i ≠ .sleep) (htune : ∀ bw freq, i ≠ .setFrontend bw freq)
      (result : List Byte) (u : State) : Completed i result u u

/-- What a command has written where it raises at step `k`: nothing, but for a SET_FRONTEND past TUNE.14. -/
inductive Stopped : Instr → Nat → State → State → Prop
  | early {i : Instr} {k : Nat} (hk : k ≤ 13) (u : State) : Stopped i k u u
  | late {k : Nat} (bw freq : U32) (hk : 15 ≤ k ∧ k ≤ 20) (u : State) (hbw : (bandwidthCode bw).isSome = true) :
      Stopped (.setFrontend bw freq) k u { u with cachedBw := bw }

/-- The command answered from `s`, in a state not yet returned from. -/
def Answered (i : Instr) (s : State) (result : List Byte) (v : State) : Prop :=
  ∃ u, PortOnly s u ∧ Clean s u ∧ Completed i result u v

/-- The command raised from `s`, in a state whose error is not yet taken. -/
def Failed (i : Instr) (s : State) (r : Reason) (v : State) : Prop :=
  ∃ u k, PortOnly s u ∧ Broken r s u ∧ r ∈ raisable i s.params ∧ u.seq = .running (opcodeOfInstr i) k ∧ Stopped i k u v

theorem Raised.failed {i : Instr} {s v : State} {r : Reason}
    (h : Raised (opcodeOfInstr i) 0 13 (raisable i s.params) s r v) : Failed i s r v := by
  obtain ⟨hr, hports, hbroken, k, hseq, -, hk⟩ := h
  exact ⟨v, k, hports, hbroken, hr, hseq, .early hk v⟩

/-- A command whose steps only use the ports. -/
theorem Starts.ends_unchanged {i : Instr} {s : State} {m : M (List Byte)}
    (h : Starts (opcodeOfInstr i) 0 13 (raisable i s.params) m) (hinit : i ≠ .init) (hsleep : i ≠ .sleep)
    (htune : ∀ bw freq, i ≠ .setFrontend bw freq) : Ends m s (Answered i s) (Failed i s) :=
  (h s).mono (fun result v hv => ⟨v, hv.ports, hv.clean, .unchanged hinit hsleep htune result v⟩) fun _ _ hr => hr.failed

theorem PortOnly.atStep {s u : State} (h : PortOnly s u) (q : Seq) : PortOnly s { u with seq := q } :=
  h.trans ⟨[], u.env, q, by simp, by simp, TimesBetween.nil _⟩

theorem initSteps_ends (s : State) :
    Ends (initSteps s.params s.cfg s.tsParallel s.tsSerial) s (Answered .init s) (Failed .init s) := by
  rw [initSteps_eq, ← bind_assoc]
  refine Ends.bind ((initWrites_starts s.params s.cfg s.tsParallel s.tsSerial s).mono (fun _ _ h => h) fun _ _ h => Raised.failed (i := .init) h)
    fun _ u hu => .of_ok (initDone_run u) ⟨{ u with seq := .running .init 11 }, hu.ports.atStep _, hu.clean, .init _⟩

theorem sleepSteps_ends (s : State) : Ends (sleepSteps s.params s.tsSerial) s (Answered .sleep s) (Failed .sleep s) := by
  rw [sleepSteps, sleepGate_eq, ← bind_assoc]
  exact Ends.bind ((sleepWrites_starts s.params s.tsSerial s).mono (fun _ _ h => h) fun _ _ h => Raised.failed (i := .sleep) h)
    fun _ u hu => .of_ok (sleepDone_run u) ⟨u, hu.ports, hu.clean, .sleep u⟩

/-! ### READ_BER and READ_UCB -/

/-- A piece keeps the time samples of the trace. -/
theorem Advances.ends_sampled {op : Opcode} {lo hi : Nat} {rs : List Reason} {α : Type} {m : M α}
    (h : Advances op lo hi rs m) {s s' : State} (hs : Going op lo hi s s') {now : U64} (hnow : now ∈ timesOf s'.trace) :
    Ends m s' (fun _ u => Going op lo hi s u ∧ now ∈ timesOf u.trace) (Raised op lo hi rs s) := by
  refine ⟨fun a u hu => ⟨(h s s' hs).1 a u hu, ?_⟩, (h s s' hs).2⟩
  obtain ⟨es, htrace, -⟩ := ((h s' s' ⟨PortOnly.refl s', .of_trace_eq rfl, hs.here⟩).1 a u hu).clean
  rw [htrace, timesOf_append]
  exact List.mem_append_left _ hnow

/-- A refresh records counts at the sample it was given. -/
theorem refresh_ends {op : Opcode} {rs : List Reason} (hr : .busRead ∈ rs)
    (hsize : readFits p.regs.stat 7 = false → .burstSize ∈ rs) {s s' : State} (hs : Going op 0 13 s s') {now : U64}
    (hnow : now ∈ timesOf s'.trace) :
    Ends (refresh op p now) s' (fun _ v => ∃ u k, Going op 0 13 s u ∧ now ∈ timesOf u.trace ∧ v = recordCounts k now u)
      (Raised op 0 13 rs s) :=
  ((advances_atStep).ends_sampled hs hnow).bind fun _ _ h =>
  ((advances_busRead hr hsize).ends_sampled h.1 h.2).bind fun t _ h =>
  ((advances_atStep).ends_sampled h.1 h.2).bind fun _ u h =>
  .of_ok (modify_run _ u) ⟨u, countsOf t, h.1, h.2, rfl⟩

/-- STAT.1: the sample, and the refresh where it is due. -/
theorem throttledRefresh_ends {op : Opcode} {rs : List Reason} (hr : .busRead ∈ rs)
    (hsize : readFits p.regs.stat 7 = false → .burstSize ∈ rs) (s : State) :
    Ends (throttledRefresh op p) s
      (fun _ v => Going op 0 13 s v ∨ ∃ u k now, Going op 0 13 s u ∧ now ∈ timesOf u.trace ∧ v = recordCounts k now u)
      (Raised op 0 13 rs s) := by
  refine ((starts_atStep) s).bind fun _ a ha => ?_
  have hsample : Ends sampleTime a (fun now u => Going op 0 13 s u ∧ now ∈ timesOf u.trace) (Raised op 0 13 rs s) :=
    .of_ok (sampleTime_run a) ⟨(advances_sampleTime (rs := rs) s a ha).1 _ _ (sampleTime_run a), by simp [timesOf]⟩
  refine hsample.bind fun now b hb => ?_
  have hget : Ends (get : M State) b (fun c u => c = b ∧ u = b) (Raised op 0 13 rs s) := .of_ok (get_run b) ⟨rfl, rfl⟩
  refine hget.bind fun c c' hc => ?_
  rw [hc.1, hc.2]
  cases refreshDue b.lastStat now with
  | false => exact .of_ok (pure_run () b) (.inl hb.1)
  | true =>
    exact (refresh_ends p hr hsize hb.1 hb.2).mono
      (fun _ v ⟨u, k, hu, hnow, hv⟩ => .inr ⟨u, k, now, hu, hnow, hv⟩) fun _ _ h => h

/-- The end of either statistics command: STAT.4, and an answer read off the state. -/
theorem statSteps_ends {i : Instr} (hi : i = .readBer ∨ i = .readUcb) (s : State) (answer : State → List Byte) :
    Ends (do throttledRefresh (opcodeOfInstr i) s.params; atStep (opcodeOfInstr i) 4; let u ← get; pure (answer u)) s
      (Answered i s) (Failed i s) := by
  have hr : .busRead ∈ raisable i s.params :=
    mem_raisable (by rcases hi with rfl | rfl <;> exact List.mem_singleton_self _) _
  have hthrottled := (throttledRefresh_ends (op := opcodeOfInstr i) s.params hr
    (size_raisable i fun h => (named_bursts_fit h).2.1) s).mono (fun _ _ h => h) fun _ _ h => Raised.failed h
  have hne : i ≠ .init ∧ i ≠ .sleep ∧ ∀ bw freq, i ≠ .setFrontend bw freq := by
    rcases hi with rfl | rfl <;> simp
  refine hthrottled.bind fun _ v hv => ?_
  obtain hv | ⟨u, k, now, hu, hnow, rfl⟩ := hv
  · exact .of_ok rfl ⟨{ v with seq := .running (opcodeOfInstr i) 4 }, hv.ports.atStep _, hv.clean,
      .unchanged hne.1 hne.2.1 hne.2.2 _ _⟩
  · exact .of_ok rfl ⟨{ u with seq := .running (opcodeOfInstr i) 4 }, hu.ports.atStep _, hu.clean,
      .refreshed hi _ k now { u with seq := .running (opcodeOfInstr i) 4 } hnow⟩

/-! ### SET_FRONTEND -/

theorem tuneGate_starts {rs : List Reason} (hn : .notInitialized ∈ rs) : Starts .setFrontend 0 13 rs tuneGate := by
  refine (starts_atStep).bind fun _ => (advances_get).bind fun s => ?_
  split
  · exact advances_pure ()
  · exact advances_raise hn

theorem tuneBandwidth_advances {rs : List Reason} (hb : .bandwidth ∈ rs) (bw : U32) :
    Advances .setFrontend 0 13 rs (tuneBandwidth bw) := by
  refine (advances_atStep).bind fun _ => ?_
  split
  · exact advances_pure _
  · exact advances_raise hb

theorem tuneSetParams_advances {rs : List Reason} (c : Cfg) : Advances .setFrontend 0 13 rs (tuneSetParams c) :=
  (advances_atStep).bind fun _ => advances_onlyWhen _ advances_tunerSetParams

/-- TUNE.4 to TUNE.13, all of the branch but its last write of the state. -/
def tuneBranchHead (c : Cfg) (bw : U32) : M Unit := do
  atStep .setFrontend 4
  busWrite p.regs.coeff (lookupCoeff p c.clockHz bw)
  atStep .setFrontend 5
  let adc := lookupAdc p c.clockHz
  atStep .setFrontend 6
  let f ← tuneIf c
  let bytes ← tuneControl p c adc f.toInt
  atStep .setFrontend 13
  busWrite p.regs.freqCw bytes

/-- TUNE.14. -/
def recordBw (bw : U32) : M Unit := do
  atStep .setFrontend 14
  modify fun s => { s with cachedBw := bw }

theorem tuneBranch_eq (c : Cfg) (bw : U32) : tuneBranch p c bw = tuneBranchHead p c bw >>= fun _ => recordBw bw := by
  simp only [tuneBranch, tuneBranchHead, recordBw, bind_assoc]

theorem recordBw_run (bw : U32) (s : State) :
    recordBw bw s = .ok () { s with seq := .running .setFrontend 14, cachedBw := bw } := rfl

theorem tuneControl_advances {rs : List Reason} (c : Cfg) (adc : U32) (raw : Int) :
    Advances .setFrontend 0 13 rs (tuneControl p c adc raw) :=
  (advances_atStep).bind fun _ => (advances_atStep).bind fun _ => (advances_atStep).bind fun _ =>
  (advances_atStep).bind fun _ => (advances_atStep).bind fun _ => (advances_atStep).bind fun _ => advances_pure _

theorem tuneBranchHead_advances {rs : List Reason} (hw : .busWrite ∈ rs) (hb : .burstSize ∈ rs) (c : Cfg) (bw : U32) :
    Advances .setFrontend 0 13 rs (tuneBranchHead p c bw) := by
  have hif : Advances .setFrontend 0 13 rs (tuneIf c) := by
    unfold tuneIf
    split
    · exact advances_tunerGetIf
    · exact advances_pure _
  exact (advances_atStep).bind fun _ => (advances_busWrite hw fun _ => hb).bind fun _ =>
    (advances_atStep).bind fun _ => (advances_atStep).bind fun _ => hif.bind fun _ =>
    (tuneControl_advances p c _ _).bind fun _ => (advances_atStep).bind fun _ => advances_busWrite hw fun _ => hb

/-- TUNE.3 to TUNE.14 end with the requested bandwidth cached, whichever way they went. -/
theorem tuneReprogram_ends {rs : List Reason} (hw : .busWrite ∈ rs) (hb : .burstSize ∈ rs) (c : Cfg) (bw : U32)
    {s s' : State} (hs : Going .setFrontend 0 13 s s') :
    Ends (tuneReprogram p c bw) s' (fun _ v => ∃ u, PortOnly s u ∧ Clean s u ∧ v = { u with cachedBw := bw })
      (Raised .setFrontend 0 13 rs s) := by
  refine ((advances_atStep) s s' hs).bind fun _ a ha => ?_
  have hget : Ends (get : M State) a (fun b u => b = a ∧ u = a) (Raised .setFrontend 0 13 rs s) :=
    .of_ok (get_run a) ⟨rfl, rfl⟩
  refine hget.bind fun b b' h => ?_
  rw [h.1, h.2]
  split
  case isTrue hbw => exact .of_ok (pure_run () a) ⟨a, ha.ports, ha.clean, by rw [hbw]⟩
  case isFalse =>
    rw [tuneBranch_eq]
    exact (tuneBranchHead_advances p hw hb c bw s a ha).bind fun _ u hu =>
      .of_ok (recordBw_run bw u) ⟨{ u with seq := .running .setFrontend 14 }, hu.ports.atStep _, hu.clean, rfl⟩

theorem tuneTail_starts {rs : List Reason} (hw : .busWrite ∈ rs) (hr : .busRead ∈ rs) (code : Byte) (freq : U32) :
    Starts .setFrontend 15 20 rs (tuneTail p code freq) :=
  (starts_atStep).bind fun _ => (advances_writeMasked hr hw).bind fun _ =>
  (advances_atStep).bind fun _ => (advances_busWriteByte hw).bind fun _ =>
  (advances_atStep).bind fun _ => (advances_busWriteByte hw).bind fun _ =>
  (advances_atStep).bind fun _ => (advances_writeMasked hr hw).bind fun _ =>
  (advances_atStep).bind fun _ => (advances_busWriteByte hw).bind fun _ =>
  (advances_atStep).bind fun _ => (advances_busWriteByte hw).bind fun _ => advances_pure _

/-- What happens at the ports after the cached bandwidth was written could have happened before. -/
theorem PortOnly.of_setCachedBw {u v : State} {bw : U32} (h : PortOnly { u with cachedBw := bw } v) :
    ∃ w, PortOnly u w ∧ v = { w with cachedBw := bw } ∧ w.trace = v.trace ∧ w.seq = v.seq := by
  obtain ⟨es, e, q, rfl, hok, htimes⟩ := h
  exact ⟨u.moved es e q, ⟨es, e, q, rfl, hok, htimes⟩, rfl, rfl, rfl⟩

theorem tuneSteps_ends (bw freq : U32) (s : State) :
    Ends (tuneSteps s.params s.cfg bw freq) s (Answered (.setFrontend bw freq) s) (Failed (.setFrontend bw freq) s) := by
  have hmem (r : Reason) (h : r ∈ reasonsOf (.setFrontend bw freq)) : r ∈ raisable (.setFrontend bw freq) s.params :=
    mem_raisable h s.params
  have hw := hmem .busWrite (by simp [reasonsOf])
  have hr := hmem .busRead (by simp [reasonsOf])
  have hfail {r : Reason} {v : State} (h : Raised .setFrontend 0 13 (raisable (.setFrontend bw freq) s.params) s r v) :
      Failed (.setFrontend bw freq) s r v := Raised.failed (i := .setFrontend bw freq) h
  refine Ends.bind ((tuneGate_starts (hmem .notInitialized (by simp [reasonsOf])) s).mono (fun _ _ h => h)
    fun _ _ h => hfail h) fun _ a ha => ?_
  have hbandwidth := tuneBandwidth_advances (hmem .bandwidth (by simp [reasonsOf])) bw s a ha
  have hcode : ∀ code b, tuneBandwidth bw a = .ok code b → (bandwidthCode bw).isSome = true := by
    intro code b h
    cases hc : bandwidthCode bw with
    | some _ => rfl
    | none => rw [tuneBandwidth_of_none hc] at h; cases h
  refine Ends.bind (ok := fun _ b => (bandwidthCode bw).isSome = true ∧ Going .setFrontend 0 13 s b)
    ⟨fun code b h => ⟨hcode code b h, hbandwidth.1 code b h⟩, fun r v h => hfail (hbandwidth.2 r v h)⟩ fun code b hb => ?_
  obtain ⟨hbw, hb⟩ := hb
  refine Ends.bind ((tuneSetParams_advances s.cfg s b hb).mono (fun _ _ h => h) fun _ _ h => hfail h) fun _ c hc => ?_
  refine Ends.bind ((tuneReprogram_ends s.params hw (hmem .burstSize (by simp [reasonsOf])) s.cfg bw hc).mono (fun _ _ h => h)
    fun _ _ h => hfail h) fun _ d hd => ?_
  obtain ⟨u, hports, hclean, rfl⟩ := hd
  have htail := tuneTail_starts s.params hw hr code freq { u with cachedBw := bw }
  refine ⟨fun result v h => ?_, fun r v h => ?_⟩
  · obtain ⟨w, hw, rfl, htrace, -⟩ := (htail.1 result v h).ports.of_setCachedBw
    obtain ⟨rfl, -⟩ := (tuneTail_plans s.params code freq).events _ _ _ h
    exact ⟨w, hports.trans hw, hclean.trans (htail.1 _ _ h).clean, .tuned bw freq w hbw⟩
  · obtain ⟨hreason, htailPorts, hbroken, k, hseq, hk⟩ := htail.2 r v h
    obtain ⟨w, hw, rfl, htrace, hwseq⟩ := htailPorts.of_setCachedBw
    exact ⟨w, k, hports.trans hw, hclean.broken hbroken, hreason, hwseq.trans hseq, .late bw freq hk w hbw⟩

/-! ### Every host command -/

theorem stepsOf_ends {i : Instr} (hhost : isMicroOp (opcodeOfInstr i) = false) (s : State) :
    Ends (stepsOf i s) s (Answered i s) (Failed i s) := by
  cases i with
  | init => exact initSteps_ends s
  | sleep => exact sleepSteps_ends s
  | setFrontend bw freq => exact tuneSteps_ends bw freq s
  | getFrontend => exact (getFrontendSteps_starts s.params).ends_unchanged (i := .getFrontend) (by simp) (by simp) (by simp)
  | readStatus => exact (readStatusSteps_starts s.params).ends_unchanged (i := .readStatus) (by simp) (by simp) (by simp)
  | readSnr => exact (readSnrSteps_starts s.params).ends_unchanged (i := .readSnr) (by simp) (by simp) (by simp)
  | readSignalStrength =>
    exact (readSignalStrengthSteps_starts s.params).ends_unchanged (i := .readSignalStrength) (by simp) (by simp) (by simp)
  | readBer => exact statSteps_ends (.inl rfl) s fun u => leBytes 4 u.ber
  | readUcb => exact statSteps_ends (.inr rfl) s fun u => leBytes 4 u.ucb
  | setPidFilter idx pid en =>
    exact (setPidFilterSteps_starts s.params idx pid en).ends_unchanged (i := .setPidFilter idx pid en) (by simp) (by simp)
      (by simp)
  | setPidFilterEnabled en =>
    exact (setPidFilterEnabledSteps_starts s.params en).ends_unchanged (i := .setPidFilterEnabled en) (by simp) (by simp)
      (by simp)
  | i2cGateCtrl en =>
    exact (i2cGateCtrlSteps_starts s.params en).ends_unchanged (i := .i2cGateCtrl en) (by simp) (by simp) (by simp)
  | uopRegWrite | uopRegRead | uopRegWriteMasked | uopRegReadMasked | uopRegWriteTable | uopFpDivide => cases hhost

/-- Everything a host command can do: return what it answered, or take the error it raised. -/
theorem exec_host_cases {i : Instr} {s t : State} (hhost : isMicroOp (opcodeOfInstr i) = false) (h : exec i s = .next t) :
    (∃ result v, Answered i s result v ∧ t = returnOk result v) ∨
    (∃ r v, Failed i s r v ∧ t = takeError (opcodeByte (opcodeOfInstr i)) r v) := by
  have hends := stepsOf_ends hhost s
  rw [exec_eq_command hhost h]
  rcases command_cases (opcodeOfInstr i) (stepsOf i s) s with ⟨result, v, hok, ht⟩ | ⟨r, v, herr, ht⟩
  · exact .inl ⟨result, v, hends.1 result v hok, ht⟩
  · exact .inr ⟨r, v, hends.2 r v herr, ht⟩

/-! ### Every micro-operation -/

/-- Everything a micro-operation can do: keep its value, or take its error. -/
theorem exec_microOp_cases {i : Instr} {s t : State} (hop : isMicroOp (opcodeOfInstr i) = true) (h : exec i s = .next t) :
    ∃ u, PortOnly s u ∧ ((∃ v, t = { u with uopResult := v }) ∨ ∃ r, t = takeError (opcodeByte (opcodeOfInstr i)) r u) := by
  have hcases (op : Opcode) {body : M UopResult} (hbody : Keeps PortOnly body) :
      ∃ u, PortOnly s u ∧ ((∃ v, microOp op body s = { u with uopResult := v }) ∨
        ∃ r, microOp op body s = takeError (opcodeByte op) r u) := by
    rcases microOp_cases op body s with ⟨v, u, hok, ht⟩ | ⟨r, u, herr, ht⟩
    · exact ⟨u, (hbody s).1 v u hok, .inl ⟨v, ht⟩⟩
    · exact ⟨u, (hbody s).2 r u herr, .inr ⟨r, ht⟩⟩
  cases i with
  | uopRegWrite addr bytes => cases h; exact hcases _ (ports_bind (ports_busWrite _ _) fun _ => ports_pure _)
  | uopRegRead addr n => cases h; exact hcases _ (ports_bind (ports_busRead _ _) fun _ => ports_pure _)
  | uopRegWriteMasked addr value mask => cases h; exact hcases _ (ports_bind (ports_writeMasked _ _ _) fun _ => ports_pure _)
  | uopRegReadMasked addr mask => cases h; exact hcases _ (ports_bind (ports_readMasked _ _) fun _ => ports_pure _)
  | uopRegWriteTable entries => cases h; exact hcases _ (ports_bind (ports_writeTable _) fun _ => ports_pure _)
  | uopFpDivide a b x =>
    simp only [exec, execUopFpDivide] at h
    split at h
    · cases h
    · cases h; exact hcases _ (ports_pure _)
  | init | sleep | setFrontend | getFrontend | readStatus | readSnr | readSignalStrength | readBer | readUcb | setPidFilter
  | setPidFilterEnabled | i2cGateCtrl => cases hop

end Sys2Proof.Machine
end

