-- ==== Sys2Proof/Proofs/Invariants.lean ====
section
/-! SUPPORT. What every instruction leaves as it was, what every step keeps, and how every command ends: the settled
statements that follow from `exec_host_cases` and `exec_microOp_cases`. -/

namespace Sys2Proof.Machine

/-! ### What each write of the state leaves -/

theorem Fixed.trans {a b c : State} (h : Fixed a b) (k : Fixed b c) : Fixed a c := by
  obtain ⟨hp, hc, htp, hts⟩ := h
  obtain ⟨kp, kc, ktp, kts⟩ := k
  exact ⟨kp.trans hp, kc.trans hc, ktp.trans htp, kts.trans hts⟩

/-- The fields only the fetch, the host and a micro-operation run by itself write. -/
def SameQueues (s t : State) : Prop :=
  t.frames = s.frames ∧ t.issue = s.issue ∧ t.uopResult = s.uopResult ∧ t.responses = s.responses

theorem PortOnly.fixed {s u : State} (h : PortOnly s u) : Fixed s u := by
  obtain ⟨_, _, _, rfl, -, -⟩ := h; exact ⟨rfl, rfl, rfl, rfl⟩

theorem PortOnly.queues {s u : State} (h : PortOnly s u) : SameQueues s u := by
  obtain ⟨_, _, _, rfl, -, -⟩ := h; exact ⟨rfl, rfl, rfl, rfl⟩

theorem PortOnly.stats {s u : State} (h : PortOnly s u) : statsOf u = statsOf s := by
  obtain ⟨_, _, _, rfl, -, -⟩ := h; rfl

theorem PortOnly.cachedBw {s u : State} (h : PortOnly s u) : u.cachedBw = s.cachedBw := by
  obtain ⟨_, _, _, rfl, -, -⟩ := h; rfl

theorem PortOnly.fsm {s u : State} (h : PortOnly s u) : u.fsm = s.fsm := by
  obtain ⟨_, _, _, rfl, -, -⟩ := h; rfl

theorem PortOnly.trace {s u : State} (h : PortOnly s u) : s.trace <+: u.trace := by
  obtain ⟨es, _, _, rfl, -, -⟩ := h; exact List.prefix_append _ es

section Completed
variable {i : Instr} {result : List Byte} {u v : State}

theorem Completed.fixed (h : Completed i result u v) : Fixed u v := by cases h <;> exact ⟨rfl, rfl, rfl, rfl⟩

theorem Completed.queues (h : Completed i result u v) : SameQueues u v := by cases h <;> exact ⟨rfl, rfl, rfl, rfl⟩

theorem Completed.trace (h : Completed i result u v) : v.trace = u.trace := by cases h <;> rfl

theorem Completed.env (h : Completed i result u v) : v.env = u.env := by cases h <;> rfl

theorem Completed.stats (h : Completed i result u v) (hber : i ≠ .readBer) (hucb : i ≠ .readUcb) :
    statsOf v = statsOf u := by
  cases h with
  | refreshed hi => exact absurd hi (not_or.mpr ⟨hber, hucb⟩)
  | _ => rfl

theorem Completed.cachedBw (h : Completed i result u v) (hinit : i ≠ .init) (htune : ∀ bw freq, i ≠ .setFrontend bw freq) :
    v.cachedBw = u.cachedBw := by
  cases h with
  | init => exact absurd rfl hinit
  | tuned bw freq => exact absurd rfl (htune bw freq)
  | _ => rfl

end Completed

section Stopped
variable {i : Instr} {k : Nat} {u v : State}

theorem Stopped.fixed (h : Stopped i k u v) : Fixed u v := by cases h <;> exact ⟨rfl, rfl, rfl, rfl⟩

theorem Stopped.queues (h : Stopped i k u v) : SameQueues u v := by cases h <;> exact ⟨rfl, rfl, rfl, rfl⟩

theorem Stopped.trace (h : Stopped i k u v) : v.trace = u.trace := by cases h <;> rfl

theorem Stopped.env (h : Stopped i k u v) : v.env = u.env := by cases h <;> rfl

theorem Stopped.seq (h : Stopped i k u v) : v.seq = u.seq := by cases h <;> rfl

theorem Stopped.fsm (h : Stopped i k u v) : v.fsm = u.fsm := by cases h <;> rfl

theorem Stopped.stats (h : Stopped i k u v) : statsOf v = statsOf u := by cases h <;> rfl

theorem Stopped.cachedBw (h : Stopped i k u v) (htune : ∀ bw freq, i ≠ .setFrontend bw freq) :
    v.cachedBw = u.cachedBw := by
  cases h with
  | early => rfl
  | late bw freq => exact absurd rfl (htune bw freq)

end Stopped

/-! ### No instruction writes the configuration; only their commands write the statistics and the cached bandwidth -/

/-- A relation that the pieces of a command and its last write keep holds for every host command. -/
theorem exec_host_keeps {R : State → State → Prop} (trans : ∀ a b c, R a b → R b c → R a c)
    (hreturn : ∀ result v, R v (returnOk result v)) (herror : ∀ op r v, R v (takeError op r v)) {i : Instr}
    (hports : ∀ a b, PortOnly a b → R a b) (hcompleted : ∀ result u v, Completed i result u v → R u v)
    (hstopped : ∀ k u v, Stopped i k u v → R u v) {s t : State} (hhost : isMicroOp (opcodeOfInstr i) = false)
    (h : exec i s = .next t) : R s t := by
  obtain ⟨result, v, ⟨u, hp, -, hc⟩, rfl⟩ | ⟨r, v, ⟨u, k, hp, -, -, -, hs⟩, rfl⟩ := exec_host_cases hhost h
  · exact trans _ _ _ (trans _ _ _ (hports _ _ hp) (hcompleted _ _ _ hc)) (hreturn _ _)
  · exact trans _ _ _ (trans _ _ _ (hports _ _ hp) (hstopped _ _ _ hs)) (herror _ _ _)

theorem exec_microOp_keeps {R : State → State → Prop} (trans : ∀ a b c, R a b → R b c → R a c)
    (hvalue : ∀ u v, R u { u with uopResult := v }) (herror : ∀ op r v, R v (takeError op r v)) {i : Instr}
    (hports : ∀ a b, PortOnly a b → R a b) {s t : State} (hop : isMicroOp (opcodeOfInstr i) = true)
    (h : exec i s = .next t) : R s t := by
  obtain ⟨u, hp, ⟨v, rfl⟩ | ⟨r, rfl⟩⟩ := exec_microOp_cases hop h
  · exact trans _ _ _ (hports _ _ hp) (hvalue _ _)
  · exact trans _ _ _ (hports _ _ hp) (herror _ _ _)

/-- Settles O12: neither the ports, nor a command's own write, nor a return or an error writes them. -/
theorem configurationNeverWritten : Obligations.ConfigurationNeverWritten := by
  intro i s t h
  cases hop : isMicroOp (opcodeOfInstr i) with
  | false =>
    exact exec_host_keeps (R := Fixed) (fun _ _ _ => Fixed.trans) (fun _ _ => ⟨rfl, rfl, rfl, rfl⟩)
      (fun _ _ _ => ⟨rfl, rfl, rfl, rfl⟩) (fun _ _ => PortOnly.fixed) (fun _ _ _ => Completed.fixed)
      (fun _ _ _ => Stopped.fixed) hop h
  | true =>
    exact exec_microOp_keeps (R := Fixed) (fun _ _ _ => Fixed.trans) (fun _ _ => ⟨rfl, rfl, rfl, rfl⟩)
      (fun _ _ _ => ⟨rfl, rfl, rfl, rfl⟩) (fun _ _ => PortOnly.fixed) hop h

theorem exec_keeps_stats {i : Instr} {s t : State} (h : exec i s = .next t) (hber : i ≠ .readBer) (hucb : i ≠ .readUcb) :
    statsOf t = statsOf s := by
  cases hop : isMicroOp (opcodeOfInstr i) with
  | false =>
    exact exec_host_keeps (R := fun a b => statsOf b = statsOf a) (fun _ _ _ h k => k.trans h) (fun _ _ => rfl)
      (fun _ _ _ => rfl) (fun _ _ => PortOnly.stats) (fun _ _ _ hc => hc.stats hber hucb) (fun _ _ _ => Stopped.stats) hop h
  | true =>
    exact exec_microOp_keeps (R := fun a b => statsOf b = statsOf a) (fun _ _ _ h k => k.trans h) (fun _ _ => rfl)
      (fun _ _ _ => rfl) (fun _ _ => PortOnly.stats) hop h

theorem exec_keeps_cachedBw {i : Instr} {s t : State} (h : exec i s = .next t) (hinit : i ≠ .init)
    (htune : ∀ bw freq, i ≠ .setFrontend bw freq) : t.cachedBw = s.cachedBw := by
  cases hop : isMicroOp (opcodeOfInstr i) with
  | false =>
    exact exec_host_keeps (R := fun a b => b.cachedBw = a.cachedBw) (fun _ _ _ h k => k.trans h) (fun _ _ => rfl)
      (fun _ _ _ => rfl) (fun _ _ => PortOnly.cachedBw) (fun _ _ _ hc => hc.cachedBw hinit htune)
      (fun _ _ _ hs => hs.cachedBw htune) hop h
  | true =>
    exact exec_microOp_keeps (R := fun a b => b.cachedBw = a.cachedBw) (fun _ _ _ h k => k.trans h) (fun _ _ => rfl)
      (fun _ _ _ => rfl) (fun _ _ => PortOnly.cachedBw) hop h

/-- Settles O13: of the last writes, only a refresh is to the statistics, and only INIT's and SET_FRONTEND's are to the cached
bandwidth. -/
theorem onlyTheirCommandsWrite : Obligations.OnlyTheirCommandsWrite := by
  intro i s t h
  refine ⟨fun hber hucb => exec_keeps_stats h ?_ ?_, fun hinit htune => exec_keeps_cachedBw h ?_ ?_⟩
  · rintro rfl; exact hber rfl
  · rintro rfl; exact hucb rfl
  · rintro rfl; exact hinit rfl
  · rintro bw freq rfl; exact htune rfl

/-! ### The uncorrected-block count (45_statistics.md R135) -/

theorem ucb_eq_of_stats_eq {s t : State} (h : statsOf t = statsOf s) : t.ucb = s.ucb := congrArg (·.2.1) h

/-- The abort count of a refresh has 16 bits: the clamp is below 2^16 too. -/
theorem abortOf_lt (k : Counts) : (abortOf k).toNat < 2 ^ 16 := by
  unfold abortOf
  split
  · decide
  · rw [BitVec.toNat_setWidth, Nat.mod_eq_of_lt] <;> have := k.abort.isLt <;> omega

/-- Settles O14: only a refresh writes the count, and it adds its abort count. -/
theorem ucbAccumulates : Obligations.UcbAccumulates := by
  intro i s t h
  by_cases hi : i = .readBer ∨ i = .readUcb
  · have hhost : isMicroOp (opcodeOfInstr i) = false := by rcases hi with rfl | rfl <;> rfl
    obtain ⟨result, v, ⟨u, hp, -, hc⟩, rfl⟩ | ⟨r, v, ⟨u, k, hp, -, -, -, hs⟩, rfl⟩ := exec_host_cases hhost h
    · have hu := ucb_eq_of_stats_eq hp.stats
      cases hc with
      | refreshed _ _ k =>
        exact .inr ⟨(abortOf k).toNat, abortOf_lt k, by simp [hu]⟩
      | _ => exact .inl hu
    · exact .inl ((ucb_eq_of_stats_eq hs.stats).trans (ucb_eq_of_stats_eq hp.stats))
  · exact .inl (ucb_eq_of_stats_eq (exec_keeps_stats h (fun e => hi (.inl e)) fun e => hi (.inr e)))

/-! ### How a command ends -/

/-- The response of a failed command: the command's own opcode, and the step it stood at. -/
theorem Failed.responses {i : Instr} {s v : State} {r : Reason} (h : Failed i s r v) (op : Byte) :
    ∃ u k, PortOnly s u ∧ Broken r s u ∧ r ∈ raisable i s.params ∧ Stopped i k u v ∧ v.seq = .running (opcodeOfInstr i) k ∧
      (takeError op r v).responses = s.responses ++
        [[statusByte (statusOf r), opcodeByte (opcodeOfInstr i), BitVec.ofNat 8 k, reasonByte r]] := by
  obtain ⟨u, k, hp, hbroken, hr, hseq, hs⟩ := h
  have hv := hs.seq.trans hseq
  refine ⟨u, k, hp, hbroken, hr, hs, hv, ?_⟩
  rw [takeError_responses, hs.queues.2.2.2, hp.queues.2.2.2, hv]
  rfl

theorem Answered.responses {i : Instr} {s v : State} {result : List Byte} (h : Answered i s result v) :
    (returnOk result v).responses = s.responses ++ [0x00#8 :: result] := by
  obtain ⟨u, hp, -, hc⟩ := h
  rw [returnOk_responses, hc.queues.2.2.2, hp.queues.2.2.2]
  rfl

/-- A command gives one response, so a response that was seen is that one. -/
theorem response_unique {s t : State} {r r' : List Byte} (h : t.responses = s.responses ++ [r])
    (h' : t.responses = s.responses ++ [r']) : r = r' := by
  rw [h] at h'
  simpa using h'

theorem statusByte_ne_ok (k : Status) : statusByte k ≠ 0x00#8 := by cases k <;> decide

theorem statusByte_eq_transport_iff (k : Status) : statusByte k = 0x02#8 ↔ k = .transport := by
  cases k <;> decide

/-- Settles O16: the return and the error each leave IDLE and give one response, and nothing before them does. -/
theorem commandAnswersOnce : Obligations.CommandAnswersOnce := by
  intro i s t hhost h
  obtain ⟨result, v, ha, rfl⟩ | ⟨r, v, hf, rfl⟩ := exec_host_cases hhost h
  · have hresp := ha.responses
    obtain ⟨u, hp, -, hc⟩ := ha
    obtain ⟨hframes, hissue, huop, -⟩ := hp.queues
    obtain ⟨hframes', hissue', huop', -⟩ := hc.queues
    exact ⟨rfl, ⟨_, hresp⟩, hc.trace ▸ hp.trace, hframes'.trans hframes, hissue'.trans hissue, huop'.trans huop⟩
  · obtain ⟨u, k, hp, -, -, hs, -, hresp⟩ := hf.responses (opcodeByte (opcodeOfInstr i))
    obtain ⟨hframes, hissue, huop, -⟩ := hp.queues
    obtain ⟨hframes', hissue', huop', -⟩ := hs.queues
    exact ⟨rfl, ⟨_, hresp⟩, hs.trace ▸ hp.trace, hframes'.trans hframes, hissue'.trans hissue, huop'.trans huop⟩

/-- The reasons of a command go with the codes R142 lists for it. -/
theorem reasonsOf_allowed (i : Instr) : ∀ r ∈ reasonsOf i, (statusByte (statusOf r), reasonByte r) ∈ allowedErrors i := by
  cases i <;> simp [reasonsOf, allowedErrors, statusOf, statusByte, reasonByte]

/-- Settles O17: the error names the command's opcode, and its reason is one the command may raise. -/
theorem errorsOfEachCommand : Obligations.ErrorsOfEachCommand := by
  intro i s t hhost hfits h
  obtain ⟨result, v, ha, rfl⟩ | ⟨r, v, hf, rfl⟩ := exec_host_cases hhost h
  · exact ⟨_, ha.responses, .inl rfl⟩
  · obtain ⟨u, k, -, -, hr, -, -, hresp⟩ := hf.responses (opcodeByte (opcodeOfInstr i))
    rw [raisable, if_pos hfits] at hr
    exact ⟨_, hresp, .inr ⟨_, _, _, rfl, reasonsOf_allowed i r hr⟩⟩

/-- Settles O18: a command that answers has no failed transaction, and one that raises has the one its error goes with. -/
theorem failedTransactionIsLast : Obligations.FailedTransactionIsLast := by
  intro i s t hhost h
  obtain ⟨result, v, ha, rfl⟩ | ⟨r, v, hf, rfl⟩ := exec_host_cases hhost h
  · have hresp := ha.responses
    obtain ⟨u, -, ⟨es, hes, hclean⟩, hc⟩ := ha
    refine ⟨es, _, hc.trace.trans hes, hresp, fun e he => hclean e (List.mem_of_mem_dropLast he), ?_⟩
    refine iff_of_false (by simp) fun ⟨e, he, hfailed⟩ => ?_
    rw [hclean e (List.mem_of_getLast? he)] at hfailed
    cases hfailed
  · obtain ⟨u, k, -, hbroken, -, hs, -, hresp⟩ := hf.responses (opcodeByte (opcodeOfInstr i))
    have hhead : [statusByte (statusOf r), opcodeByte (opcodeOfInstr i), BitVec.ofNat 8 k, reasonByte r].head? = some 0x02#8 ↔
        statusOf r = .transport := by
      rw [List.head?_cons, Option.some_inj, statusByte_eq_transport_iff]
    obtain ⟨hr, es, hes, hclean⟩ | ⟨hr, w, ev, ⟨es, hes, hclean⟩, hev, hfailed⟩ := hbroken
    · refine ⟨es, _, hs.trace.trans hes, hresp, fun e he => hclean e (List.mem_of_mem_dropLast he), ?_⟩
      refine iff_of_false (fun e => hr (hhead.mp e)) fun ⟨e, he, hfailed⟩ => ?_
      rw [hclean e (List.mem_of_getLast? he)] at hfailed
      cases hfailed
    · refine ⟨es ++ [ev], _, by rw [← List.append_assoc, ← hes, ← hev]; exact hs.trace, hresp, ?_, ?_⟩
      · rwa [List.dropLast_concat]
      · exact iff_of_true (hhead.mpr hr) ⟨ev, List.getLast?_concat .., hfailed⟩

/-! ### The control state (R109, R108) -/

/-- An error inside a command leaves UNCONFIGURED for INIT and SLEEP, and the control state as it was for every other. -/
theorem fsmAfterError_running (o : Opcode) (k : Nat) (fsm : Fsm) :
    fsmAfterError (.running o k) fsm = if o = .init ∨ o = .sleep then .unconfigured else fsm := by
  cases o <;> rfl

theorem Failed.fsm {i : Instr} {s v : State} {r : Reason} (h : Failed i s r v) (op : Byte) :
    (takeError op r v).fsm =
      if opcodeOfInstr i = .init ∨ opcodeOfInstr i = .sleep then .unconfigured else s.fsm := by
  obtain ⟨u, k, hp, -, -, hseq, hs⟩ := h
  rw [takeError_fsm, hs.seq, hseq, hs.fsm, hp.fsm, fsmAfterError_running]

/-- INIT and SLEEP are the commands of their rows. -/
theorem opcodeOfInstr_init_or_sleep_iff (i : Instr) :
    (opcodeOfInstr i = .init ∨ opcodeOfInstr i = .sleep) ↔ i = .init ∨ i = .sleep := by
  cases i <;> simp [opcodeOfInstr]

theorem Failed.fsm_unconfigured {i : Instr} {s v : State} {r : Reason} (h : Failed i s r v) (hi : i = .init ∨ i = .sleep)
    (op : Byte) : (takeError op r v).fsm = .unconfigured := by
  rw [h.fsm, if_pos ((opcodeOfInstr_init_or_sleep_iff i).mpr hi)]

theorem Failed.fsm_same {i : Instr} {s v : State} {r : Reason} (h : Failed i s r v) (hinit : i ≠ .init)
    (hsleep : i ≠ .sleep) (op : Byte) : (takeError op r v).fsm = s.fsm := by
  rw [h.fsm, if_neg (mt (opcodeOfInstr_init_or_sleep_iff i).mp (not_or.mpr ⟨hinit, hsleep⟩))]

theorem opcodeOfInstr_eq_setFrontend {i : Instr} (h : opcodeOfInstr i = .setFrontend) : ∃ bw freq, i = .setFrontend bw freq := by
  cases i with
  | setFrontend bw freq => exact ⟨bw, freq, rfl⟩
  | _ => cases h

/-- The row of R109 for a command: from its end. -/
theorem exec_controlState {i : Instr} {s t : State} (hhost : isMicroOp (opcodeOfInstr i) = false) (h : exec i s = .next t) :
    ∃ r : List Byte, t.responses = s.responses ++ [r] ∧
      (i = .init → t.fsm = if r.head? = some 0x00#8 then .active else .unconfigured) ∧
      (i = .sleep → t.fsm = if r.head? = some 0x00#8 then .asleep else .unconfigured) ∧
      (i ≠ .init → i ≠ .sleep → t.fsm = s.fsm) := by
  obtain ⟨result, v, ha, rfl⟩ | ⟨r, v, hf, rfl⟩ := exec_host_cases hhost h
  · refine ⟨_, ha.responses, ?_⟩
    obtain ⟨u, hp, -, hc⟩ := ha
    cases hc with
    | init => simp
    | sleep => simp
    | tuned => simpa using hp.fsm
    | refreshed hi =>
      rcases hi with rfl | rfl <;> simpa using hp.fsm
    | unchanged hinit hsleep => exact ⟨fun e => absurd e hinit, fun e => absurd e hsleep, fun _ _ => hp.fsm⟩
  · obtain ⟨u, k, -, -, -, -, -, hresp⟩ := hf.responses (opcodeByte (opcodeOfInstr i))
    refine ⟨_, hresp, ?_⟩
    have hstatus : some (statusByte (statusOf r)) ≠ some 0x00#8 := fun e => statusByte_ne_ok _ (Option.some.inj e)
    rw [List.head?_cons, if_neg hstatus, if_neg hstatus]
    exact ⟨fun e => hf.fsm_unconfigured (.inl e) _, fun e => hf.fsm_unconfigured (.inr e) _,
      fun hinit hsleep => hf.fsm_same hinit hsleep _⟩

/-- Settles O15: the ends of a command give its row, the gate of SET_FRONTEND its answer outside ACTIVE, and an illegal frame
is an error with no command running. -/
theorem controlStateTable : Obligations.ControlStateTable := by
  refine ⟨fun i s t hhost h => ?_, fun s t f rest e hidle hframes he h => ?_⟩
  · obtain ⟨r, hresp, hinit, hsleep, hother⟩ := exec_controlState hhost h
    refine ⟨r, hresp, hinit, hsleep, hother, fun htune hactive => ?_⟩
    obtain ⟨bw, freq, rfl⟩ := opcodeOfInstr_eq_setFrontend htune
    rw [tuneRefusedUnlessActive s bw freq hactive] at h
    cases h
    exact response_unique hresp rfl
  · rw [step_of_idle hidle hframes] at h
    simp only [serveFrame, he] at h
    cases h
    show fsmAfterError s.seq s.fsm = s.fsm
    rw [hidle.1]
    rfl

/-- Settles O22: a response that is not OK is an error's, and an error of INIT or SLEEP leaves UNCONFIGURED. -/
theorem failedInitOrSleepUnconfigures : Obligations.FailedInitOrSleepUnconfigures := by
  intro i s t r hi h hresp hr
  have hhost : isMicroOp (opcodeOfInstr i) = false := by rcases hi with rfl | rfl <;> rfl
  obtain ⟨result, v, ha, rfl⟩ | ⟨re, v, hf, rfl⟩ := exec_host_cases hhost h
  · rw [response_unique hresp ha.responses] at hr
    exact absurd rfl hr
  · obtain ⟨u, k, hp, -, -, hs, -, hresp'⟩ := hf.responses (opcodeByte (opcodeOfInstr i))
    have htune (bw freq) : i ≠ .setFrontend bw freq := by rcases hi with rfl | rfl <;> simp
    exact ⟨hf.fsm_unconfigured hi _, rfl, (hs.cachedBw htune).trans hp.cachedBw, by rw [response_unique hresp hresp']; rfl⟩

/-! ### SET_FRONTEND and the statistics commands that fail -/

/-- Settles O29: the step in the response is the one the command stood at, which tells whether TUNE.14 was behind it. -/
theorem failedTuneCachedBandwidth : Obligations.FailedTuneCachedBandwidth := by
  intro s t bw freq st op k re hactive h hresp
  obtain ⟨result, v, ha, rfl⟩ | ⟨r, v, hf, rfl⟩ := exec_host_cases (i := .setFrontend bw freq) rfl h
  · have hresult := response_unique hresp ha.responses
    obtain ⟨u, -, -, hc⟩ := ha
    cases hc with
    | tuned => simp at hresult
    | refreshed hi => simp at hi
    | unchanged _ _ htune => exact absurd rfl (htune bw freq)
  · obtain ⟨u, j, hp, -, -, hs, -, hresp'⟩ := hf.responses (opcodeByte .setFrontend)
    obtain ⟨-, -, hk, -⟩ : _ ∧ _ ∧ k = BitVec.ofNat 8 j ∧ _ := by simpa using response_unique hresp hresp'
    refine ⟨(hf.fsm _).trans hactive, ?_⟩
    subst hk
    cases hs with
    | early hj => exact ⟨fun _ => hp.cachedBw, fun h15 => by bv_omega⟩
    | late _ _ hj => exact ⟨fun h13 => by bv_omega, fun _ => rfl⟩

/-- Settles O30: an answer OK is not an error's, so the steps answered, and their events are counted piece by piece. -/
theorem tuneEventCounts : Obligations.TuneEventCounts := by
  intro s t bw freq hactive h hresp
  have hcmd := exec_eq_command (i := .setFrontend bw freq) rfl h
  rcases command_cases .setFrontend (tuneSteps s.params s.cfg bw freq) s with ⟨result, v, hok, ht⟩ | ⟨r, v, herr, ht⟩
  · obtain ⟨es, hes, hn⟩ := tuneSteps_ok_tally hactive hok
    simp only [tally, Prod.mk.injEq] at hn
    exact ⟨es, (congrArg State.trace (hcmd.trans ht)).trans hes, hn⟩
  · have hfailed := (tuneSteps_ends bw freq s).2 r v herr
    obtain ⟨u, k, -, -, -, -, -, hresp'⟩ := hfailed.responses (opcodeByte .setFrontend)
    have := response_unique hresp ((congrArg State.responses (hcmd.trans ht)).trans hresp')
    simp at this

/-- Settles O46: a statistics command that raises has written nothing but the ports' fields. -/
theorem failedRefreshWritesNothing : Obligations.FailedRefreshWritesNothing := by
  intro i s t r hi h hresp hr
  have hhost : isMicroOp (opcodeOfInstr i) = false := by rcases hi with rfl | rfl <;> rfl
  obtain ⟨result, v, ha, rfl⟩ | ⟨re, v, ⟨u, k, hp, -, -, -, hs⟩, rfl⟩ := exec_host_cases hhost h
  · rw [response_unique hresp ha.responses] at hr
    exact absurd rfl hr
  · exact hs.stats.trans hp.stats

/-! ### The invariant of the block -/

theorem TimesOk.of_ports {s u : State} (h : TimesOk s) (hp : PortOnly s u) : TimesOk u := by
  obtain ⟨es, e, q, rfl, -, hle, hes, hbounds⟩ := hp
  obtain ⟨hpairs, hnow, hstat⟩ := h
  refine ⟨?_, fun t ht => ?_, fun t ht => ?_⟩
  · rw [timesOf_append, List.pairwise_append]
    exact ⟨hpairs, hes, fun a ha b hb => (hnow a ha).trans (hbounds b hb).1⟩
  · rw [timesOf_append, List.mem_append] at ht
    exact ht.elim (fun ht => (hnow t ht).trans hle) fun ht => (hbounds t ht).2
  · rw [timesOf_append]
    exact List.mem_append_left _ (hstat t ht)

theorem TraceOk.of_ports {s u : State} (h : TraceOk s) (hp : PortOnly s u) : TraceOk u := by
  obtain ⟨es, e, q, rfl, hok, -⟩ := hp
  exact fun ev hev => (List.mem_append.mp hev).elim (h ev) (hok ev)

/-- The invariant but for the pointer, which moves while a command runs. -/
structure RunInv (s : State) : Prop where
  issue : s.issue = none
  tsFlags : TsFlagsOk s
  cachedBw : CachedBwOk s
  times : TimesOk s
  trace : TraceOk s

theorem RunInv.of_ports {s u : State} (h : RunInv s) (hp : PortOnly s u) : RunInv u := by
  have htimes := h.times.of_ports hp
  have htrace := h.trace.of_ports hp
  obtain ⟨_, _, _, rfl, -, -⟩ := hp
  exact ⟨h.issue, h.tsFlags, h.cachedBw, htimes, htrace⟩

theorem RunInv.of_completed {i : Instr} {result : List Byte} {u v : State} (h : RunInv u) (hc : Completed i result u v) :
    RunInv v := by
  obtain ⟨hissue, hflags, hbw, ⟨hpairs, hnow, hstat⟩, htrace⟩ := h
  cases hc with
  | init => exact ⟨hissue, hflags, .inl rfl, ⟨hpairs, hnow, hstat⟩, htrace⟩
  | sleep => exact ⟨hissue, hflags, hbw, ⟨hpairs, hnow, hstat⟩, htrace⟩
  | tuned _ _ _ hcode => exact ⟨hissue, hflags, .inr hcode, ⟨hpairs, hnow, hstat⟩, htrace⟩
  | refreshed _ _ _ now _ hmem =>
    exact ⟨hissue, hflags, hbw, ⟨hpairs, hnow, fun t ht => by cases ht; exact hmem⟩, htrace⟩
  | unchanged => exact ⟨hissue, hflags, hbw, ⟨hpairs, hnow, hstat⟩, htrace⟩

theorem RunInv.of_stopped {i : Instr} {k : Nat} {u v : State} (h : RunInv u) (hs : Stopped i k u v) : RunInv v := by
  cases hs with
  | early => exact h
  | late _ _ _ _ hcode => exact ⟨h.issue, h.tsFlags, .inr hcode, h.times, h.trace⟩

/-- With the pointer back at IDLE the invariant is whole again, whatever the response and the control state. -/
theorem RunInv.blockInv {v : State} (h : RunInv v) (fsm : Fsm) (responses : List (List Byte)) :
    BlockInv { v with fsm := fsm, seq := .idle, responses := responses } :=
  ⟨⟨rfl, h.issue⟩, h.tsFlags, h.cachedBw, h.times, h.trace⟩

theorem exec_host_keeps_inv {i : Instr} {s t : State} (hhost : isMicroOp (opcodeOfInstr i) = false) (hinv : BlockInv s)
    (h : exec i s = .next t) : BlockInv t := by
  have hrun : RunInv s := ⟨hinv.idle.2, hinv.tsFlags, hinv.cachedBw, hinv.times, hinv.trace⟩
  obtain ⟨result, v, ⟨u, hp, -, hc⟩, rfl⟩ | ⟨r, v, ⟨u, k, hp, -, -, -, hs⟩, rfl⟩ := exec_host_cases hhost h
  · exact ((hrun.of_ports hp).of_completed hc).blockInv _ _
  · exact ((hrun.of_ports hp).of_stopped hs).blockInv _ _

/-- Serving a frame keeps the invariant: an accepted one is a host command, and an illegal one is only answered. -/
theorem serveFrame_keeps_inv {f : List Byte} {s t : State} (hinv : BlockInv s) (h : serveFrame f s = .next t) :
    BlockInv t := by
  unfold serveFrame at h
  cases hdec : decodeFrame f with
  | ok i =>
    rw [hdec] at h
    exact exec_host_keeps_inv (encode_of_decodeFrame hdec).2.1 hinv h
  | error e =>
    rw [hdec] at h
    cases h
    exact ⟨⟨rfl, hinv.idle.2⟩, hinv.tsFlags, hinv.cachedBw, hinv.times, hinv.trace⟩

/-- Settles O11: between commands a step serves the next frame, or waits. -/
theorem stepKeepsInv : Obligations.StepKeepsInv := by
  intro s t hinv h
  cases hframes : s.frames with
  | nil =>
    obtain ⟨hseq, hissue⟩ := hinv.idle
    simp only [step, fetchAndRun, hseq, hissue, hframes] at h
    cases h
    exact hinv
  | cons f rest =>
    rw [step_of_idle hinv.idle hframes] at h
    exact serveFrame_keeps_inv (s := { s with frames := rest })
      ⟨hinv.idle, hinv.tsFlags, hinv.cachedBw, hinv.times, hinv.trace⟩ h

end Sys2Proof.Machine
end

