-- ==== Sys2Proof/Proofs/Values.lean ====
section
/-! SUPPORT. The values commands compute: the divider (41_fixed_point.md), the folded IF and the frequency control word
(43_tuning.md), the status fields (44_status.md) and the statistics (45_statistics.md), and the settled statements about
them. -/

namespace Sys2Proof.Machine

/-! ### The reference divider (R86, R87) -/

/-- The loop below its bounds: what is left of the dividend stays below twice the divisor, so that no step overflows, and
each step adds one bit to the quotient. -/
theorem divideLoop_mod {b : Nat} (hb : b < 2 ^ 31) (x : Nat) {a : Nat} (ha : a < 2 * b) (r : Nat) :
    divideLoop b x a r % 2 ^ 32 = (r * 2 ^ x + 2 * (a * 2 ^ x / (2 * b))) % 2 ^ 32 := by
  induction x generalizing a r with
  | zero => simp [divideLoop, Nat.div_eq_of_lt ha]
  | succ x ih =>
    by_cases h : b ≤ a
    · have hlt : (a - b) * 2 < 2 ^ 32 := by omega
      have hquot : a * 2 ^ (x + 1) / (2 * b) = (a - b) * 2 * 2 ^ x / (2 * b) + 2 ^ x := by
        rw [← Nat.add_mul_div_left _ _ (by omega : 0 < 2 * b)]
        congr 1
        obtain ⟨d, rfl⟩ := Nat.exists_eq_add_of_le h
        rw [Nat.add_sub_cancel_left]
        ring
      rw [divideLoop, if_pos h, Nat.mod_eq_of_lt hlt, ih (by omega), hquot]
      conv_lhs => rw [Nat.add_mod, Nat.mod_mul_mod, ← Nat.add_mod]
      congr 1
      ring
    · have hlt : a * 2 < 2 ^ 32 := by omega
      rw [divideLoop, if_neg h, Nat.mod_eq_of_lt hlt, ih (by omega)]
      conv_lhs => rw [Nat.add_mod, Nat.mod_mul_mod, ← Nat.add_mod]
      rw [Nat.mul_assoc a, Nat.mul_assoc r, ← Nat.pow_succ']

/-- The quotient's integer part and the rest the loop starts from. -/
theorem divideReference_eq {a b c a' : Nat} (hb0 : 0 < b) (hb : b < 2 ^ 31) (hc : c = if b < a then a / b else 0)
    (ha' : a' = a - c * b) (x : Nat) :
    a' ≤ b ∧ a = c * b + a' ∧ divideReference a b x = (c * 2 ^ x + 2 * (a' * 2 ^ x / (2 * b))) % 2 ^ 32 := by
  have hdef : divideReference a b x = (c * 2 ^ x + divideLoop b x (if b < a then a - c * b else a) 0) % 2 ^ 32 := by
    rw [hc]; rfl
  have hrest : a' ≤ b ∧ a = c * b + a' ∧ (if b < a then a - c * b else a) = a' := by
    by_cases h : b < a
    · rw [if_pos h] at hc ⊢
      have hdiv : c * b + a % b = a := by rw [hc, Nat.div_add_mod']
      have hmod := Nat.mod_lt a hb0
      omega
    · rw [if_neg h] at hc ⊢
      subst hc
      omega
  obtain ⟨hle, hsum, heq⟩ := hrest
  refine ⟨hle, hsum, ?_⟩
  rw [hdef, heq, Nat.add_mod, divideLoop_mod hb x (by omega), ← Nat.add_mod, Nat.zero_mul, Nat.zero_add]

/-- Twice a floor is the floor of the double, or one less. -/
theorem two_mul_div_bounds (n : Nat) {b : Nat} (hb : 0 < b) : 2 * (n / b) ≤ 2 * n / b ∧ 2 * n / b ≤ 2 * (n / b) + 1 := by
  have hdiv := Nat.div_add_mod n b
  have hmod := Nat.mod_lt n hb
  refine ⟨(Nat.le_div_iff_mul_le hb).mpr ?_, Nat.lt_succ_iff.mp ((Nat.div_lt_iff_lt_mul hb).mpr ?_)⟩ <;>
    generalize n / b = q, n % b = m at * <;> nlinarith

/-- Settles O35: the loop's closed form, and the floor of a double against twice the floor. -/
theorem dividerClosedForm : Obligations.DividerClosedForm := by
  intro a b x _ hb0 hb _ c a'
  obtain ⟨hle, hsum, hloop⟩ := divideReference_eq hb0 hb (c := c) (a' := a') rfl rfl x
  rw [divide_reference_toNat, hloop, hsum]
  cases x with
  | zero =>
    have h0 : a' * 2 ^ 0 / (2 * b.toNat) = 0 := Nat.div_eq_of_lt (by omega)
    exact ⟨by rw [h0, if_pos rfl]; simp, fun h => absurd h (by decide)⟩
  | succ x =>
    have hhalf : a' * 2 ^ (x + 1) / (2 * b.toNat) = a' * 2 ^ x / b.toNat := by
      rw [Nat.pow_succ', Nat.mul_left_comm, Nat.mul_div_mul_left _ _ (by decide)]
    have hfloor : (c * b.toNat + a') * 2 ^ (x + 1) / b.toNat = c * 2 ^ (x + 1) + 2 * (a' * 2 ^ x) / b.toNat := by
      rw [Nat.add_mul, Nat.mul_right_comm, Nat.add_comm, Nat.add_mul_div_right _ _ hb0, Nat.pow_succ', Nat.mul_left_comm a',
        Nat.add_comm]
    obtain ⟨hlow, hhigh⟩ := two_mul_div_bounds (a' * 2 ^ x) hb0
    rw [hhalf]
    refine ⟨by rw [if_neg (Nat.succ_ne_zero x), Nat.add_sub_cancel], fun _ hlt => ?_⟩
    rw [hfloor] at hlt ⊢
    rw [Nat.mod_eq_of_lt (by omega)]
    omega

/-! ### The fold (R118, R122) -/

/-- Settles O34: what the fold takes away is a multiple of the ADC frequency, and its bounds leave no multiple but 0. -/
theorem foldedIfZero : Obligations.FoldedIfZero := by
  intro adc f hadc
  have hpos : 0 < adc.toNat := by bv_omega
  obtain ⟨k, hk⟩ := foldIf_eq_sub_mul adc f
  constructor
  · intro h0
    have hf : f = k * adc.toNat := by omega
    exact ⟨hf ▸ by positivity, hf ▸ Dvd.intro_left _ rfl⟩
  · rintro ⟨hf, hdvd⟩
    have hdvd' : (adc.toNat : Int) ∣ foldIf adc f := hk ▸ dvd_sub hdvd (Dvd.intro_left _ rfl)
    have hle := foldIf_le hadc f
    have hlow : -(adc.toNat : Int) < foldIf adc f := by
      by_cases h : f ≤ (adc.toNat / 2 : Nat)
      · rw [foldIf_of_le h]; omega
      · have := lt_foldIf (adc := adc) (f := f) (by omega); omega
    exact Int.eq_zero_of_abs_lt_dvd hdvd' (abs_lt.mpr ⟨hlow, by omega⟩)

/-! ### The frequency control word (R119 to R122) -/

theorem complementWord_eq (specInv : Bool) (g : Int) : complementWord specInv g = (specInv ^^ decide (0 ≤ g)) := by
  by_cases h : 0 ≤ g <;> simp [complementWord, h]

theorem halvedWord_eq (m : AdcMult) (w : U32) : halvedWord m w = if m = .x2 then BitVec.ofNat 32 (w.toNat / 2) else w := by
  cases m
  · rfl
  · exact BitVec.eq_of_toNat_eq (by simp [halvedWord, Nat.shiftRight_eq_div_pow]; omega)

theorem zeroIf_iff (t : ZeroIfTest) (f g : Int) : zeroIf t f g = true ↔ t = .folded ∧ g = 0 ∨ t = .raw ∧ f = 0 := by
  cases t <;> simp [zeroIf]

/-- Settles O33: the word is computed as the rules write it, and its bytes are those of its number. -/
theorem frequencyControlBytes : Obligations.FrequencyControlBytes := by
  rintro p c adc f g - - - rfl
  refine ⟨freqControlWord p c adc (foldIf adc f), ?_, ?_⟩
  · simp only [freqControlWord, halvedWord_eq, complementedWord, complementWord_eq]
    rfl
  · simp only [freqControlBytes, controlBytes, byteAt_eq_ofNat, zeroIf_iff]
    simp

/-! ### The channel status (R74, R127) -/

/-- The low bits of a byte, as a number. -/
theorem toNat_and_lowMask (b : Byte) {k : Nat} (hk : k < 8) : (b &&& BitVec.ofNat 8 (2 ^ k - 1)).toNat = b.toNat % 2 ^ k := by
  have hmask : 2 ^ k - 1 < 2 ^ 8 := (Nat.sub_le _ _).trans_lt (Nat.pow_lt_pow_right (by decide) hk)
  rw [BitVec.toNat_and, BitVec.toNat_ofNat, Nat.mod_eq_of_lt hmask, Nat.and_two_pow_sub_one_eq_mod]

/-- A field of the low `k` bits, under the mask of those bits. -/
theorem fieldByte_masked {α : Type} [DecidableEq α] (codes : List α) (hn : codes.Nodup) (b : Byte) {k : Nat}
    (hk : k < 8) (hlen : codes.length < 2 ^ 8) :
    fieldByte codes codes[b.toNat % 2 ^ k]? =
      if b &&& BitVec.ofNat 8 (2 ^ k - 1) < BitVec.ofNat 8 codes.length
      then b &&& BitVec.ofNat 8 (2 ^ k - 1) else 0xFF#8 := by
  have hlt : b &&& BitVec.ofNat 8 (2 ^ k - 1) < BitVec.ofNat 8 codes.length ↔ b.toNat % 2 ^ k < codes.length := by
    rw [BitVec.lt_def, toNat_and_lowMask b hk, BitVec.toNat_ofNat, Nat.mod_eq_of_lt hlen]
  simp only [fieldByte_getElem codes hn, hlt, ← toNat_and_lowMask b hk, BitVec.ofNat_toNat, BitVec.setWidth_eq]

/-- Two bits always name one of four codes. -/
theorem and_three_lt_four (b : Byte) : b &&& 0x03#8 < 4#8 := by
  rw [BitVec.lt_def, show 0x03#8 = BitVec.ofNat 8 (2 ^ 2 - 1) from rfl, toNat_and_lowMask b (by decide)]
  exact Nat.mod_lt _ (by decide)

/-- Settles O38: each field by its width and the number of its codes. -/
theorem channelStatusBytes : Obligations.ChannelStatusBytes := by
  intro s0 s1 s2 s3 s4 s5 s6 s7
  have htx := fieldByte_masked txModes (by decide) s0 (k := 2) (by decide) (by decide)
  have hguard := fieldByte_masked guards (by decide) s1 (k := 2) (by decide) (by decide)
  have hhier := fieldByte_masked hierarchies (by decide) s2 (k := 3) (by decide) (by decide)
  have hmod := fieldByte_masked modulations (by decide) s3 (k := 2) (by decide) (by decide)
  have hbw := fieldByte_masked channelBws (by decide) s4 (k := 2) (by decide) (by decide)
  have hhp := fieldByte_masked codeRates (by decide) s6 (k := 3) (by decide) (by decide)
  have hlp := fieldByte_masked codeRates (by decide) s7 (k := 3) (by decide) (by decide)
  rw [if_pos (show s1 &&& BitVec.ofNat 8 (2 ^ 2 - 1) < BitVec.ofNat 8 guards.length from and_three_lt_four s1)] at hguard
  exact List.cons_eq_cons.mpr ⟨htx, List.cons_eq_cons.mpr ⟨hguard, List.cons_eq_cons.mpr ⟨hhier, List.cons_eq_cons.mpr
    ⟨hmod, List.cons_eq_cons.mpr ⟨hbw, List.cons_eq_cons.mpr ⟨hhp, List.cons_eq_cons.mpr ⟨hlp, rfl⟩⟩⟩⟩⟩⟩⟩

/-! ### The statistics (R133, R134) -/

theorem toNat_widen (v : U16) : (v.setWidth 32 : U32).toNat = v.toNat := by
  rw [BitVec.toNat_setWidth, Nat.mod_eq_of_lt]
  have := v.isLt; omega

/-- Settles O43: the sample's case first, then each word operation as its number. -/
theorem berArithmetic : Obligations.BerArithmetic := by
  intro k
  have habort := k.abort.isLt
  have htotal := k.total.isLt
  have herr := k.err.isLt
  refine ⟨?_, ?_⟩
  · unfold berOf
    by_cases hlt : k.total.toNat < k.abort.toNat
    · rw [if_pos hlt, if_pos hlt.le]; rfl
    · have hrem : (k.total.setWidth 32 - k.abort.setWidth 32 : U32).toNat = k.total.toNat - k.abort.toNat := by
        rw [BitVec.toNat_sub_of_le] <;> simp only [BitVec.le_def, toNat_widen]
        omega
      rw [if_neg hlt]
      by_cases heq : k.total.toNat = k.abort.toNat
      · have hzero : (k.total.setWidth 32 - k.abort.setWidth 32 : U32) = 0#32 :=
          BitVec.eq_of_toNat_eq (by rw [hrem, heq, Nat.sub_self]; rfl)
        rw [if_pos hzero, if_pos heq.le]
        rfl
      · have hzero : (k.total.setWidth 32 - k.abort.setWidth 32 : U32) ≠ 0#32 := fun h => by
          rw [h] at hrem
          have : (0#32).toNat = 0 := rfl
          omega
        rw [if_neg hzero, if_neg (by omega)]
        have hbits : ((k.total.setWidth 32 - k.abort.setWidth 32) * Config.packetBitsScale : U32).toNat =
            (k.total.toNat - k.abort.toNat) * 64 := by
          rw [BitVec.toNat_mul, hrem]
          exact Nat.mod_eq_of_lt (by show _ * 64 < _; omega)
        have hlost : (k.abort.setWidth 32 * Config.packetBitsScale : U32).toNat = k.abort.toNat * 64 := by
          rw [BitVec.toNat_mul, toNat_widen]
          exact Nat.mod_eq_of_lt (by show _ * 64 < _; omega)
        have herrors : (k.err.setWidth 32 - k.abort.setWidth 32 * Config.packetBitsScale : U32).toNat =
            (k.err.toNat + 2 ^ 32 - k.abort.toNat * 64) % 2 ^ 32 := by
          rw [BitVec.toNat_sub, hlost, BitVec.toNat_setWidth, Nat.mod_eq_of_lt (by omega : k.err.toNat < 2 ^ 32)]
          congr 1
          omega
        show (_ * (Config.berSaturated / _) : U32).toNat = _
        rw [BitVec.toNat_mul, BitVec.toNat_udiv, hbits, herrors]
        rfl
  · unfold abortOf
    by_cases hlt : k.total.toNat < k.abort.toNat
    · rw [if_pos hlt, if_pos hlt]; rfl
    · rw [if_neg hlt, if_neg hlt, toNat_widen]

end Sys2Proof.Machine
end

