-- ==== Sys2Proof/Proofs/MicroOps.lean ====
section
/-! SUPPORT. The micro-operations run by themselves (40_register_access.md, 41_fixed_point.md): the groups of a table, the bits
of a masked access, and the settled statements about those that complete and those that end the running command. -/

namespace Sys2Proof.Machine

/-- A micro-operation whose access answers keeps the value made of the answer. -/
theorem microOp_of_ok {α : Type} {m : M α} {value : α → UopResult} {s s' : State} {a : α} (op : Opcode)
    (h : m s = .ok a s') : microOp op (m >>= fun a => pure (value a)) s = { s' with uopResult := value a } := by
  rw [microOp, bind_of_ok h]
  rfl

/-- A micro-operation whose access raises takes that error. -/
theorem microOp_of_error {α : Type} {m : M α} {value : α → UopResult} {s s' : State} {r : Reason} (op : Opcode)
    (h : m s = .error r s') :
    microOp op (m >>= fun a => pure (value a)) s = takeError (opcodeByte op) r s' := by
  rw [microOp, bind_of_error h]

theorem exec_uopRegWrite (addr : Addr) (bytes : List Byte) (s : State) :
    exec (.uopRegWrite addr bytes) s = .next (microOp .uopRegWrite (do busWrite addr bytes; pure .done) s) := rfl

theorem exec_uopRegRead (addr : Addr) (n : Nat) (s : State) :
    exec (.uopRegRead addr n) s = .next (microOp .uopRegRead (do let bs ← busRead addr n; pure (.bytes bs)) s) := rfl

theorem exec_uopRegWriteMasked (addr : Addr) (value mask : Byte) (s : State) :
    exec (.uopRegWriteMasked addr value mask) s =
      .next (microOp .uopRegWriteMasked (do writeMasked addr value mask; pure .done) s) := rfl

theorem exec_uopRegReadMasked (addr : Addr) (mask : Byte) (s : State) :
    exec (.uopRegReadMasked addr mask) s =
      .next (microOp .uopRegReadMasked (do let b ← readMasked addr mask; pure (.bytes [b])) s) := rfl

theorem exec_uopRegWriteTable (es : List RegValue) (s : State) :
    exec (.uopRegWriteTable es) s = .next (microOp .uopRegWriteTable (do writeTable es; pure .done) s) := rfl

/-- Settles O36: the divisor 0 is asked for first, and the exact divider is the quotient by definition. -/
theorem fpDivideCompletes : Obligations.FpDivideCompletes := by
  intro s a b x
  refine ⟨fun hb => ?_, fun hb => ?_, fun _ => ?_⟩
  · simp only [exec, execUopFpDivide, if_pos hb]
  · simp only [exec, execUopFpDivide, if_neg hb]
    rfl
  · exact BitVec.eq_of_toNat_eq (by rw [divide_exact_toNat, BitVec.toNat_ofNat])

/-! ### Raising an error while a command runs (R143, R145) -/

/-- Settles O19: the pointer names the command and the step, and `fsmAfterError` looks at the command alone. -/
theorem raisingAnError : Obligations.RaisingAnError := by
  intro s o k op r hseq
  simp only [takeError, hseq, fsmAfterError_running, errorPlace, errorFrame]

/-! ### One transaction -/

/-- What the trace delivered last, after one more event. -/
theorem lastWritten_concat (tr : List Event) (ev : Event) (a : Nat) :
    lastWritten (tr ++ [ev]) a = (delivered a ev).or (lastWritten tr a) := by
  simp only [lastWritten, List.reverse_append, List.reverse_singleton, List.singleton_append, List.findSome?_cons]
  cases delivered a ev <;> rfl

theorem delivered_write (a : Nat) (addr : Addr) (bytes : List Byte) :
    delivered a (.write addr bytes true) = if addr.toNat ≤ a then bytes[a - addr.toNat]? else none := rfl

/-- Settles O49: one write, which delivers to the registers of its burst and to no other. -/
theorem regWriteCompletes : Obligations.RegWriteCompletes := by
  intro s addr bytes hfit hack
  refine ⟨?_, fun a => ?_⟩
  · rw [exec_uopRegWrite, microOp_of_ok _ (busWrite_of_ack hfit hack)]
    rfl
  · rw [lastWritten_concat, delivered_write]
    by_cases ha : addr.toNat ≤ a
    · by_cases hlt : a < addr.toNat + bytes.length
      · have hi : a - addr.toNat < bytes.length := by omega
        simp [ha, hlt, List.getElem?_eq_getElem hi]
      · have hi : bytes.length ≤ a - addr.toNat := by omega
        simp [ha, hlt, List.getElem?_eq_none hi]
    · simp [ha]

/-- The bytes a read draws are the ready ones. -/
theorem drawBytes_of_ready {e : Env} {bs rest : List Byte} (h : e.bytes = bs ++ rest) : (drawBytes bs.length e).1 = bs := by
  have he : e = e.ready e.acks (bs ++ rest) := by rw [← h]; rfl
  rw [he, drawBytes_ready]

/-- Settles O50: one read, of the bytes drawn. -/
theorem regReadCompletes : Obligations.RegReadCompletes := by
  intro s addr n hfit hack
  refine ⟨?_, fun bs rest hbytes hlen => ?_⟩
  · rw [exec_uopRegRead, microOp_of_ok _ (busRead_of_ack hfit hack)]
    rfl
  · rw [← hlen]
    exact drawBytes_of_ready (by rwa [drawAck_bytes])

/-- Settles O57: each micro-operation is its one transaction, and its error is raised while the command runs. -/
theorem microOpErrorEndsCommand : Obligations.MicroOpErrorEndsCommand := by
  intro s o k addr bytes n hseq
  refine ⟨fun hfit => ?_, fun hfit hack => ?_, fun hfit => ?_, fun hfit hack => ?_⟩
  · rw [exec_uopRegWrite, microOp_of_error _ (busWrite_of_not_legal hfit), raisingAnError _ o k _ _ hseq]
    rfl
  · rw [exec_uopRegWrite, microOp_of_error _ (busWrite_of_nack hfit hack), raisingAnError (s.log _ _) o k _ _ hseq]
    rfl
  · rw [exec_uopRegRead, microOp_of_error _ (busRead_of_not_legal hfit), raisingAnError _ o k _ _ hseq]
    rfl
  · rw [exec_uopRegRead, microOp_of_error _ (busRead_of_nack hfit hack), raisingAnError (s.log _ _) o k _ _ hseq]
    rfl

/-! ### Masked access -/

theorem writeMasked_of_nack {addr : Addr} {value mask : Byte} {s : State} (hmask : mask ≠ 0xFF#8)
    (hack : (drawAck s.env).1 = false) :
    writeMasked addr value mask s = .error .busRead (s.log (.read addr 1 none) (drawAck s.env).2) := by
  rw [writeMasked, if_neg hmask, bind_of_error (busReadByte_of_nack hack)]

theorem readMasked_of_nack {addr : Addr} {mask : Byte} {s : State} (hack : (drawAck s.env).1 = false) :
    readMasked addr mask s = .error .busRead (s.log (.read addr 1 none) (drawAck s.env).2) :=
  bind_of_error (busReadByte_of_nack hack)

/-- Settles O55: the read comes first and ends both. -/
theorem maskedReadFailureWritesNothing : Obligations.MaskedReadFailureWritesNothing := by
  intro s o k addr value mask hseq hack t
  refine ⟨fun hmask => ?_, ?_⟩
  · rw [exec_uopRegWriteMasked, microOp_of_error _ (writeMasked_of_nack hmask hack),
      raisingAnError (s.log _ _) o k _ _ hseq]
    rfl
  · rw [exec_uopRegReadMasked, microOp_of_error _ (readMasked_of_nack hack),
      raisingAnError (s.log _ _) o k _ _ hseq]
    rfl

theorem mergeMasked_getLsbD (cur value mask : Byte) {i : Nat} (hi : i < 8) :
    (mergeMasked cur value mask).getLsbD i = if mask.getLsbD i then value.getLsbD i else cur.getLsbD i := by
  simp only [mergeMasked, BitVec.getLsbD_or, BitVec.getLsbD_and, BitVec.getLsbD_not, decide_eq_true hi, Bool.true_and]
  cases mask.getLsbD i <;> simp

/-- Settles O51: a full mask is a plain write; any other is a read and a write of the merged byte. -/
theorem regWriteMaskedCompletes : Obligations.RegWriteMaskedCompletes := by
  intro s addr value mask
  refine ⟨fun hmask hacks => ?_, fun cur rest hmask hbytes hacks => ?_⟩
  · obtain ⟨hack, -⟩ := AcksReady.drawAck (n := 0) hacks
    refine ⟨(drawAck s.env).2, ?_⟩
    rw [exec_uopRegWriteMasked, writeMasked, if_pos hmask,
      microOp_of_ok _ (busWrite_of_ack (burstLegal_one addr) hack)]
    rfl
  · refine ⟨s.env.ready (s.env.acks.drop 2) rest, mergeMasked cur value mask, ?_, fun i => mergeMasked_getLsbD cur value mask⟩
    have hrun := writeMasked_run s [] s.env s.seq (s.env.acks.drop 2) addr value hmask cur rest
    rw [show true :: true :: s.env.acks.drop 2 = List.replicate 2 true ++ s.env.acks.drop 2 from rfl,
      ← eq_moved_ready hacks hbytes] at hrun
    rw [exec_uopRegWriteMasked, microOp_of_ok _ hrun]
    rfl

/-- The lowest set bit is the one with no set bit below it. -/
theorem lowestSetBit_eq {mask : Byte} {k : Nat} (hk : k < 8) (hbit : mask.getLsbD k = true)
    (hlow : ∀ j < k, mask.getLsbD j = false) : lowestSetBit mask = k := by
  have hfind : (List.range 8).find? (fun i => mask.getLsbD i) = some k := by
    rw [List.find?_range_eq_some]
    exact ⟨hbit, List.mem_range.mpr hk, fun j hj => by simp [hlow j hj]⟩
  simp [lowestSetBit, hfind]

/-- Settles O52: the read, and the shift by the lowest set bit as a division. -/
theorem regReadMaskedCompletes : Obligations.RegReadMaskedCompletes := by
  intro s addr mask cur rest hbytes hacks
  refine ⟨s.env.ready (s.env.acks.drop 1) rest, selectMasked cur mask, ?_, fun hmask => ?_, fun k hk hbit hlow => ?_⟩
  · have hrun := readMasked_run s [] s.env s.seq (s.env.acks.drop 1) addr mask cur rest
    rw [show true :: s.env.acks.drop 1 = List.replicate 1 true ++ s.env.acks.drop 1 from rfl,
      ← eq_moved_ready hacks hbytes] at hrun
    rw [exec_uopRegReadMasked, microOp_of_ok _ hrun]
    rfl
  · simp [selectMasked, hmask]
  · rw [selectMasked, lowestSetBit_eq hk hbit hlow, BitVec.toNat_ushiftRight, Nat.shiftRight_eq_div_pow]

/-! ### The groups of a table (R84) -/

/-- The first entry joins the first group of the rest where that group starts at the next address, and is a group of its own
where it does not. -/
theorem tableBursts_cons (e : RegValue) (es : List RegValue) :
    (∃ a bs gs, tableBursts es = (a, bs) :: gs ∧ a.toNat = e.addr.toNat + 1 ∧
      tableBursts (e :: es) = (e.addr, e.value :: bs) :: gs) ∨
    ((∀ a bs gs, tableBursts es = (a, bs) :: gs → a.toNat ≠ e.addr.toNat + 1) ∧
      tableBursts (e :: es) = (e.addr, [e.value]) :: tableBursts es) := by
  cases h : tableBursts es with
  | nil => exact .inr ⟨by simp, by simp [tableBursts, h]⟩
  | cons g gs =>
    obtain ⟨a, bs⟩ := g
    by_cases ha : a.toNat = e.addr.toNat + 1
    · exact .inl ⟨a, bs, gs, rfl, ha, by simp [tableBursts, h, ha]⟩
    · refine .inr ⟨fun a' bs' gs' h' => ?_, by simp [tableBursts, h, ha]⟩
      cases h'
      exact ha

/-- A group byte by byte. -/
def groupEntries (g : Addr × List Byte) : List (Nat × Byte) := g.2.mapIdx fun k v => (g.1.toNat + k, v)

theorem groupEntries_cons {a a' : Addr} (h : a'.toNat = a.toNat + 1) (v : Byte) (bs : List Byte) :
    groupEntries (a, v :: bs) = (a.toNat, v) :: groupEntries (a', bs) := by
  simp only [groupEntries, List.mapIdx_cons, h, Nat.add_zero]
  congr 2
  funext k w
  simp [Nat.add_assoc, Nat.add_comm]

theorem tableBursts_entries (es : List RegValue) :
    (tableBursts es).flatMap groupEntries = es.map fun e => (e.addr.toNat, e.value) := by
  induction es with
  | nil => rfl
  | cons e es ih =>
    obtain ⟨a, bs, gs, hes, ha, h⟩ | ⟨-, h⟩ := tableBursts_cons e es
    · rw [hes, List.flatMap_cons] at ih
      rw [h, List.flatMap_cons, groupEntries_cons ha, List.cons_append, ih, List.map_cons]
    · rw [h, List.flatMap_cons, ih]
      rfl

theorem tableBursts_fit (es : List RegValue) : ∀ g ∈ tableBursts es, g.2 ≠ [] ∧ g.1.toNat + g.2.length ≤ 2 ^ 24 := by
  induction es with
  | nil => simp [tableBursts]
  | cons e es ih =>
    obtain ⟨a, bs, gs, hes, ha, h⟩ | ⟨-, h⟩ := tableBursts_cons e es
    · rw [hes, List.forall_mem_cons] at ih
      rw [h, List.forall_mem_cons]
      refine ⟨⟨List.cons_ne_nil _ _, ?_⟩, ih.2⟩
      have := ih.1.2
      simp only [List.length_cons] at this ⊢
      omega
    · rw [h, List.forall_mem_cons]
      exact ⟨⟨List.cons_ne_nil _ _, e.addr.isLt⟩, ih⟩

theorem tableBursts_isChain (es : List RegValue) :
    (tableBursts es).IsChain (fun g h => h.1.toNat ≠ g.1.toNat + g.2.length) := by
  induction es with
  | nil => exact .nil
  | cons e es ih =>
    obtain ⟨a, bs, gs, hes, ha, h⟩ | ⟨hne, h⟩ := tableBursts_cons e es
    · rw [hes] at ih
      rw [h]
      cases gs with
      | nil => exact .singleton _
      | cons g gs =>
        rw [List.isChain_cons_cons] at ih ⊢
        refine ⟨?_, ih.2⟩
        have := ih.1
        simp only [List.length_cons] at this ⊢
        omega
    · rw [h]
      cases hes : tableBursts es with
      | nil => exact .singleton _
      | cons g gs =>
        rw [hes] at ih
        exact List.isChain_cons_cons.mpr ⟨hne g.1 g.2 gs hes, ih⟩

/-- Settles O54: each part by the entries of the table, an entry joining the group after it or starting one. -/
theorem tableBurstsAreMaximalRuns : Obligations.TableBurstsAreMaximalRuns := fun es =>
  ⟨tableBursts_entries es, tableBursts_fit es, tableBursts_isChain es⟩

/-! ### Writing the groups -/

theorem burstLegal_of_mem {es : List RegValue} {g : Addr × List Byte} (hg : g ∈ tableBursts es) (hlen : g.2.length ≤ 64) :
    BurstLegal g.1 g.2.length := by
  obtain ⟨hne, hfit⟩ := tableBursts_fit es g hg
  exact ⟨List.length_pos_iff.mpr hne, hlen, hfit⟩

/-- The groups before one are written, and the rest goes on from there. -/
theorem writeBursts_append (s : State) (es : List Event) (e : Env) (q : Seq) (as : List Bool) (bs : List Byte)
    {before : List (Addr × List Byte)} (hfit : ∀ g ∈ before, BurstLegal g.1 g.2.length) (rest : List (Addr × List Byte)) :
    writeBursts (before ++ rest) (s.moved es (e.ready (List.replicate before.length true ++ as) bs) q) =
      writeBursts rest (s.moved (es ++ before.map fun g => .write g.1 g.2 true) (e.ready as bs) q) := by
  induction before generalizing es with
  | nil => simp
  | cons g gs ih =>
    rw [List.forall_mem_cons] at hfit
    rw [List.length_cons, List.replicate_succ, List.cons_append, List.cons_append, writeBursts,
      bind_of_ok (busWrite_run (hfit := hfit.1) ..), ih _ hfit.2, List.append_assoc]
    rfl

/-- Settles O53: every group is legal, so all are written. -/
theorem regWriteTableCompletes : Obligations.RegWriteTableCompletes := by
  intro s es hlen hacks
  have hrun := writeBursts_append s [] s.env s.seq (s.env.acks.drop (tableBursts es).length) s.env.bytes
    (fun g hg => burstLegal_of_mem hg (hlen g hg)) []
  rw [← eq_moved_ready hacks rfl, List.append_nil] at hrun
  refine ⟨s.env.ready (s.env.acks.drop (tableBursts es).length) s.env.bytes, ?_⟩
  rw [exec_uopRegWriteTable, writeTable, microOp_of_ok _ (hrun.trans (pure_run () _))]
  rfl

/-- Settles O56: the groups before are written, and the next one's write fails or is refused. -/
theorem tableStopsAtFailedBurst : Obligations.TableStopsAtFailedBurst := by
  intro s o k es before after g hseq hes hbefore
  have hmem : ∀ h ∈ tableBursts es, h.2.length ≤ 64 → BurstLegal h.1 h.2.length := fun h => burstLegal_of_mem
  rw [hes] at hmem
  have hfit : ∀ h ∈ before, BurstLegal h.1 h.2.length := fun h hh => hmem h (by simp [hh]) (hbefore h hh)
  refine ⟨fun hlen hacks => ?_, fun hlen hacks => ?_⟩
  · have hstart : s = s.moved [] (s.env.ready (List.replicate before.length true ++
        false :: s.env.acks.drop (before.length + 1)) s.env.bytes) s.seq := by
      rw [← List.singleton_append, ← List.append_assoc, ← hacks, List.take_append_drop]
      exact (moved_nil s s.seq).symm
    have hrun := writeBursts_append s [] s.env s.seq (false :: s.env.acks.drop (before.length + 1)) s.env.bytes hfit (g :: after)
    rw [← hstart, ← hes, writeBursts,
      bind_of_error (busWrite_of_nack (hmem g (by simp) hlen) rfl), moved_log, moved_env, drawAck_ready] at hrun
    refine ⟨s.env.ready (s.env.acks.drop (before.length + 1)) s.env.bytes, ?_⟩
    rw [exec_uopRegWriteTable, writeTable, microOp_of_error _ hrun, raisingAnError (s.moved _ _ _) o k _ _ hseq]
    simp [State.moved, statusByte, statusOf, reasonByte]
  · have hrun := writeBursts_append s [] s.env s.seq (s.env.acks.drop before.length) s.env.bytes hfit (g :: after)
    have hlong : ¬BurstLegal g.1 g.2.length := fun h => absurd h.2.1 (by omega)
    rw [← eq_moved_ready hacks rfl, ← hes, writeBursts, bind_of_error (busWrite_of_not_legal hlong)] at hrun
    refine ⟨s.env.ready (s.env.acks.drop before.length) s.env.bytes, ?_⟩
    rw [exec_uopRegWriteTable, writeTable, microOp_of_error _ hrun, raisingAnError (s.moved _ _ _) o k _ _ hseq]
    simp [State.moved, statusByte, statusOf, reasonByte]

end Sys2Proof.Machine
end

