-- ==== Sys2Proof/Proofs/Reads.lean ====
section
/-! SUPPORT. The status reads (44_status.md), and the settled statements about those that complete and those whose first
read fails. -/

namespace Sys2Proof.Machine

theorem exec_getFrontend (s : State) :
    exec .getFrontend s = .next (command .getFrontend (getFrontendSteps s.params) s) := rfl
theorem exec_readStatus (s : State) : exec .readStatus s = .next (command .readStatus (readStatusSteps s.params) s) := rfl
theorem exec_readSnr (s : State) : exec .readSnr s = .next (command .readSnr (readSnrSteps s.params) s) := rfl
theorem exec_readSignalStrength (s : State) :
    exec .readSignalStrength s = .next (command .readSignalStrength (readSignalStrengthSteps s.params) s) := rfl

/-- Settles O37: one read, and its decode. -/
theorem getFrontendCompletes : Obligations.GetFrontendCompletes := by
  intro s hfit hack
  have hread := busRead_of_ack (s := { s with seq := .running .getFrontend 1 }) hfit hack
  have hsteps : getFrontendSteps s.params s = .ok _ _ := (bind_of_ok (atStep_run .getFrontend 1 s)).trans (bind_of_ok hread)
  rw [exec_getFrontend, command_of_ok hsteps]
  rfl

/-- A command that starts at step 1 and whose steps raise there a failed read, after that one event. -/
theorem command_of_first_nack {op : Opcode} {body : M (List Byte)} {s : State} {addr : Addr} {n : Nat}
    (hop : op ≠ .init ∧ op ≠ .sleep) (h : body s = .error .busRead
      (({ s with seq := .running op 1 } : State).log (.read addr n none) (drawAck s.env).2)) :
    command op body s = { s with
      seq := .idle, env := (drawAck s.env).2
      trace := s.trace ++ [.read addr n none]
      responses := s.responses ++ [[0x02#8, opcodeByte op, 0x01#8, 0x03#8]] } := by
  rw [command_of_error h, raisingAnError (State.log _ _ _) op 1 _ _ rfl, if_neg (not_or.mpr hop)]
  rfl

/-- Settles O42: each command's first step is the read that fails. -/
theorem statusReadFails : Obligations.StatusReadFails := by
  intro s i addr n hmem hfit hack
  simp only [List.mem_cons, Prod.mk.injEq, List.not_mem_nil, or_false] at hmem
  obtain ⟨rfl, rfl, rfl⟩ | ⟨rfl, rfl, rfl⟩ | ⟨rfl, rfl, rfl⟩ | ⟨rfl, rfl, rfl⟩ := hmem
  · have hread := busRead_of_nack (s := { s with seq := .running .getFrontend 1 }) hfit hack
    exact congrArg _ (command_of_first_nack (by decide) (by rw [getFrontendSteps, bind_atStep_run]; exact bind_of_error hread))
  · have hread := busReadByte_of_nack (s := { s with seq := .running .readStatus 1 }) (addr := s.params.regs.rcs) hack
    exact congrArg _ (command_of_first_nack (by decide) (by rw [readStatusSteps, bind_atStep_run]; exact bind_of_error hread))
  · have hread := busRead_of_nack (s := { s with seq := .running .readSnr 1 }) hfit hack
    exact congrArg _ (command_of_first_nack (by decide) (by rw [readSnrSteps, bind_atStep_run]; exact bind_of_error hread))
  · have hread := busReadByte_of_nack (s := { s with seq := .running .readSignalStrength 1 })
      (addr := s.params.regs.strength) hack
    exact congrArg _ (command_of_first_nack (by decide)
      (by rw [readSignalStrengthSteps, bind_atStep_run]; exact bind_of_error hread))

/-- A command whose steps, from the reports and the bytes that are ready, answer after some events. -/
theorem command_of_ready {op : Opcode} {body : M (List Byte)} {s : State} {n : Nat} {bytes result : List Byte}
    {es : List Event} {e : Env} {q : Seq} (hacks : AcksReady s n) (hbytes : s.env.bytes = bytes)
    (h : body (s.moved [] (s.env.ready (List.replicate n true ++ s.env.acks.drop n) bytes) s.seq) =
      .ok result (s.moved es e q)) :
    command op body s = { s with
      seq := .idle, env := e, trace := s.trace ++ es, responses := s.responses ++ [0x00#8 :: result] } := by
  rw [← eq_moved_ready hacks hbytes] at h
  rw [command_of_ok h]
  rfl

/-! ### READ_STATUS (R129) -/

/-- No bit below the lowest set bit is set. -/
theorem getLsbD_below_lowestSetBit {mask : Byte} {j : Nat} (hj : j < lowestSetBit mask) : mask.getLsbD j = false := by
  unfold lowestSetBit at hj
  cases h : (List.range 8).find? (fun i => mask.getLsbD i) with
  | none => simp [h] at hj
  | some k =>
    rw [h, Option.getD_some] at hj
    rw [List.find?_range_eq_some] at h
    simpa using h.2.2 j hj

/-- The shift loses no set bit, so a masked read is 0 exactly where the mask selects none. -/
theorem selectMasked_eq_zero_iff (cur mask : Byte) : selectMasked cur mask = 0x00#8 ↔ cur &&& mask = 0x00#8 := by
  refine ⟨fun h => BitVec.eq_of_getLsbD_eq fun i hi => ?_, fun h => by simp [selectMasked, h]⟩
  rw [BitVec.getLsbD_zero]
  by_cases hlow : i < lowestSetBit mask
  · rw [BitVec.getLsbD_and, getLsbD_below_lowestSetBit hlow, Bool.and_false]
  · have hbit := congrArg (fun v => v.getLsbD (i - lowestSetBit mask)) h
    simpa only [selectMasked, BitVec.getLsbD_ushiftRight, Nat.add_sub_cancel' (not_lt.mp hlow), BitVec.getLsbD_zero] using hbit

/-- The flags only accumulate, and each set contains the one before it. -/
theorem addFlags_locks (rcs t l : Byte) :
    addFlags (addFlags (flagsOfRcs rcs) t tpsLockFlags) l fullLockFlags =
      if l ≠ 0x00#8 then 0x1F#8 else if t ≠ 0x00#8 then 0x07#8 else if rcs = 0x01#8 then 0x01#8 else 0x00#8 := by
  have hrcs : flagsOfRcs rcs = if rcs = 0x01#8 then 0x01#8 else 0x00#8 := rfl
  rw [hrcs, addFlags, addFlags]
  split_ifs <;> rfl

section StatusRuns
variable (s : State) (e : Env) (q : Seq) (as : List Bool) (rest : List Byte)

theorem readStatusSteps_noSignal (p : Params) :
    readStatusSteps p (s.moved [] (e.ready (true :: as) (0x02#8 :: rest)) q) =
      .ok [0x00#8] (s.moved [.read p.regs.rcs 1 (some [0x02#8])] (e.ready as rest) (.running .readStatus 1)) := by
  rw [readStatusSteps, bind_atStep_moved, bind_of_ok (busReadByte_run ..)]
  rfl

theorem readStatusSteps_locks (p : Params) {rcs : Byte} (hrcs : rcs ≠ 0x02#8) (t l : Byte) :
    readStatusSteps p (s.moved [] (e.ready (true :: true :: true :: as) (rcs :: t :: l :: rest)) q) =
      .ok [addFlags (addFlags (flagsOfRcs rcs) (selectMasked t p.tpsLockMask) tpsLockFlags)
          (selectMasked l p.fullLockMask) fullLockFlags]
        (s.moved [.read p.regs.rcs 1 (some [rcs]), .read p.regs.tpsLock 1 (some [t]), .read p.regs.fullLock 1 (some [l])]
          (e.ready as rest) (.running .readStatus 3)) := by
  have hsignal : rcs ≠ Config.rcsNoSignal := hrcs
  rw [readStatusSteps, bind_atStep_moved, bind_of_ok (busReadByte_run ..), if_neg hsignal, readLockBits,
    bind_atStep_moved, bind_of_ok (readMasked_run ..), bind_atStep_moved, bind_of_ok (readMasked_run ..)]
  rfl

end StatusRuns

/-- Settles O39: without a signal the first read ends the command; else both lock bits are read. -/
theorem readStatusCompletes : Obligations.ReadStatusCompletes := by
  refine ⟨fun s rest hbytes hacks => ⟨s.env.ready (s.env.acks.drop 1) rest, ?_⟩,
    fun s rcs t l rest hrcs hbytes hacks => ⟨s.env.ready (s.env.acks.drop 3) rest, ?_⟩⟩
  · rw [exec_readStatus, command_of_ready hacks hbytes (readStatusSteps_noSignal ..)]
    rfl
  · rw [exec_readStatus, command_of_ready hacks hbytes (readStatusSteps_locks _ _ _ _ _ _ hrcs _ _), addFlags_locks]
    simp only [ne_eq, selectMasked_eq_zero_iff]
    rfl

/-! ### READ_SNR and READ_SIGNAL_STRENGTH (R130, R131) -/

theorem toNat_le24 (b0 b1 b2 : Byte) : (le24 b0 b1 b2).toNat = b0.toNat + 256 * b1.toNat + 65536 * b2.toNat := by
  rw [le24, BitVec.toNat_append, ← Nat.shiftLeft_add_eq_or_of_lt b0.isLt, BitVec.toNat_append,
    ← Nat.shiftLeft_add_eq_or_of_lt b1.isLt, Nat.shiftLeft_eq, Nat.shiftLeft_eq]
  omega

/-- The low two bytes of a number are those of its value modulo 2^16. -/
theorem lowBytes_two_mod (v : Nat) : lowBytes 2 (v % 2 ^ 16) = lowBytes 2 v := by
  have h0 : BitVec.ofNat 8 (v % 2 ^ 16) = BitVec.ofNat 8 v := BitVec.eq_of_toNat_eq (by simp)
  have h1 : BitVec.ofNat 8 (v % 2 ^ 16 / 2 ^ 8) = BitVec.ofNat 8 (v / 2 ^ 8) := BitVec.eq_of_toNat_eq (by simp; omega)
  simpa [lowBytes, List.range_succ] using ⟨h0, h1⟩

/-- The curve of a modulation byte: its low two bits name it, and 3 has none. -/
theorem snrCurve_setWidth (p : Params) (m : Byte) :
    snrCurve p (m.setWidth 2) = if m &&& 0x03#8 = 0x03#8 then none else
      some (if m &&& 0x03#8 = 0x00#8 then p.snrQpsk else if m &&& 0x03#8 = 0x01#8 then p.snrQam16 else p.snrQam64) := by
  have hwide : m &&& 0x03#8 = (m.setWidth 2).setWidth 8 := by revert m; decide
  generalize m.setWidth 2 = c at hwide ⊢
  have hcodes : ∀ c : BitVec 2, c = 0#2 ∨ c = 1#2 ∨ c = 2#2 ∨ c = 3#2 := by decide
  obtain rfl | rfl | rfl | rfl := hcodes c <;> rw [hwide] <;> rfl

theorem snrOfCurve_eq (raw : BitVec 24) (t : Rows SnrRow) :
    snrOfCurve raw t =
      ((t.toList.find? fun r => decide (raw.toNat < r.val.toNat)).getD (t.toList.getLastD t.first)).snr := by
  rw [snrOfCurve, rowOrLast_eq, rows_getLastD]
  rfl

/-- The result bytes of READ_SNR from the raw value and the modulation byte. -/
def snrResult (p : Params) (raw : BitVec 24) (m : Byte) : List Byte :=
  (snrCurve p (m.setWidth 2)).elim snrNotPresent (snrPresent p raw)

theorem snrResult_eq (p : Params) (raw : BitVec 24) (m : Byte) :
    snrResult p raw m =
      if m &&& 0x03#8 = 0x03#8 then [0x00#8, 0x00#8, 0x00#8]
      else 0x01#8 :: lowBytes 2 ((snrOfCurve raw (if m &&& 0x03#8 = 0x00#8 then p.snrQpsk
        else if m &&& 0x03#8 = 0x01#8 then p.snrQam16 else p.snrQam64)).toNat * p.snrScale) := by
  rw [snrResult, snrCurve_setWidth]
  split
  · rfl
  · rw [Option.elim_some, snrPresent, leBytes_eq_lowBytes, snrScaled, BitVec.toNat_ofNat, lowBytes_two_mod]

section ValueRuns
variable (s : State) (e : Env) (q : Seq) (as : List Bool) (rest : List Byte)

theorem snrAnswer_run (p : Params) (raw : BitVec 24) (m : Byte) (es : List Event) :
    ∃ q', snrAnswer p raw (m.setWidth 2) (s.moved es e q) = .ok (snrResult p raw m) (s.moved es e q') := by
  unfold snrAnswer snrResult
  cases snrCurve p (m.setWidth 2)
  · exact ⟨_, rfl⟩
  · exact ⟨_, rfl⟩

theorem readSnrSteps_run {p : Params} (hfit : ReadLegal p.regs.snrValue 3) (b0 b1 b2 m : Byte) :
    ∃ q', readSnrSteps p (s.moved [] (e.ready (true :: true :: as) (b0 :: b1 :: b2 :: m :: rest)) q) =
      .ok (snrResult p (le24 b0 b1 b2) m)
        (s.moved [.read p.regs.snrValue 3 (some [b0, b1, b2]), .read p.regs.snrMod 1 (some [m])] (e.ready as rest) q') := by
  have hvalue := busRead_run s [] e (.running .readSnr 1) (true :: as) (bs := [b0, b1, b2]) hfit (m :: rest)
  obtain ⟨q', hanswer⟩ := snrAnswer_run s (e.ready as rest) (.running .readSnr 2) p (le24 b0 b1 b2) m
    [.read p.regs.snrValue 3 (some [b0, b1, b2]), .read p.regs.snrMod 1 (some [m])]
  refine ⟨q', ?_⟩
  rw [readSnrSteps, bind_atStep_moved]
  refine (bind_of_ok hvalue).trans ?_
  rw [bind_atStep_moved, bind_of_ok (busReadByte_run ..)]
  exact hanswer

theorem readSignalStrengthSteps_run (p : Params) (pct : Byte) :
    readSignalStrengthSteps p (s.moved [] (e.ready (true :: as) (pct :: rest)) q) =
      .ok (leBytes 2 (strengthScaled pct))
        (s.moved [.read p.regs.strength 1 (some [pct])] (e.ready as rest) (.running .readSignalStrength 1)) := by
  rw [readSignalStrengthSteps, bind_atStep_moved, bind_of_ok (busReadByte_run ..)]
  rfl

end ValueRuns

/-- Settles O40: two reads, then the curve of the modulation, if it has one. -/
theorem readSnrCompletes : Obligations.ReadSnrCompletes := by
  intro s b0 b1 b2 m rest hfit hbytes hacks
  obtain ⟨q', hsteps⟩ := readSnrSteps_run s s.env s.seq (s.env.acks.drop 2) rest hfit b0 b1 b2 m
  refine ⟨s.env.ready (s.env.acks.drop 2) rest, ?_⟩
  rw [exec_readSnr, command_of_ready hacks hbytes hsteps, snrResult_eq]
  simp only [snrOfCurve_eq, toNat_le24]

/-- Two bytes of a number, reduced to a byte each. -/
theorem lowBytes_two (v : Nat) : lowBytes 2 v = [BitVec.ofNat 8 (v % 256), BitVec.ofNat 8 (v / 256 % 256)] := by
  have hmod (n : Nat) : BitVec.ofNat 8 (n % 256) = BitVec.ofNat 8 n := BitVec.eq_of_toNat_eq (by simp)
  rw [hmod, hmod]
  simp [lowBytes, List.range_succ]

/-- Settles O41: one read, and its percentage scaled. -/
theorem readSignalStrengthCompletes : Obligations.ReadSignalStrengthCompletes := by
  intro s p rest hbytes hacks
  refine ⟨s.env.ready (s.env.acks.drop 1) rest, ?_⟩
  rw [exec_readSignalStrength, command_of_ready hacks hbytes (readSignalStrengthSteps_run ..), leBytes_eq_lowBytes,
    strengthScaled, BitVec.toNat_ofNat, lowBytes_two_mod, lowBytes_two]
  rfl

end Sys2Proof.Machine
end

