-- ==== Sys2Proof/Proofs/Statistics.lean ====
section
/-! SUPPORT. READ_BER and READ_UCB (45_statistics.md): the refresh and the throttle, and the settled statements about them. -/

namespace Sys2Proof.Machine

theorem exec_readBer (s : State) : exec .readBer s = .next (command .readBer (readBerSteps s.params) s) := rfl
theorem exec_readUcb (s : State) : exec .readUcb s = .next (command .readUcb (readUcbSteps s.params) s) := rfl

theorem refreshDue_iff (lastStat : Option U64) (now : U64) :
    refreshDue lastStat now = true ↔ lastStat = none ∨ ∃ t', lastStat = some t' ∧ t'.toNat + 500 ≤ now.toNat := by
  cases lastStat with
  | none => simp [refreshDue]
  | some t' => exact decide_eq_true_iff.trans (by simp [Config.statThrottleMs])

/-- A time draw takes no report and no byte. -/
theorem drawTime_keeps (e : Env) : (drawTime e).2.acks = e.acks ∧ (drawTime e).2.bytes = e.bytes := by
  unfold drawTime
  split <;> exact ⟨rfl, rfl⟩

/-- STAT.2 and STAT.3 where the report is good and the counter bytes are ready. -/
theorem refresh_run {s : State} (op : Opcode) {p : Params} (now : U64) {bs rest : List Byte} (hlen : bs.length = 7)
    (hfit : ReadLegal p.regs.stat 7) (hacks : AcksReady s 1) (hbytes : s.env.bytes = bs ++ rest) :
    refresh op p now s = .ok () (recordCounts (countsOf bs) now
      (s.moved [.read p.regs.stat 7 (some bs)] (s.env.ready (s.env.acks.drop 1) rest) (.running op 3))) := by
  have hread := busRead_run { s with seq := .running op 2 } [] s.env (.running op 2) (s.env.acks.drop 1) (hlen ▸ hfit) rest
  rw [show true :: s.env.acks.drop 1 = List.replicate 1 true ++ s.env.acks.drop 1 from rfl,
    ← eq_moved_ready (s := { s with seq := .running op 2 }) hacks hbytes, hlen] at hread
  rw [refresh, bind_atStep_run]
  exact bind_of_ok hread

section Throttle
variable {s : State} {t : U64} (ht : t = laterOf s.env.now (drawTime s.env).1)
include ht

/-- STAT.1 samples the time; the refresh runs after it only where it is due. -/
theorem throttledRefresh_sampled (op : Opcode) (p : Params) :
    throttledRefresh op p s = onlyWhen (refreshDue s.lastStat t) (refresh op p t)
      (s.moved [.time t] { (drawTime s.env).2 with now := t } (.running op 1)) := by
  subst ht
  rfl

theorem throttledRefresh_of_not_due {op : Opcode} {p : Params} (hdue : refreshDue s.lastStat t = false) :
    throttledRefresh op p s = .ok () (s.moved [.time t] { (drawTime s.env).2 with now := t } (.running op 1)) := by
  rw [throttledRefresh_sampled ht, hdue]
  rfl

theorem throttledRefresh_of_due {op : Opcode} {p : Params} {bs rest : List Byte} (hdue : refreshDue s.lastStat t = true)
    (hlen : bs.length = 7) (hfit : ReadLegal p.regs.stat 7) (hacks : AcksReady s 1) (hbytes : s.env.bytes = bs ++ rest) :
    ∃ e, throttledRefresh op p s = .ok () (recordCounts (countsOf bs) t
      (s.moved [.time t, .read p.regs.stat 7 (some bs)] e (.running op 3))) := by
  obtain ⟨hkacks, hkbytes⟩ := drawTime_keeps s.env
  have hrefresh := refresh_run (s := s.moved [.time t] { (drawTime s.env).2 with now := t } (.running op 1)) op t hlen hfit
    (hacks.congr hkacks) (hkbytes.trans hbytes)
  rw [throttledRefresh_sampled ht, hdue]
  exact ⟨_, by simpa using hrefresh⟩

end Throttle

/-- Settles O44: the refresh is due, and its three writes stand before the value is returned. -/
theorem statisticsRefresh : Obligations.StatisticsRefresh := by
  intro s t t0 t1 t2 t3 t4 t5 t6 rest ht hlast hfit hacks hbytes
  have hdue := (refreshDue_iff s.lastStat t).mpr hlast
  have hrefresh (op : Opcode) := throttledRefresh_of_due (op := op) (bs := [t0, t1, t2, t3, t4, t5, t6]) ht hdue rfl hfit hacks hbytes
  refine ⟨?_, ?_⟩
  · obtain ⟨e, hthrottled⟩ := hrefresh .readBer
    have hsteps : readBerSteps s.params s = .ok _ _ := (bind_of_ok hthrottled).trans rfl
    exact ⟨e, by rw [exec_readBer, command_of_ok hsteps, leBytes_eq_lowBytes]; rfl⟩
  · obtain ⟨e, hthrottled⟩ := hrefresh .readUcb
    have hsteps : readUcbSteps s.params s = .ok _ _ := (bind_of_ok hthrottled).trans rfl
    exact ⟨e, by rw [exec_readUcb, command_of_ok hsteps, leBytes_eq_lowBytes]; rfl⟩

/-- Settles O45: no refresh is due, so the stored value is returned. -/
theorem statisticsThrottled : Obligations.StatisticsThrottled := by
  intro s t t' ht hlast hearly
  have hdue : refreshDue s.lastStat t = false := by
    rw [Bool.eq_false_iff, ne_eq, refreshDue_iff, hlast]
    simpa using hearly
  refine ⟨⟨{ (drawTime s.env).2 with now := t }, ?_⟩, ⟨{ (drawTime s.env).2 with now := t }, ?_⟩⟩
  · have hsteps : readBerSteps s.params s = .ok _ _ := (bind_of_ok (throttledRefresh_of_not_due ht hdue)).trans rfl
    rw [exec_readBer, command_of_ok hsteps, leBytes_eq_lowBytes]
    rfl
  · have hsteps : readUcbSteps s.params s = .ok _ _ := (bind_of_ok (throttledRefresh_of_not_due ht hdue)).trans rfl
    rw [exec_readUcb, command_of_ok hsteps, leBytes_eq_lowBytes]
    rfl

end Sys2Proof.Machine
end

