-- ==== Sys2Proof/Proofs/PidGate.lean ====
section
/-! SUPPORT. The PID filter and the I2C gate (46_aux.md), and the settled statements about them. -/

namespace Sys2Proof.Machine

theorem exec_setPidFilter (idx : Byte) (pid : U16) (en : Bool) (s : State) :
    exec (.setPidFilter idx pid en) s = .next (command .setPidFilter (setPidFilterSteps s.params idx pid en) s) := rfl

theorem exec_setPidFilterEnabled (en : Bool) (s : State) :
    exec (.setPidFilterEnabled en) s = .next (command .setPidFilterEnabled (setPidFilterEnabledSteps s.params en) s) := rfl

theorem exec_i2cGateCtrl (en : Bool) (s : State) :
    exec (.i2cGateCtrl en) s = .next (command .i2cGateCtrl (i2cGateCtrlSteps s.params en) s) := rfl

/-- The two bytes of a 13-bit PID: the division leaves no more than one byte. -/
theorem lowBytes_two_of_le {v : Nat} (hv : v ≤ 0x1FFF) : lowBytes 2 v = [BitVec.ofNat 8 (v % 256), BitVec.ofNat 8 (v / 256)] := by
  rw [lowBytes_two, Nat.mod_eq_of_lt (a := v / 256) (by omega)]

/-- The three writes of SET_PID_FILTER (R138). -/
theorem programPid_run {p : Params} (hfit : BurstLegal p.regs.pidValue 2) (idx : Byte) (pid : U16) (en : Bool) (s : State)
    (e : Env) (q : Seq) (as : List Bool) (bs : List Byte) :
    ∃ q', programPid p idx pid en (s.moved [] (e.ready (true :: true :: true :: as) bs) q) = .ok []
      (s.moved [.write p.regs.pidValue (leBytes 2 pid) true, .write p.regs.pidOnoff [enableByte en] true,
        .write p.regs.pidIndex [idx] true] (e.ready as bs) q') := by
  refine ⟨.running .setPidFilter 4, ?_⟩
  rw [programPid, bind_atStep_moved, bind_of_ok (busWrite_run _ _ _ _ _ hfit _), bind_atStep_moved,
    bind_of_ok (busWriteByte_run ..), bind_atStep_moved, bind_of_ok (busWriteByte_run ..)]
  rfl

/-- Settles O47: a value above 13 bits is no PID; else the three writes run from the ready reports. -/
theorem setPidFilterCompletes : Obligations.SetPidFilterCompletes := by
  refine fun s idx pid en => ⟨fun hpid => ?_, fun hpid hfit hacks => ?_⟩
  · have hsteps : setPidFilterSteps s.params idx pid en s = .ok [] { s with seq := .running .setPidFilter 1 } := by
      rw [setPidFilterSteps, bind_atStep_run, if_pos hpid]
      rfl
    rw [exec_setPidFilter, command_of_ok hsteps]
    rfl
  · obtain ⟨q', hrun⟩ := programPid_run hfit idx pid en s s.env (.running .setPidFilter 1) (s.env.acks.drop 3) s.env.bytes
    refine ⟨s.env.ready (s.env.acks.drop 3) s.env.bytes, ?_⟩
    rw [exec_setPidFilter, command_of_ready hacks rfl
      (by rw [setPidFilterSteps, bind_atStep_moved, if_neg (not_lt.mpr hpid)]; exact hrun), leBytes_eq_lowBytes,
      lowBytes_two_of_le hpid]
    rfl

/-- Bit 0 replaced, the other seven kept (R139, R140). -/
theorem mergeMasked_enableByte (b : Byte) (en : Bool) :
    mergeMasked b (enableByte en) 0x01#8 = if en then b ||| 0x01#8 else b &&& 0xFE#8 := by
  revert b
  cases en <;> decide

/-- A one-step command that replaces bit 0 of a register. -/
theorem command_enableBit {op : Opcode} {addr : Addr} {body : M (List Byte)} (en : Bool)
    (hbody : body = do atStep op 1; writeMasked addr (enableByte en) 0x01#8; pure []) {s : State} {b : Byte} {rest : List Byte}
    (hbytes : s.env.bytes = b :: rest) (hacks : AcksReady s 2) :
    command op body s = { s with
      seq := .idle, env := s.env.ready (s.env.acks.drop 2) rest
      trace := s.trace ++ [.read addr 1 (some [b]), .write addr [if en then b ||| 0x01#8 else b &&& 0xFE#8] true]
      responses := s.responses ++ [[0x00#8]] } := by
  have hwrite := writeMasked_run s [] s.env (.running op 1) (s.env.acks.drop 2) addr (enableByte en)
    (mask := 0x01#8) (by decide) b rest
  rw [mergeMasked_enableByte] at hwrite
  subst hbody
  exact command_of_ready hacks hbytes (bind_of_ok hwrite)

/-- Settles O48: both commands replace bit 0 of their register. -/
theorem enableBitCompletes : Obligations.EnableBitCompletes := by
  intro s en b rest i addr hmem hbytes hacks
  refine ⟨s.env.ready (s.env.acks.drop 2) rest, ?_⟩
  simp only [List.mem_cons, Prod.mk.injEq, List.not_mem_nil, or_false] at hmem
  obtain ⟨rfl, rfl⟩ | ⟨rfl, rfl⟩ := hmem
  · exact (exec_setPidFilterEnabled en s).trans (congrArg _ (command_enableBit en rfl hbytes hacks))
  · exact (exec_i2cGateCtrl en s).trans (congrArg _ (command_enableBit en rfl hbytes hacks))

end Sys2Proof.Machine
end

