-- ==== Sys2Proof/Proofs/StepRules.lean ====
section
/-! SUPPORT. What a step takes, and the state construction gives: the settled statements about both. -/

namespace Sys2Proof.Machine

theorem serveFrame_of_ok {f : List Byte} {i : Instr} (hf : decodeFrame f = .ok i) (s : State) : serveFrame f s = exec i s := by
  rw [serveFrame, hf]

theorem serveRecord_of_ok {r : List Byte} {i : Instr} (hr : decode r = .ok i) (hmicro : isMicroOp (opcodeOfInstr i) = true)
    (s : State) : serveRecord r s = exec i s := by
  simp only [serveRecord, hr, hmicro, if_true]

/-- An issue record is taken first, whatever runs. -/
theorem step_of_issue {s : State} {r : List Byte} (hissue : s.issue = some r) :
    step s = serveRecord r { s with issue := none } := by
  rw [step, fetchAndRun, hissue]

/-- Settles O6: the step serves the first waiting frame, or the record. -/
theorem stepRunsDecoded : Obligations.StepRunsDecoded :=
  ⟨fun _ _ _ _ hidle hframes hf => (step_of_idle hidle hframes).trans (serveFrame_of_ok hf _),
    fun _ _ _ hissue hr hmicro => (step_of_issue hissue).trans (serveRecord_of_ok hr hmicro _)⟩

/-- Settles O7: neither state has something the fetch takes. -/
theorem blockWaits : Obligations.BlockWaits := by
  refine ⟨fun s ⟨hseq, hissue⟩ hframes => ?_, fun s op k hissue hseq => ?_⟩
  · rw [step, fetchAndRun, hissue, hseq, hframes]
  · rw [step, fetchAndRun, hissue, hseq]

/-- CFG-A of the test vectors (95_test_vectors.md section 0), as construction arguments. -/
def cfgArgsA : CfgArgs := ⟨12000000#32, 0x38#8, 0#2, 0#1, 0#1, 0#1, 1#1, 1#1⟩

/-- Settles O9: CFG-A passes both checks under TP, its mode is USB, and the state is then R42's. -/
theorem resetIsConstructed : Obligations.ResetIsConstructed :=
  construct_of_mode_some (p := Config.tp) (a := cfgArgsA) (m := .usb) Env.start rfl rfl

/-- A constructed block has run nothing: no event, no statistics, and the flags its configuration gives. -/
theorem constructed_blockInv (p : Params) (c : Cfg) (e : Env) : BlockInv (constructed p c e) where
  idle := ⟨rfl, rfl⟩
  tsFlags := ⟨rfl, rfl⟩
  cachedBw := .inl rfl
  times := ⟨.nil, fun _ => List.not_mem_nil.elim, fun _ ht => (Option.some_ne_none _ ht.symm).elim⟩
  trace := fun _ => List.not_mem_nil.elim

theorem construct_blockInv {p : Params} {a : CfgArgs} {e : Env} {s : State} (h : construct p a e = .ok s) : BlockInv s := by
  by_cases hclock : a.clockHz = p.supportedClockHz
  · cases hmode : tsModeOf a.tsMode with
    | none => cases (construct_of_mode_none e hclock hmode).symm.trans h
    | some m =>
      cases (construct_of_mode_some e hclock hmode).symm.trans h
      exact constructed_blockInv p (cfgOf a m) e
  · cases (construct_of_clock_ne e hclock).symm.trans h

/-- Settles O10: construction answers only `constructed` states, and the reset state is one (O9). -/
theorem constructionEstablishesInv : Obligations.ConstructionEstablishesInv :=
  ⟨fun _ _ _ _ => construct_blockInv, construct_blockInv resetIsConstructed⟩

end Sys2Proof.Machine
end

