-- ==== Sys2Proof/Proofs/Assembler.lean ====
section
/-! SUPPORT. The text form (30_encoding.md R68): what a spelled line is, and the settled statement about it. -/

namespace Sys2Proof.Machine

/-! ### The first word of a line -/

/-- Blanks at the end of a text are no part of its first word. -/
theorem takeWhile_append_blanks (u : List Char) {v : List Char} (hv : ∀ c ∈ v, isBlank c = true) :
    (u ++ v).takeWhile (fun c => !isBlank c) = u.takeWhile fun c => !isBlank c := by
  induction u with
  | nil =>
    cases v with
    | nil => rfl
    | cons c v => simp [hv c List.mem_cons_self]
  | cons c u ih => simp only [List.cons_append, List.takeWhile_cons, ih]

/-- A text is what the trim leaves, between two runs of blanks. -/
theorem trimText_append (t : List Char) :
    ∃ v, (∀ c ∈ v, isBlank c = true) ∧ t.dropWhile isBlank = trimText t ++ v := by
  refine ⟨((t.dropWhile isBlank).reverse.takeWhile isBlank).reverse, fun c hc => ?_, ?_⟩
  · exact (List.mem_takeWhile_imp (List.mem_reverse.mp hc))
  · rw [trimText, ← List.reverse_append, List.takeWhile_append_dropWhile, List.reverse_reverse]

/-- The first word is that of the trimmed text the assembler reads. -/
theorem firstWord_eq (line : List Char) :
    firstWord line = (trimText (line.takeWhile (· ≠ ';'))).takeWhile fun c => !isBlank c := by
  obtain ⟨v, hv, htrim⟩ := trimText_append (line.takeWhile (· ≠ ';'))
  rw [← takeWhile_append_blanks _ hv, ← htrim]
  rfl

/-! ### A spelled line -/

/-- A line is spelled where its word names a row whose operands fit. -/
theorem assembleLine_eq_frame {line : List Char} {f : List Byte} (h : assembleLine line = .frame f) :
    ∃ o ns i, mnemonicOpcode (firstWord line) = some o ∧ assembleOperands o ns = some i ∧ encode i = f := by
  rw [firstWord_eq]
  unfold assembleLine at h
  split at h
  · cases h
  · split at h
    · next o ns hword hops =>
      split at h
      · next i hi => exact ⟨o, ns, i, hword, hi, by simpa using h⟩
      · cases h
    · cases h

/-- The operands of a row give a command of that row. -/
theorem opcodeOfInstr_assembleOperands {o : Opcode} {ns : List Nat} {i : Instr} (h : assembleOperands o ns = some i) :
    opcodeOfInstr i = o := by
  unfold assembleOperands at h
  split at h
  case h_3 =>
    obtain ⟨_, hi⟩ := Option.ite_none_right_eq_some.mp h
    cases hi
    rfl
  case h_10 =>
    obtain ⟨_, hi⟩ := Option.ite_none_right_eq_some.mp h
    obtain ⟨en, _, rfl⟩ := Option.map_eq_some_iff.mp hi
    rfl
  case h_11 | h_12 =>
    obtain ⟨en, _, rfl⟩ := Option.map_eq_some_iff.mp h
    rfl
  case h_13 => cases h
  all_goals
    cases h
    rfl

/-- The mnemonics and the rows they name. -/
def mnemonicTable : List (List Char × Opcode) := allOpcodes.filterMap fun o => (mnemonicText o).map fun t => (t, o)

/-- The row a word is found to name has that word as its mnemonic. -/
theorem mnemonicOpcode_spec {t : List Char} {o : Opcode} (h : mnemonicOpcode t = some o) :
    mnemonicText o = some t ∧ (t, o) ∈ mnemonicTable := by
  have htext : mnemonicText o = some t := by simpa using List.find?_some h
  exact ⟨htext, List.mem_filterMap.mpr ⟨o, List.mem_of_find?_eq_some h, by rw [htext]; rfl⟩⟩

/-- The `UOP` rows have no mnemonic. -/
theorem mnemonicText_host {o : Opcode} {t : List Char} (h : mnemonicText o = some t) : isMicroOp o = false := by
  cases o with
  | uopRegWrite | uopRegRead | uopRegWriteMasked | uopRegReadMasked | uopRegWriteTable | uopFpDivide => cases h
  | _ => rfl

/-- No host command has an operand its encoding does not admit. -/
theorem wellFormed_of_host {i : Instr} (hhost : isMicroOp (opcodeOfInstr i) = false) : i.WellFormed = true := by
  cases i with
  | uopRegWrite | uopRegRead | uopRegWriteMasked | uopRegReadMasked | uopRegWriteTable | uopFpDivide => cases hhost
  | _ => rfl

/-- Settles O5: a spelled line is the encoding of a host command, which the host port gives back; the row is the one whose
mnemonic is the line's first word. -/
theorem assembledLineIsLegalFrame : Obligations.AssembledLineIsLegalFrame := by
  refine ⟨fun line f hline => ?_, ?_, ?_, ?_⟩
  · obtain ⟨o, ns, i, hword, hi, rfl⟩ := assembleLine_eq_frame hline
    have hrow := opcodeOfInstr_assembleOperands hi
    obtain ⟨htext, htable⟩ := mnemonicOpcode_spec hword
    have hhost : isMicroOp (opcodeOfInstr i) = false := hrow ▸ mnemonicText_host htext
    refine ⟨i, (decodeOfEncode i (wellFormed_of_host hhost)).2 hhost, rfl, ?_⟩
    rw [hrow]
    exact htable
  · rfl
  · rfl
  · rfl

end Sys2Proof.Machine
end
